-- ==== Sys2Proof/Word.lean ====
section
/-! DEFINITION. The two word types of the hardware: the data byte and the 16-bit address (spec/00_scope.md R7, R9). -/

namespace Sys2Proof

/-- An 8-bit value: A, X, Y, SP, P and a memory cell (R7). -/
abbrev Byte := BitVec 8

/-- A 16-bit value: PC and every address (R7). -/
abbrev Word := BitVec 16

end Sys2Proof
end

