-- ==== Sys2Proof/Syntax.lean ====
section
/-! DEFINITION. The instructions as syntax: the 56 mnemonics, the 13 addressing modes (spec/30_encoding.md R91), and one
constructor of `Instr` per row of spec/opcode_table.json, with its operand bytes. -/

namespace Sys2Proof

/-- The mnemonics of R94. -/
inductive Mnemonic where
  | lda
  | ldx
  | ldy
  | adc
  | sbc
  | and
  | eor
  | ora
  | asl
  | lsr
  | rol
  | ror
  | cmp
  | cpx
  | cpy
  | inc
  | dec
  | inx
  | iny
  | dex
  | dey
  | bcc
  | bcs
  | beq
  | bmi
  | bne
  | bpl
  | bvc
  | bvs
  | bit
  | clc
  | cld
  | cli
  | clv
  | jmp
  | brk
  | pha
  | php
  | pla
  | plp
  | jsr
  | rts
  | rti
  | sta
  | stx
  | sty
  | tax
  | tay
  | txa
  | tya
  | tsx
  | txs
  | sec
  | sed
  | sei
  | nop
deriving DecidableEq, Repr

/-- The addressing modes of R91. -/
inductive Mode where
  | implied
  | accumulator
  | immediate
  | relative
  | zeroPage
  | zeroPageX
  | zeroPageY
  | absolute
  | absoluteX
  | absoluteY
  | indirect
  | indirectX
  | indirectY
deriving DecidableEq, Repr

/-- The eight modes that give a memory location (R129), each with its operand bytes. -/
inductive MemMode where
  | zeroPage (zp8 : Byte)
  | zeroPageX (zp8 : Byte)
  | zeroPageY (zp8 : Byte)
  | absolute (addr : Word)
  | absoluteX (base : Word)
  | absoluteY (base : Word)
  | indirectX (zp8 : Byte)
  | indirectY (zp8 : Byte)
deriving DecidableEq, Repr

/-- An addressing mode with its operand bytes (R91, R92). -/
inductive AddrForm where
  | implied
  | accumulator
  | immediate (imm8 : Byte)
  | relative (disp8 : Byte)
  | mem (m : MemMode)
  | indirect (ptr : Word)
deriving DecidableEq, Repr

/-- The mode of a memory mode with operands. -/
def MemMode.mode : MemMode → Mode
  | .zeroPage _ => .zeroPage
  | .zeroPageX _ => .zeroPageX
  | .zeroPageY _ => .zeroPageY
  | .absolute _ => .absolute
  | .absoluteX _ => .absoluteX
  | .absoluteY _ => .absoluteY
  | .indirectX _ => .indirectX
  | .indirectY _ => .indirectY

/-- The mode of a form. -/
def AddrForm.mode : AddrForm → Mode
  | .implied => .implied
  | .accumulator => .accumulator
  | .immediate _ => .immediate
  | .relative _ => .relative
  | .mem m => m.mode
  | .indirect _ => .indirect

/-- The number of operand bytes of a mode, 0, 1 or 2 (R91). -/
def Mode.width : Mode → Nat
  | .implied => 0
  | .accumulator => 0
  | .immediate => 1
  | .relative => 1
  | .zeroPage => 1
  | .zeroPageX => 1
  | .zeroPageY => 1
  | .absolute => 2
  | .absoluteX => 2
  | .absoluteY => 2
  | .indirect => 2
  | .indirectX => 1
  | .indirectY => 1

/-- The instructions: one constructor per row of the opcode table (R94), the operand bytes as its arguments. No operand
value is illegal (R101). -/
inductive Instr where
  | ldaImm (imm8 : Byte)
  | ldaZp (zp8 : Byte)
  | ldaZpX (zp8 : Byte)
  | ldaAbs (addr : Word)
  | ldaAbsX (base : Word)
  | ldaAbsY (base : Word)
  | ldaIndX (zp8 : Byte)
  | ldaIndY (zp8 : Byte)
  | ldxImm (imm8 : Byte)
  | ldxZp (zp8 : Byte)
  | ldxZpY (zp8 : Byte)
  | ldxAbs (addr : Word)
  | ldxAbsY (base : Word)
  | ldyImm (imm8 : Byte)
  | ldyZp (zp8 : Byte)
  | ldyZpX (zp8 : Byte)
  | ldyAbs (addr : Word)
  | ldyAbsX (base : Word)
  | adcImm (imm8 : Byte)
  | adcZp (zp8 : Byte)
  | adcZpX (zp8 : Byte)
  | adcAbs (addr : Word)
  | adcAbsX (base : Word)
  | adcAbsY (base : Word)
  | adcIndX (zp8 : Byte)
  | adcIndY (zp8 : Byte)
  | sbcImm (imm8 : Byte)
  | sbcZp (zp8 : Byte)
  | sbcZpX (zp8 : Byte)
  | sbcAbs (addr : Word)
  | sbcAbsX (base : Word)
  | sbcAbsY (base : Word)
  | sbcIndX (zp8 : Byte)
  | sbcIndY (zp8 : Byte)
  | andImm (imm8 : Byte)
  | andZp (zp8 : Byte)
  | andZpX (zp8 : Byte)
  | andAbs (addr : Word)
  | andAbsX (base : Word)
  | andAbsY (base : Word)
  | andIndX (zp8 : Byte)
  | andIndY (zp8 : Byte)
  | eorImm (imm8 : Byte)
  | eorZp (zp8 : Byte)
  | eorZpX (zp8 : Byte)
  | eorAbs (addr : Word)
  | eorAbsX (base : Word)
  | eorAbsY (base : Word)
  | eorIndX (zp8 : Byte)
  | eorIndY (zp8 : Byte)
  | oraImm (imm8 : Byte)
  | oraZp (zp8 : Byte)
  | oraZpX (zp8 : Byte)
  | oraAbs (addr : Word)
  | oraAbsX (base : Word)
  | oraAbsY (base : Word)
  | oraIndX (zp8 : Byte)
  | oraIndY (zp8 : Byte)
  | aslAcc
  | aslZp (zp8 : Byte)
  | aslZpX (zp8 : Byte)
  | aslAbs (addr : Word)
  | aslAbsX (base : Word)
  | lsrAcc
  | lsrZp (zp8 : Byte)
  | lsrZpX (zp8 : Byte)
  | lsrAbs (addr : Word)
  | lsrAbsX (base : Word)
  | rolAcc
  | rolZp (zp8 : Byte)
  | rolZpX (zp8 : Byte)
  | rolAbs (addr : Word)
  | rolAbsX (base : Word)
  | rorAcc
  | rorZp (zp8 : Byte)
  | rorZpX (zp8 : Byte)
  | rorAbs (addr : Word)
  | rorAbsX (base : Word)
  | cmpImm (imm8 : Byte)
  | cmpZp (zp8 : Byte)
  | cmpZpX (zp8 : Byte)
  | cmpAbs (addr : Word)
  | cmpAbsX (base : Word)
  | cmpAbsY (base : Word)
  | cmpIndX (zp8 : Byte)
  | cmpIndY (zp8 : Byte)
  | cpxImm (imm8 : Byte)
  | cpxZp (zp8 : Byte)
  | cpxAbs (addr : Word)
  | cpyImm (imm8 : Byte)
  | cpyZp (zp8 : Byte)
  | cpyAbs (addr : Word)
  | incZp (zp8 : Byte)
  | incZpX (zp8 : Byte)
  | incAbs (addr : Word)
  | incAbsX (base : Word)
  | decZp (zp8 : Byte)
  | decZpX (zp8 : Byte)
  | decAbs (addr : Word)
  | decAbsX (base : Word)
  | inx
  | iny
  | dex
  | dey
  | bcc (disp8 : Byte)
  | bcs (disp8 : Byte)
  | beq (disp8 : Byte)
  | bmi (disp8 : Byte)
  | bne (disp8 : Byte)
  | bpl (disp8 : Byte)
  | bvc (disp8 : Byte)
  | bvs (disp8 : Byte)
  | bitZp (zp8 : Byte)
  | bitAbs (addr : Word)
  | clc
  | cld
  | cli
  | clv
  | jmpAbs (addr : Word)
  | jmpInd (ptr : Word)
  | brk
  | pha
  | php
  | pla
  | plp
  | jsr (addr : Word)
  | rts
  | rti
  | staZp (zp8 : Byte)
  | staZpX (zp8 : Byte)
  | staAbs (addr : Word)
  | staAbsX (base : Word)
  | staAbsY (base : Word)
  | staIndX (zp8 : Byte)
  | staIndY (zp8 : Byte)
  | stxZp (zp8 : Byte)
  | stxZpY (zp8 : Byte)
  | stxAbs (addr : Word)
  | styZp (zp8 : Byte)
  | styZpX (zp8 : Byte)
  | styAbs (addr : Word)
  | tax
  | tay
  | txa
  | tya
  | tsx
  | txs
  | sec
  | sed
  | sei
  | nop
deriving DecidableEq, Repr

/-- The mnemonic and the addressing form of an instruction, the pair `Decode` of R94 gives. -/
def Instr.info : Instr → Mnemonic × AddrForm
  | .ldaImm imm8 => (.lda, .immediate imm8)
  | .ldaZp zp8 => (.lda, .mem (.zeroPage zp8))
  | .ldaZpX zp8 => (.lda, .mem (.zeroPageX zp8))
  | .ldaAbs addr => (.lda, .mem (.absolute addr))
  | .ldaAbsX base => (.lda, .mem (.absoluteX base))
  | .ldaAbsY base => (.lda, .mem (.absoluteY base))
  | .ldaIndX zp8 => (.lda, .mem (.indirectX zp8))
  | .ldaIndY zp8 => (.lda, .mem (.indirectY zp8))
  | .ldxImm imm8 => (.ldx, .immediate imm8)
  | .ldxZp zp8 => (.ldx, .mem (.zeroPage zp8))
  | .ldxZpY zp8 => (.ldx, .mem (.zeroPageY zp8))
  | .ldxAbs addr => (.ldx, .mem (.absolute addr))
  | .ldxAbsY base => (.ldx, .mem (.absoluteY base))
  | .ldyImm imm8 => (.ldy, .immediate imm8)
  | .ldyZp zp8 => (.ldy, .mem (.zeroPage zp8))
  | .ldyZpX zp8 => (.ldy, .mem (.zeroPageX zp8))
  | .ldyAbs addr => (.ldy, .mem (.absolute addr))
  | .ldyAbsX base => (.ldy, .mem (.absoluteX base))
  | .adcImm imm8 => (.adc, .immediate imm8)
  | .adcZp zp8 => (.adc, .mem (.zeroPage zp8))
  | .adcZpX zp8 => (.adc, .mem (.zeroPageX zp8))
  | .adcAbs addr => (.adc, .mem (.absolute addr))
  | .adcAbsX base => (.adc, .mem (.absoluteX base))
  | .adcAbsY base => (.adc, .mem (.absoluteY base))
  | .adcIndX zp8 => (.adc, .mem (.indirectX zp8))
  | .adcIndY zp8 => (.adc, .mem (.indirectY zp8))
  | .sbcImm imm8 => (.sbc, .immediate imm8)
  | .sbcZp zp8 => (.sbc, .mem (.zeroPage zp8))
  | .sbcZpX zp8 => (.sbc, .mem (.zeroPageX zp8))
  | .sbcAbs addr => (.sbc, .mem (.absolute addr))
  | .sbcAbsX base => (.sbc, .mem (.absoluteX base))
  | .sbcAbsY base => (.sbc, .mem (.absoluteY base))
  | .sbcIndX zp8 => (.sbc, .mem (.indirectX zp8))
  | .sbcIndY zp8 => (.sbc, .mem (.indirectY zp8))
  | .andImm imm8 => (.and, .immediate imm8)
  | .andZp zp8 => (.and, .mem (.zeroPage zp8))
  | .andZpX zp8 => (.and, .mem (.zeroPageX zp8))
  | .andAbs addr => (.and, .mem (.absolute addr))
  | .andAbsX base => (.and, .mem (.absoluteX base))
  | .andAbsY base => (.and, .mem (.absoluteY base))
  | .andIndX zp8 => (.and, .mem (.indirectX zp8))
  | .andIndY zp8 => (.and, .mem (.indirectY zp8))
  | .eorImm imm8 => (.eor, .immediate imm8)
  | .eorZp zp8 => (.eor, .mem (.zeroPage zp8))
  | .eorZpX zp8 => (.eor, .mem (.zeroPageX zp8))
  | .eorAbs addr => (.eor, .mem (.absolute addr))
  | .eorAbsX base => (.eor, .mem (.absoluteX base))
  | .eorAbsY base => (.eor, .mem (.absoluteY base))
  | .eorIndX zp8 => (.eor, .mem (.indirectX zp8))
  | .eorIndY zp8 => (.eor, .mem (.indirectY zp8))
  | .oraImm imm8 => (.ora, .immediate imm8)
  | .oraZp zp8 => (.ora, .mem (.zeroPage zp8))
  | .oraZpX zp8 => (.ora, .mem (.zeroPageX zp8))
  | .oraAbs addr => (.ora, .mem (.absolute addr))
  | .oraAbsX base => (.ora, .mem (.absoluteX base))
  | .oraAbsY base => (.ora, .mem (.absoluteY base))
  | .oraIndX zp8 => (.ora, .mem (.indirectX zp8))
  | .oraIndY zp8 => (.ora, .mem (.indirectY zp8))
  | .aslAcc => (.asl, .accumulator)
  | .aslZp zp8 => (.asl, .mem (.zeroPage zp8))
  | .aslZpX zp8 => (.asl, .mem (.zeroPageX zp8))
  | .aslAbs addr => (.asl, .mem (.absolute addr))
  | .aslAbsX base => (.asl, .mem (.absoluteX base))
  | .lsrAcc => (.lsr, .accumulator)
  | .lsrZp zp8 => (.lsr, .mem (.zeroPage zp8))
  | .lsrZpX zp8 => (.lsr, .mem (.zeroPageX zp8))
  | .lsrAbs addr => (.lsr, .mem (.absolute addr))
  | .lsrAbsX base => (.lsr, .mem (.absoluteX base))
  | .rolAcc => (.rol, .accumulator)
  | .rolZp zp8 => (.rol, .mem (.zeroPage zp8))
  | .rolZpX zp8 => (.rol, .mem (.zeroPageX zp8))
  | .rolAbs addr => (.rol, .mem (.absolute addr))
  | .rolAbsX base => (.rol, .mem (.absoluteX base))
  | .rorAcc => (.ror, .accumulator)
  | .rorZp zp8 => (.ror, .mem (.zeroPage zp8))
  | .rorZpX zp8 => (.ror, .mem (.zeroPageX zp8))
  | .rorAbs addr => (.ror, .mem (.absolute addr))
  | .rorAbsX base => (.ror, .mem (.absoluteX base))
  | .cmpImm imm8 => (.cmp, .immediate imm8)
  | .cmpZp zp8 => (.cmp, .mem (.zeroPage zp8))
  | .cmpZpX zp8 => (.cmp, .mem (.zeroPageX zp8))
  | .cmpAbs addr => (.cmp, .mem (.absolute addr))
  | .cmpAbsX base => (.cmp, .mem (.absoluteX base))
  | .cmpAbsY base => (.cmp, .mem (.absoluteY base))
  | .cmpIndX zp8 => (.cmp, .mem (.indirectX zp8))
  | .cmpIndY zp8 => (.cmp, .mem (.indirectY zp8))
  | .cpxImm imm8 => (.cpx, .immediate imm8)
  | .cpxZp zp8 => (.cpx, .mem (.zeroPage zp8))
  | .cpxAbs addr => (.cpx, .mem (.absolute addr))
  | .cpyImm imm8 => (.cpy, .immediate imm8)
  | .cpyZp zp8 => (.cpy, .mem (.zeroPage zp8))
  | .cpyAbs addr => (.cpy, .mem (.absolute addr))
  | .incZp zp8 => (.inc, .mem (.zeroPage zp8))
  | .incZpX zp8 => (.inc, .mem (.zeroPageX zp8))
  | .incAbs addr => (.inc, .mem (.absolute addr))
  | .incAbsX base => (.inc, .mem (.absoluteX base))
  | .decZp zp8 => (.dec, .mem (.zeroPage zp8))
  | .decZpX zp8 => (.dec, .mem (.zeroPageX zp8))
  | .decAbs addr => (.dec, .mem (.absolute addr))
  | .decAbsX base => (.dec, .mem (.absoluteX base))
  | .inx => (.inx, .implied)
  | .iny => (.iny, .implied)
  | .dex => (.dex, .implied)
  | .dey => (.dey, .implied)
  | .bcc disp8 => (.bcc, .relative disp8)
  | .bcs disp8 => (.bcs, .relative disp8)
  | .beq disp8 => (.beq, .relative disp8)
  | .bmi disp8 => (.bmi, .relative disp8)
  | .bne disp8 => (.bne, .relative disp8)
  | .bpl disp8 => (.bpl, .relative disp8)
  | .bvc disp8 => (.bvc, .relative disp8)
  | .bvs disp8 => (.bvs, .relative disp8)
  | .bitZp zp8 => (.bit, .mem (.zeroPage zp8))
  | .bitAbs addr => (.bit, .mem (.absolute addr))
  | .clc => (.clc, .implied)
  | .cld => (.cld, .implied)
  | .cli => (.cli, .implied)
  | .clv => (.clv, .implied)
  | .jmpAbs addr => (.jmp, .mem (.absolute addr))
  | .jmpInd ptr => (.jmp, .indirect ptr)
  | .brk => (.brk, .implied)
  | .pha => (.pha, .implied)
  | .php => (.php, .implied)
  | .pla => (.pla, .implied)
  | .plp => (.plp, .implied)
  | .jsr addr => (.jsr, .mem (.absolute addr))
  | .rts => (.rts, .implied)
  | .rti => (.rti, .implied)
  | .staZp zp8 => (.sta, .mem (.zeroPage zp8))
  | .staZpX zp8 => (.sta, .mem (.zeroPageX zp8))
  | .staAbs addr => (.sta, .mem (.absolute addr))
  | .staAbsX base => (.sta, .mem (.absoluteX base))
  | .staAbsY base => (.sta, .mem (.absoluteY base))
  | .staIndX zp8 => (.sta, .mem (.indirectX zp8))
  | .staIndY zp8 => (.sta, .mem (.indirectY zp8))
  | .stxZp zp8 => (.stx, .mem (.zeroPage zp8))
  | .stxZpY zp8 => (.stx, .mem (.zeroPageY zp8))
  | .stxAbs addr => (.stx, .mem (.absolute addr))
  | .styZp zp8 => (.sty, .mem (.zeroPage zp8))
  | .styZpX zp8 => (.sty, .mem (.zeroPageX zp8))
  | .styAbs addr => (.sty, .mem (.absolute addr))
  | .tax => (.tax, .implied)
  | .tay => (.tay, .implied)
  | .txa => (.txa, .implied)
  | .tya => (.tya, .implied)
  | .tsx => (.tsx, .implied)
  | .txs => (.txs, .implied)
  | .sec => (.sec, .implied)
  | .sed => (.sed, .implied)
  | .sei => (.sei, .implied)
  | .nop => (.nop, .implied)

/-- The instruction's mnemonic. -/
def Instr.mnemonic (i : Instr) : Mnemonic := i.info.1

/-- The instruction's addressing form. -/
def Instr.form (i : Instr) : AddrForm := i.info.2

/-- The instruction's length in bytes, `1 + width(mode)` (R93). -/
def Instr.length (i : Instr) : Nat := 1 + i.form.mode.width

end Sys2Proof
end

