-- ==== Sys2Proof/WellFormed.lean ====
section
/-! DEFINITION. Which instructions an instance has (spec/00_scope.md R6, 30_encoding.md R94, R99). Operand bytes are never
ill-formed (R101), so the one check is the set a mnemonic belongs to. -/

namespace Sys2Proof

/-- Whether the source lists the mnemonic (R94, column "set"); the other thirteen are unlisted (R6). -/
def Mnemonic.listed : Mnemonic → Bool
  | .lda => true
  | .ldx => true
  | .ldy => true
  | .adc => true
  | .sbc => true
  | .and => true
  | .eor => true
  | .ora => true
  | .asl => true
  | .lsr => true
  | .rol => true
  | .ror => true
  | .cmp => true
  | .cpx => true
  | .cpy => true
  | .inc => true
  | .dec => true
  | .inx => true
  | .iny => true
  | .dex => true
  | .dey => true
  | .bcc => true
  | .bcs => true
  | .beq => true
  | .bmi => true
  | .bne => true
  | .bpl => true
  | .bvc => true
  | .bvs => true
  | .bit => true
  | .clc => true
  | .cld => true
  | .cli => true
  | .clv => true
  | .jmp => true
  | .brk => true
  | .pha => true
  | .php => true
  | .pla => true
  | .plp => true
  | .jsr => true
  | .rts => true
  | .rti => true
  | .sta => false
  | .stx => false
  | .sty => false
  | .tax => false
  | .tay => false
  | .txa => false
  | .tya => false
  | .tsx => false
  | .txs => false
  | .sec => false
  | .sed => false
  | .sei => false
  | .nop => false

/-- An instruction is well formed in an instance if it is listed or `UNLISTED_OFFICIAL` is true (R94, R99). -/
def Instr.wellFormed (unlistedOfficial : Bool) (i : Instr) : Bool := unlistedOfficial || i.mnemonic.listed

end Sys2Proof
end

