-- ==== Sys2Proof/Decode.lean ====
section
/-! DEFINITION. The byte-order helpers (R65), the opcode table of spec/30_encoding.md R94, the decoder, total on any bytes
and rejecting by name (R97), and the encoder written from the same table. -/

namespace Sys2Proof

/-- `hi:lo`, the 16-bit value of two bytes (R10, R65, R92). -/
def word (lo hi : Byte) : Word := hi ++ lo

/-- The low byte of a 16-bit value. -/
def lowByte (w : Word) : Byte := w.extractLsb' 0 8

/-- The high byte of a 16-bit value. -/
def highByte (w : Word) : Byte := w.extractLsb' 8 8

/-- How a row's instruction is made from its operand bytes (R91): none, one, or two read little-endian (R92). -/
inductive Form where
  | none (i : Instr)
  | byte (mk : Byte → Instr)
  | word (mk : Word → Instr)

/-- The row's instruction with zero operand bytes; its mnemonic and mode are the row's. -/
def Form.sample : Form → Instr
  | .none i => i
  | .byte mk => mk 0
  | .word mk => mk 0

/-- One row of the opcode table: the opcode byte and the form (R90, R94). -/
structure OpcodeRow where
  opcode : Byte
  form : Form

/-- The row's mnemonic. -/
def OpcodeRow.mnemonic (r : OpcodeRow) : Mnemonic := r.form.sample.mnemonic

/-- The row's addressing mode. -/
def OpcodeRow.mode (r : OpcodeRow) : Mode := r.form.sample.form.mode

/-- The rows of spec/43_load.md in the table of R94 (opcode bytes: log 9). -/
def opcodeRowsLoad : List OpcodeRow := [
  ⟨0xA9, .byte .ldaImm⟩,
  ⟨0xA5, .byte .ldaZp⟩,
  ⟨0xB5, .byte .ldaZpX⟩,
  ⟨0xAD, .word .ldaAbs⟩,
  ⟨0xBD, .word .ldaAbsX⟩,
  ⟨0xB9, .word .ldaAbsY⟩,
  ⟨0xA1, .byte .ldaIndX⟩,
  ⟨0xB1, .byte .ldaIndY⟩,
  ⟨0xA2, .byte .ldxImm⟩,
  ⟨0xA6, .byte .ldxZp⟩,
  ⟨0xB6, .byte .ldxZpY⟩,
  ⟨0xAE, .word .ldxAbs⟩,
  ⟨0xBE, .word .ldxAbsY⟩,
  ⟨0xA0, .byte .ldyImm⟩,
  ⟨0xA4, .byte .ldyZp⟩,
  ⟨0xB4, .byte .ldyZpX⟩,
  ⟨0xAC, .word .ldyAbs⟩,
  ⟨0xBC, .word .ldyAbsX⟩]

/-- The rows of spec/44_arith_logic.md in the table of R94 (opcode bytes: log 9). -/
def opcodeRowsArithLogic : List OpcodeRow := [
  ⟨0x69, .byte .adcImm⟩,
  ⟨0x65, .byte .adcZp⟩,
  ⟨0x75, .byte .adcZpX⟩,
  ⟨0x6D, .word .adcAbs⟩,
  ⟨0x7D, .word .adcAbsX⟩,
  ⟨0x79, .word .adcAbsY⟩,
  ⟨0x61, .byte .adcIndX⟩,
  ⟨0x71, .byte .adcIndY⟩,
  ⟨0xE9, .byte .sbcImm⟩,
  ⟨0xE5, .byte .sbcZp⟩,
  ⟨0xF5, .byte .sbcZpX⟩,
  ⟨0xED, .word .sbcAbs⟩,
  ⟨0xFD, .word .sbcAbsX⟩,
  ⟨0xF9, .word .sbcAbsY⟩,
  ⟨0xE1, .byte .sbcIndX⟩,
  ⟨0xF1, .byte .sbcIndY⟩,
  ⟨0x29, .byte .andImm⟩,
  ⟨0x25, .byte .andZp⟩,
  ⟨0x35, .byte .andZpX⟩,
  ⟨0x2D, .word .andAbs⟩,
  ⟨0x3D, .word .andAbsX⟩,
  ⟨0x39, .word .andAbsY⟩,
  ⟨0x21, .byte .andIndX⟩,
  ⟨0x31, .byte .andIndY⟩,
  ⟨0x49, .byte .eorImm⟩,
  ⟨0x45, .byte .eorZp⟩,
  ⟨0x55, .byte .eorZpX⟩,
  ⟨0x4D, .word .eorAbs⟩,
  ⟨0x5D, .word .eorAbsX⟩,
  ⟨0x59, .word .eorAbsY⟩,
  ⟨0x41, .byte .eorIndX⟩,
  ⟨0x51, .byte .eorIndY⟩,
  ⟨0x09, .byte .oraImm⟩,
  ⟨0x05, .byte .oraZp⟩,
  ⟨0x15, .byte .oraZpX⟩,
  ⟨0x0D, .word .oraAbs⟩,
  ⟨0x1D, .word .oraAbsX⟩,
  ⟨0x19, .word .oraAbsY⟩,
  ⟨0x01, .byte .oraIndX⟩,
  ⟨0x11, .byte .oraIndY⟩]

/-- The rows of spec/45_shift.md in the table of R94 (opcode bytes: log 9). -/
def opcodeRowsShift : List OpcodeRow := [
  ⟨0x0A, .none .aslAcc⟩,
  ⟨0x06, .byte .aslZp⟩,
  ⟨0x16, .byte .aslZpX⟩,
  ⟨0x0E, .word .aslAbs⟩,
  ⟨0x1E, .word .aslAbsX⟩,
  ⟨0x4A, .none .lsrAcc⟩,
  ⟨0x46, .byte .lsrZp⟩,
  ⟨0x56, .byte .lsrZpX⟩,
  ⟨0x4E, .word .lsrAbs⟩,
  ⟨0x5E, .word .lsrAbsX⟩,
  ⟨0x2A, .none .rolAcc⟩,
  ⟨0x26, .byte .rolZp⟩,
  ⟨0x36, .byte .rolZpX⟩,
  ⟨0x2E, .word .rolAbs⟩,
  ⟨0x3E, .word .rolAbsX⟩,
  ⟨0x6A, .none .rorAcc⟩,
  ⟨0x66, .byte .rorZp⟩,
  ⟨0x76, .byte .rorZpX⟩,
  ⟨0x6E, .word .rorAbs⟩,
  ⟨0x7E, .word .rorAbsX⟩]

/-- The rows of spec/46_compare_incdec.md in the table of R94 (opcode bytes: log 9). -/
def opcodeRowsCompareIncDec : List OpcodeRow := [
  ⟨0xC9, .byte .cmpImm⟩,
  ⟨0xC5, .byte .cmpZp⟩,
  ⟨0xD5, .byte .cmpZpX⟩,
  ⟨0xCD, .word .cmpAbs⟩,
  ⟨0xDD, .word .cmpAbsX⟩,
  ⟨0xD9, .word .cmpAbsY⟩,
  ⟨0xC1, .byte .cmpIndX⟩,
  ⟨0xD1, .byte .cmpIndY⟩,
  ⟨0xE0, .byte .cpxImm⟩,
  ⟨0xE4, .byte .cpxZp⟩,
  ⟨0xEC, .word .cpxAbs⟩,
  ⟨0xC0, .byte .cpyImm⟩,
  ⟨0xC4, .byte .cpyZp⟩,
  ⟨0xCC, .word .cpyAbs⟩,
  ⟨0xE6, .byte .incZp⟩,
  ⟨0xF6, .byte .incZpX⟩,
  ⟨0xEE, .word .incAbs⟩,
  ⟨0xFE, .word .incAbsX⟩,
  ⟨0xC6, .byte .decZp⟩,
  ⟨0xD6, .byte .decZpX⟩,
  ⟨0xCE, .word .decAbs⟩,
  ⟨0xDE, .word .decAbsX⟩,
  ⟨0xE8, .none .inx⟩,
  ⟨0xC8, .none .iny⟩,
  ⟨0xCA, .none .dex⟩,
  ⟨0x88, .none .dey⟩]

/-- The rows of spec/47_branch_bit_flags.md in the table of R94 (opcode bytes: log 9). -/
def opcodeRowsBranchBitFlags : List OpcodeRow := [
  ⟨0x90, .byte .bcc⟩,
  ⟨0xB0, .byte .bcs⟩,
  ⟨0xF0, .byte .beq⟩,
  ⟨0x30, .byte .bmi⟩,
  ⟨0xD0, .byte .bne⟩,
  ⟨0x10, .byte .bpl⟩,
  ⟨0x50, .byte .bvc⟩,
  ⟨0x70, .byte .bvs⟩,
  ⟨0x24, .byte .bitZp⟩,
  ⟨0x2C, .word .bitAbs⟩,
  ⟨0x18, .none .clc⟩,
  ⟨0xD8, .none .cld⟩,
  ⟨0x58, .none .cli⟩,
  ⟨0xB8, .none .clv⟩]

/-- The rows of spec/48_control_stack.md in the table of R94 (opcode bytes: log 9). -/
def opcodeRowsControlStack : List OpcodeRow := [
  ⟨0x4C, .word .jmpAbs⟩,
  ⟨0x6C, .word .jmpInd⟩,
  ⟨0x00, .none .brk⟩,
  ⟨0x48, .none .pha⟩,
  ⟨0x08, .none .php⟩,
  ⟨0x68, .none .pla⟩,
  ⟨0x28, .none .plp⟩,
  ⟨0x20, .word .jsr⟩,
  ⟨0x60, .none .rts⟩,
  ⟨0x40, .none .rti⟩]

/-- The rows of spec/49_unlisted.md in the table of R94 (opcode bytes: log 9). -/
def opcodeRowsUnlisted : List OpcodeRow := [
  ⟨0x85, .byte .staZp⟩,
  ⟨0x95, .byte .staZpX⟩,
  ⟨0x8D, .word .staAbs⟩,
  ⟨0x9D, .word .staAbsX⟩,
  ⟨0x99, .word .staAbsY⟩,
  ⟨0x81, .byte .staIndX⟩,
  ⟨0x91, .byte .staIndY⟩,
  ⟨0x86, .byte .stxZp⟩,
  ⟨0x96, .byte .stxZpY⟩,
  ⟨0x8E, .word .stxAbs⟩,
  ⟨0x84, .byte .styZp⟩,
  ⟨0x94, .byte .styZpX⟩,
  ⟨0x8C, .word .styAbs⟩,
  ⟨0xAA, .none .tax⟩,
  ⟨0xA8, .none .tay⟩,
  ⟨0x8A, .none .txa⟩,
  ⟨0x98, .none .tya⟩,
  ⟨0xBA, .none .tsx⟩,
  ⟨0x9A, .none .txs⟩,
  ⟨0x38, .none .sec⟩,
  ⟨0xF8, .none .sed⟩,
  ⟨0x78, .none .sei⟩,
  ⟨0xEA, .none .nop⟩]

/-- The opcode table (R94, R96): a static list of rows keyed by the opcode byte. -/
def opcodeRows : List OpcodeRow :=
  opcodeRowsLoad ++ opcodeRowsArithLogic ++ opcodeRowsShift ++ opcodeRowsCompareIncDec ++ opcodeRowsBranchBitFlags
    ++ opcodeRowsControlStack ++ opcodeRowsUnlisted

/-- The modes and opcode bytes the table gives a mnemonic. -/
def opcodesOf (m : Mnemonic) : List (Mode × Byte) :=
  (opcodeRows.filter fun r => r.mnemonic == m).map fun r => (r.mode, r.opcode)

/-- `Decode(opcode)` (R94): the byte's row, or none where it has no entry, or an unlisted one without `UNLISTED_OFFICIAL`. -/
def lookup (unlistedOfficial : Bool) (opcode : Byte) : Option OpcodeRow :=
  opcodeRows.find? fun r => r.opcode == opcode && (unlistedOfficial || r.mnemonic.listed)

/-- Why bytes do not decode. -/
inductive DecodeError where
  /-- The opcode byte has no table entry (R97). -/
  | invalidOpcode (opcode : Byte)
  /-- There are fewer bytes than the opcode's length (R93). -/
  | truncated
deriving DecidableEq, Repr

/-- The operand bytes read for a form, and the bytes left. -/
def Form.takeOperand : Form → List Byte → Except DecodeError (Instr × List Byte)
  | .none i, rest => .ok (i, rest)
  | .byte mk, b :: rest => .ok (mk b, rest)
  | .word mk, lo :: hi :: rest => .ok (mk (Sys2Proof.word lo hi), rest)
  | .byte _, [] => .error .truncated
  | .word _, [] => .error .truncated
  | .word _, [_] => .error .truncated

/-- The instruction at the head of a byte list, and the bytes left (R90 to R93). -/
def decode (unlistedOfficial : Bool) : List Byte → Except DecodeError (Instr × List Byte)
  | [] => .error .truncated
  | opcode :: rest =>
    match lookup unlistedOfficial opcode with
    | none => .error (.invalidOpcode opcode)
    | some r => r.form.takeOperand rest

/-- The bytes of an instruction, in increasing address order (R91, R92, R94). -/
def encode : Instr → List Byte
  | .ldaImm imm8 => [0xA9, imm8]
  | .ldaZp zp8 => [0xA5, zp8]
  | .ldaZpX zp8 => [0xB5, zp8]
  | .ldaAbs addr => [0xAD, lowByte addr, highByte addr]
  | .ldaAbsX base => [0xBD, lowByte base, highByte base]
  | .ldaAbsY base => [0xB9, lowByte base, highByte base]
  | .ldaIndX zp8 => [0xA1, zp8]
  | .ldaIndY zp8 => [0xB1, zp8]
  | .ldxImm imm8 => [0xA2, imm8]
  | .ldxZp zp8 => [0xA6, zp8]
  | .ldxZpY zp8 => [0xB6, zp8]
  | .ldxAbs addr => [0xAE, lowByte addr, highByte addr]
  | .ldxAbsY base => [0xBE, lowByte base, highByte base]
  | .ldyImm imm8 => [0xA0, imm8]
  | .ldyZp zp8 => [0xA4, zp8]
  | .ldyZpX zp8 => [0xB4, zp8]
  | .ldyAbs addr => [0xAC, lowByte addr, highByte addr]
  | .ldyAbsX base => [0xBC, lowByte base, highByte base]
  | .adcImm imm8 => [0x69, imm8]
  | .adcZp zp8 => [0x65, zp8]
  | .adcZpX zp8 => [0x75, zp8]
  | .adcAbs addr => [0x6D, lowByte addr, highByte addr]
  | .adcAbsX base => [0x7D, lowByte base, highByte base]
  | .adcAbsY base => [0x79, lowByte base, highByte base]
  | .adcIndX zp8 => [0x61, zp8]
  | .adcIndY zp8 => [0x71, zp8]
  | .sbcImm imm8 => [0xE9, imm8]
  | .sbcZp zp8 => [0xE5, zp8]
  | .sbcZpX zp8 => [0xF5, zp8]
  | .sbcAbs addr => [0xED, lowByte addr, highByte addr]
  | .sbcAbsX base => [0xFD, lowByte base, highByte base]
  | .sbcAbsY base => [0xF9, lowByte base, highByte base]
  | .sbcIndX zp8 => [0xE1, zp8]
  | .sbcIndY zp8 => [0xF1, zp8]
  | .andImm imm8 => [0x29, imm8]
  | .andZp zp8 => [0x25, zp8]
  | .andZpX zp8 => [0x35, zp8]
  | .andAbs addr => [0x2D, lowByte addr, highByte addr]
  | .andAbsX base => [0x3D, lowByte base, highByte base]
  | .andAbsY base => [0x39, lowByte base, highByte base]
  | .andIndX zp8 => [0x21, zp8]
  | .andIndY zp8 => [0x31, zp8]
  | .eorImm imm8 => [0x49, imm8]
  | .eorZp zp8 => [0x45, zp8]
  | .eorZpX zp8 => [0x55, zp8]
  | .eorAbs addr => [0x4D, lowByte addr, highByte addr]
  | .eorAbsX base => [0x5D, lowByte base, highByte base]
  | .eorAbsY base => [0x59, lowByte base, highByte base]
  | .eorIndX zp8 => [0x41, zp8]
  | .eorIndY zp8 => [0x51, zp8]
  | .oraImm imm8 => [0x09, imm8]
  | .oraZp zp8 => [0x05, zp8]
  | .oraZpX zp8 => [0x15, zp8]
  | .oraAbs addr => [0x0D, lowByte addr, highByte addr]
  | .oraAbsX base => [0x1D, lowByte base, highByte base]
  | .oraAbsY base => [0x19, lowByte base, highByte base]
  | .oraIndX zp8 => [0x01, zp8]
  | .oraIndY zp8 => [0x11, zp8]
  | .aslAcc => [0x0A]
  | .aslZp zp8 => [0x06, zp8]
  | .aslZpX zp8 => [0x16, zp8]
  | .aslAbs addr => [0x0E, lowByte addr, highByte addr]
  | .aslAbsX base => [0x1E, lowByte base, highByte base]
  | .lsrAcc => [0x4A]
  | .lsrZp zp8 => [0x46, zp8]
  | .lsrZpX zp8 => [0x56, zp8]
  | .lsrAbs addr => [0x4E, lowByte addr, highByte addr]
  | .lsrAbsX base => [0x5E, lowByte base, highByte base]
  | .rolAcc => [0x2A]
  | .rolZp zp8 => [0x26, zp8]
  | .rolZpX zp8 => [0x36, zp8]
  | .rolAbs addr => [0x2E, lowByte addr, highByte addr]
  | .rolAbsX base => [0x3E, lowByte base, highByte base]
  | .rorAcc => [0x6A]
  | .rorZp zp8 => [0x66, zp8]
  | .rorZpX zp8 => [0x76, zp8]
  | .rorAbs addr => [0x6E, lowByte addr, highByte addr]
  | .rorAbsX base => [0x7E, lowByte base, highByte base]
  | .cmpImm imm8 => [0xC9, imm8]
  | .cmpZp zp8 => [0xC5, zp8]
  | .cmpZpX zp8 => [0xD5, zp8]
  | .cmpAbs addr => [0xCD, lowByte addr, highByte addr]
  | .cmpAbsX base => [0xDD, lowByte base, highByte base]
  | .cmpAbsY base => [0xD9, lowByte base, highByte base]
  | .cmpIndX zp8 => [0xC1, zp8]
  | .cmpIndY zp8 => [0xD1, zp8]
  | .cpxImm imm8 => [0xE0, imm8]
  | .cpxZp zp8 => [0xE4, zp8]
  | .cpxAbs addr => [0xEC, lowByte addr, highByte addr]
  | .cpyImm imm8 => [0xC0, imm8]
  | .cpyZp zp8 => [0xC4, zp8]
  | .cpyAbs addr => [0xCC, lowByte addr, highByte addr]
  | .incZp zp8 => [0xE6, zp8]
  | .incZpX zp8 => [0xF6, zp8]
  | .incAbs addr => [0xEE, lowByte addr, highByte addr]
  | .incAbsX base => [0xFE, lowByte base, highByte base]
  | .decZp zp8 => [0xC6, zp8]
  | .decZpX zp8 => [0xD6, zp8]
  | .decAbs addr => [0xCE, lowByte addr, highByte addr]
  | .decAbsX base => [0xDE, lowByte base, highByte base]
  | .inx => [0xE8]
  | .iny => [0xC8]
  | .dex => [0xCA]
  | .dey => [0x88]
  | .bcc disp8 => [0x90, disp8]
  | .bcs disp8 => [0xB0, disp8]
  | .beq disp8 => [0xF0, disp8]
  | .bmi disp8 => [0x30, disp8]
  | .bne disp8 => [0xD0, disp8]
  | .bpl disp8 => [0x10, disp8]
  | .bvc disp8 => [0x50, disp8]
  | .bvs disp8 => [0x70, disp8]
  | .bitZp zp8 => [0x24, zp8]
  | .bitAbs addr => [0x2C, lowByte addr, highByte addr]
  | .clc => [0x18]
  | .cld => [0xD8]
  | .cli => [0x58]
  | .clv => [0xB8]
  | .jmpAbs addr => [0x4C, lowByte addr, highByte addr]
  | .jmpInd ptr => [0x6C, lowByte ptr, highByte ptr]
  | .brk => [0x00]
  | .pha => [0x48]
  | .php => [0x08]
  | .pla => [0x68]
  | .plp => [0x28]
  | .jsr addr => [0x20, lowByte addr, highByte addr]
  | .rts => [0x60]
  | .rti => [0x40]
  | .staZp zp8 => [0x85, zp8]
  | .staZpX zp8 => [0x95, zp8]
  | .staAbs addr => [0x8D, lowByte addr, highByte addr]
  | .staAbsX base => [0x9D, lowByte base, highByte base]
  | .staAbsY base => [0x99, lowByte base, highByte base]
  | .staIndX zp8 => [0x81, zp8]
  | .staIndY zp8 => [0x91, zp8]
  | .stxZp zp8 => [0x86, zp8]
  | .stxZpY zp8 => [0x96, zp8]
  | .stxAbs addr => [0x8E, lowByte addr, highByte addr]
  | .styZp zp8 => [0x84, zp8]
  | .styZpX zp8 => [0x94, zp8]
  | .styAbs addr => [0x8C, lowByte addr, highByte addr]
  | .tax => [0xAA]
  | .tay => [0xA8]
  | .txa => [0x8A]
  | .tya => [0x98]
  | .tsx => [0xBA]
  | .txs => [0x9A]
  | .sec => [0x38]
  | .sed => [0xF8]
  | .sei => [0x78]
  | .nop => [0xEA]

/-- The longest instruction's bytes as the hardware stores them (R91), of a number whose bits above `nbits` are cleared:
the byte at the lowest address holds bits 7..0. -/
def tableBytes (nbits w : Nat) : List Byte :=
  let v := w % 2 ^ nbits
  [BitVec.ofNat 8 v, BitVec.ofNat 8 (v / 256), BitVec.ofNat 8 (v / 65536)]

/-- The instruction the decoder reads from a table row's word; every row of the table is read, the unlisted ones too
(log 2). -/
def decodeTableWord (nbits w : Nat) : Option Instr :=
  match decode true (tableBytes nbits w) with
  | .ok (i, _) => some i
  | .error _ => none

end Sys2Proof
end

