-- ==== Sys2Proof/Config.lean ====
section
/-! DEFINITION. What is fixed for the hardware (R7, R69) and the parameters an instance is created with (R8). -/

namespace Sys2Proof

/-- `ADDRESS_WRAP` (R8): what an address computation that leaves [0, 0x10000) does. -/
inductive AddressWrap where
  | fault
  | wrap
deriving DecidableEq, Repr

/-- `STACK_WRAP` (R8): whether SP passing the stack page's end is an error. -/
inductive StackWrap where
  | wrap
  | fault
deriving DecidableEq, Repr

/-- `BRK_HALT` (R8, R422): whether the run loop stops after a BRK. -/
inductive BrkHalt where
  | always
  | whenISet
  | never
deriving DecidableEq, Repr

/-- The run argument `on_invalid` (R8, R420): what the run loop does after an InvalidOpcode. -/
inductive OnInvalid where
  | halt
  | skip
deriving DecidableEq, Repr

/-- The configurable parameters of R8, fixed when an instance is created (R46, R131). -/
structure Params where
  /-- `JMP_INDIRECT_FIXED` (R147). -/
  jmpIndirectFixed : Bool
  /-- `ADDRESS_WRAP` (R13). -/
  addressWrap : AddressWrap
  /-- `STACK_WRAP` (R71, R72). -/
  stackWrap : StackWrap
  /-- `BRK_HALT` (R422). -/
  brkHalt : BrkHalt
  /-- `UNLISTED_OFFICIAL` (R6, R94). -/
  unlistedOfficial : Bool
deriving DecidableEq, Repr

/-- The defaults the spec adopts for the parameters (R8). -/
def Config.defaultParams : Params where
  jmpIndirectFixed := false
  addressWrap := .fault
  stackWrap := .wrap
  brkHalt := .always
  unlistedOfficial := false

/-- `MEM_SIZE` (R7, R60): the number of memory cells. -/
def Config.memSize : Nat := 65536

/-- `ROM_BASE` (R7, R442): where the host's ROM load begins. -/
def Config.romBase : Nat := 0x8000

/-- What a memory byte that nothing has written holds: memory is zero-initialised (R50). -/
def Config.blankByte : Byte := 0

/-- The bytes that the registers and memory hold after a fatal error: free values (R126, R407, U8; log 5). It may depend on
how many such states came before (log 24), and on the parameters, the registers and the memory the failing step began with;
the last argument counts the bytes. -/
opaque Config.unspecifiedByte : Nat → Params → Word → List Byte → List (Nat × Byte) → Nat → Byte

end Sys2Proof
end

