-- ==== Sys2Proof/Machine/State.lean ====
section
/-! DEFINITION. The machine's state as plain data (spec/10_state.md, 20_memory.md R60, 60_exceptions.md R420), the errors
of R405, and the state right after reset (R49, R441). -/

namespace Sys2Proof.Machine

/-- The errors of R405. Each ends the step that raises it; none is a trap (R414). After every one of them but
`invalidOpcode` and `romTooLarge` the registers and memory are unspecified (R126, R407): the fault outcome carries no state,
and the host finds free values there (`State.afterFatal`; safe, log 5). -/
inductive Fault where
  /-- InvalidOpcode (R400), code 1: raised by step when the opcode byte has no table entry and `onInvalid` is `halt`. It
  records the byte and the address it was fetched from. Safe: the exact state after it is given by `Fetched.invalid`, by the
  host's `State.hostStep` and by the run loop (log 6). -/
  | invalidOpcode (opcode : Byte) (address : Word)
  /-- MemoryOutOfBounds (R401), code 2: raised by `addr16` under ADDRESS_WRAP = fault and by a host access outside the
  address space (there under either ADDRESS_WRAP, log 25). It records the exact integer. Safe. -/
  | memoryOutOfBounds (address : Int)
  /-- RomTooLarge (R402), code 3: raised by the host's Load only, never by a step; the load changes nothing. Safe. -/
  | romTooLarge (offset length : Nat)
  /-- StackOverflow (R403), code 4: raised by a push at SP = 0x00 under STACK_WRAP = fault. Safe. -/
  | stackOverflow (sp : Byte)
  /-- StackUnderflow (R404), code 5: raised by a pull at SP = 0xFF under STACK_WRAP = fault. Safe. -/
  | stackUnderflow (sp : Byte)
deriving DecidableEq, Repr

/-- Why the model has no meaning for an instruction. Every row of the opcode table has one, so no step refuses. -/
inductive Refusal where
  /-- Raised by `exec` for an instruction whose meaning is not written; no arm of it does so. Safe. -/
  | notModelled (mnemonic : String)
deriving DecidableEq, Repr

/-- Why a run stopped (R420). -/
inductive StopReason where
  /-- `Halted(BRK)`: a BRK completed and BRKHalts holds (R422). -/
  | haltedBrk
  /-- `StepLimit`: the run's step limit was reached. -/
  | stepLimit
  /-- `Error(e)`: a step ended with an error. -/
  | error (e : Fault)
deriving DecidableEq, Repr

/-- Memory as the list of its cells that differ from the blank byte, addresses strictly rising (R60; form: log 4). -/
abbrev Memory := List Host.Cell

/-- The whole state: the register file (R30), memory (R48, R60), the parameters of the instance (R8) and the run loop's
bookkeeping (R47, R420). -/
structure State where
  /-- `PC` (R34): the address of the next byte to fetch. -/
  pc : Word
  /-- `SP` (R33): the low byte of the next free stack slot. -/
  sp : Byte
  /-- `A`, the accumulator (R31). -/
  a : Byte
  /-- `X`, an index register (R32). -/
  x : Byte
  /-- `Y`, an index register (R32). -/
  y : Byte
  /-- `P`, the status register (R35, R36): C, Z, I, D, B in bits 0 to 4, bit 5 always 0, V in bit 6, N in bit 7. -/
  p : Byte
  /-- `M`, the 64 KiB memory (R60). -/
  mem : Memory
  /-- The instance's parameters (R8); no instruction writes them (R46). -/
  params : Params
  /-- The argument `on_invalid` of the run in progress (R420); the host's Step does not read it. -/
  onInvalid : OnInvalid
  /-- `n`, the number of steps begun in the run (R420). -/
  steps : Nat
  /-- The stop reason the last step or run left for the host (R47, R420). -/
  stop : Option StopReason
  /-- The model's own: how many unspecified states (R407) the instance has been left in, so that each draws its own free
  values (log 24). -/
  draws : Nat
deriving DecidableEq, Repr

/-- The result type of a meaning: a next state, an error, or a refusal. -/
abbrev Out := Host.Outcome State Fault Refusal

/-- The machine right after reset (R49, R441): a fresh instance with the default parameters (R8), every register zero, all
memory zero (R50), no step begun and no stop reason (R441; log 6, log 7, log 24). -/
def State.reset : State where
  pc := 0x0000
  sp := 0x00
  a := 0x00
  x := 0x00
  y := 0x00
  p := 0x00
  mem := []
  params := Config.defaultParams
  onInvalid := .halt
  steps := 0
  stop := none
  draws := 0

end Sys2Proof.Machine
end

