-- ==== Sys2Proof/Machine/Flags.lean ====
section
/-! DEFINITION. The status flags (spec/10_state.md section 2) and the ALU (spec/42_alu.md): byte addition and subtraction,
shifts, increments, comparison, and the flag values they give. -/

namespace Sys2Proof.Machine

/-- The seven named flags of P (R35). -/
inductive Flag where
  | c
  | z
  | i
  | d
  | b
  | v
  | n
deriving DecidableEq, Repr

/-- The bit of P that holds a flag (R35; positions: log 9). -/
def Flag.bit : Flag → Nat
  | .c => 0
  | .z => 1
  | .i => 2
  | .d => 3
  | .b => 4
  | .v => 6
  | .n => 7

/-- A byte with one bit replaced. -/
def setBit (v : Byte) (i : Nat) (b : Bool) : Byte :=
  if b then v ||| BitVec.twoPow 8 i else v &&& ~~~(BitVec.twoPow 8 i)

/-- Reading a flag of P (R11). -/
def State.getFlag (s : State) (f : Flag) : Bool := s.p.getLsbD f.bit

/-- Writing one flag of P; no other bit changes (R11). -/
def State.setFlag (s : State) (f : Flag) (b : Bool) : State := { s with p := setBit s.p f.bit b }

/-- `SetZN(v)` (R40): Z and N are assigned, each cleared when its condition is false. -/
def State.setZN (s : State) (v : Byte) : State := (s.setFlag .z (v == 0)).setFlag .n v.msb

/-- Writing the whole of P: bit 5 is hardwired 0 (R36, R308, R443). -/
def State.writeP (s : State) (v : Byte) : State := { s with p := v &&& 0xDF }

/-- The status byte PHP and BRK push, `P | 0x30` (R74). -/
def pushedStatus (p : Byte) : Byte := p ||| 0x30

/-- What the adder gives: the byte, the carry out and the signed overflow (R170). -/
structure AddResult where
  result : Byte
  carry : Bool
  overflow : Bool
deriving DecidableEq, Repr

/-- `addByte` (R170, R171): the exact sum narrowed to a byte; binary whatever P.D holds (R175). -/
def addByte (a b : Byte) (carryIn : Bool) : AddResult :=
  let sum := a.toNat + b.toNat + carryIn.toNat
  let result := BitVec.ofNat 8 sum
  { result := result
    carry := decide (255 < sum)
    overflow := (a.msb == b.msb) && (result.msb != a.msb) }

/-- `subtractByte` (R172): the carry in is the inverted borrow, the carry out means no borrow occurred. -/
def subtractByte (minuend subtrahend : Byte) (carryIn : Bool) : AddResult :=
  addByte minuend (~~~subtrahend) carryIn

/-- One full adder of the reference algorithm (R174): the sum bit and the carry. -/
def fullAdder (a b c : Bool) : Bool × Bool := (a ^^ b ^^ c, (a && b) || (a && c) || (b && c))

/-- The carry into bit `i` of the reference algorithm (R174): the ripple through the bits below. -/
def rippleCarry (a b : Byte) (carryIn : Bool) : Nat → Bool
  | 0 => carryIn
  | i + 1 => (fullAdder (a.getLsbD i) (b.getLsbD i) (rippleCarry a b carryIn i)).2

/-- The reference algorithm of R174, a ripple of eight full adders. `addByte` is to equal it. -/
def rippleAdd (a b : Byte) (carryIn : Bool) : AddResult :=
  { result := BitVec.ofFnLE fun i : Fin 8 =>
      (fullAdder (a.getLsbD i) (b.getLsbD i) (rippleCarry a b carryIn i)).1
    carry := rippleCarry a b carryIn 8
    overflow := rippleCarry a b carryIn 7 != rippleCarry a b carryIn 8 }

/-- `inc8` (R177). -/
def inc8 (v : Byte) : Byte := v + 1

/-- `dec8` (R177). -/
def dec8 (v : Byte) : Byte := v - 1

/-- What a shift gives: the byte and the bit shifted out (R179). -/
structure ShiftResult where
  result : Byte
  carry : Bool
deriving DecidableEq, Repr

/-- ASL's `shl` (R179): bit 0 becomes 0. The carry in is not used. -/
def shiftLeft (v : Byte) (_carryIn : Bool) : ShiftResult := ⟨v <<< 1, v.getLsbD 7⟩

/-- LSR's `shr` (R179): bit 7 becomes 0. The carry in is not used. -/
def shiftRight (v : Byte) (_carryIn : Bool) : ShiftResult := ⟨v >>> 1, v.getLsbD 0⟩

/-- ROL's `rol` (R179): the carry in becomes bit 0 (log 15). -/
def rotateLeft (v : Byte) (carryIn : Bool) : ShiftResult := ⟨setBit (v <<< 1) 0 carryIn, v.getLsbD 7⟩

/-- ROR's `ror` (R179): the carry in becomes bit 7 (log 15). -/
def rotateRight (v : Byte) (carryIn : Bool) : ShiftResult := ⟨setBit (v >>> 1) 7 carryIn, v.getLsbD 0⟩

/-- The flags of a comparison (R180): C when `r ≥ m` unsigned, Z when equal, N from the difference; nothing else. -/
def State.setCompare (s : State) (r m : Byte) : State :=
  let d := subtractByte r m true
  ((s.setFlag .c d.carry).setFlag .z (r == m)).setFlag .n d.result.msb

/-- C and V of an addition or subtraction, and then Z and N of its result (R210, R211). -/
def State.setArith (s : State) (r : AddResult) : State :=
  (((s.setFlag .c r.carry).setFlag .v r.overflow)).setZN r.result

end Sys2Proof.Machine
end

