-- ==== Sys2Proof/Machine/Ops.lean ====
section
/-! DEFINITION. The named operations over memory, addresses and the stack (spec/20_memory.md, 00_scope.md R12 to R14), and
the trap: taking it (R411, R302) and returning from it (R412, R316). -/

namespace Sys2Proof.Machine

/-- The byte a memory holds at an address; an unlisted address holds the blank byte (R61; log 4). -/
def Memory.read : Memory → Nat → Byte
  | [], _ => Config.blankByte
  | (b, w) :: m, a => if b = a then w else Memory.read m a

/-- A cell put in front of the first cell with a higher address. -/
def Memory.insert : Memory → Nat → Byte → Memory
  | [], a, v => [(a, v)]
  | (b, w) :: m, a, v => if a < b then (a, v) :: (b, w) :: m else (b, w) :: Memory.insert m a v

/-- The memory with one byte stored (R62). Storing the blank byte leaves the address unlisted, so the canonical form is kept. -/
def Memory.write (m : Memory) (a : Nat) (v : Byte) : Memory :=
  let rest := List.filter (fun cell => cell.1 != a) m
  if v = Config.blankByte then rest else Memory.insert rest a v

/-- The canonical form above a lower bound: addresses strictly rising and inside the space, no blank cell listed. -/
def Memory.wfFrom : Nat → Memory → Bool
  | _, [] => true
  | low, (a, v) :: m => decide (low ≤ a) && decide (a < Config.memSize) && (v != Config.blankByte) && Memory.wfFrom (a + 1) m

/-- The canonical form of a memory: equal memories are equal lists. -/
def Memory.wf (m : Memory) : Bool := Memory.wfFrom 0 m

/-- The canonical memory that holds `f` at each of `n` addresses from `a` on, and blank bytes elsewhere. -/
def Memory.ofCells (f : Nat → Byte) : Nat → Nat → Memory
  | _, 0 => []
  | a, n + 1 => if f a = Config.blankByte then Memory.ofCells f (a + 1) n else (a, f a) :: Memory.ofCells f (a + 1) n

/-- `MemRead(addr, 1)` at an address of the space (R61). -/
def State.readByte (s : State) (a : Word) : Byte := Memory.read s.mem a.toNat

/-- `MemWrite(addr, 1, v)` at an address of the space (R62). -/
def State.writeByte (s : State) (a : Word) (v : Byte) : State := { s with mem := Memory.write s.mem a.toNat v }

/-- `PC <- w`, the PC sequencer's write (R14, R127). -/
def State.setPc (s : State) (w : Word) : State := { s with pc := w }

/-- `A <- v` (R11). -/
def State.setA (s : State) (v : Byte) : State := { s with a := v }

/-- `X <- v` (R11). -/
def State.setX (s : State) (v : Byte) : State := { s with x := v }

/-- `Y <- v` (R11). -/
def State.setY (s : State) (v : Byte) : State := { s with y := v }

/-- `SP <- v` (R11). -/
def State.setSp (s : State) (v : Byte) : State := { s with sp := v }

/-- A little-endian 16-bit read of two given bytes (R12, R65). -/
def State.readWord (s : State) (lo hi : Word) : Word := word (s.readByte lo) (s.readByte hi)

/-- `addr16(v)` (R13): an exact integer turned into an address. -/
def addr16 (prm : Params) (v : Int) : Except Fault Word :=
  if 0 ≤ v ∧ v.toNat < Config.memSize then .ok (BitVec.ofInt 16 v)
  else
    match prm.addressWrap with
    | .fault => .error (.memoryOutOfBounds v)
    | .wrap => .ok (BitVec.ofInt 16 v)

/-- `raise` (R14): the first error reached ends the instruction; otherwise it goes on with the value. -/
def orFault {α : Type} (r : Except Fault α) (k : α → Out) : Out :=
  match r with
  | .ok v => k v
  | .error e => .fault e

/-- The address of the stack slot SP names, `0x01:SP` (R70). -/
def stackSlot (sp : Byte) : Word := word sp 0x01

/-- `Push(v)` (R71): store at the slot, then decrement SP modulo 256. -/
def push (v : Byte) (s : State) : Except Fault State :=
  if s.params.stackWrap = .fault ∧ s.sp = 0x00 then .error (.stackOverflow s.sp)
  else .ok ((s.setSp (s.sp - 1)).writeByte (stackSlot s.sp) v)

/-- `Pull()` (R72): increment SP modulo 256, then read the slot. -/
def pull (s : State) : Except Fault (Byte × State) :=
  if s.params.stackWrap = .fault ∧ s.sp = 0xFF then .error (.stackUnderflow s.sp)
  else .ok (s.readByte (stackSlot (s.sp + 1)), s.setSp (s.sp + 1))

/-- `Push16(w)` (R73): high byte first. -/
def push16 (w : Word) (s : State) : Except Fault State :=
  match push (highByte w) s with
  | .ok s1 => push (lowByte w) s1
  | .error e => .error e

/-- `Pull16()` (R73): low byte first. -/
def pull16 (s : State) : Except Fault (Word × State) :=
  match pull s with
  | .error e => .error e
  | .ok (lo, s1) =>
    match pull s1 with
    | .error e => .error e
    | .ok (hi, s2) => .ok (word lo hi, s2)

/-- The address of the BRK vector's low byte (R69, R303). -/
def brkVectorLow : Word := 0xFFFE

/-- The address of the BRK vector's high byte (R69, R303). -/
def brkVectorHigh : Word := 0xFFFF

/-- `BRKHalts(iOld)` (R422). -/
def brkHalts (h : BrkHalt) (iOld : Bool) : Bool :=
  match h with
  | .always => true
  | .whenISet => iOld
  | .never => false

/-- The part of trap entry after the pushes (R302, R411): B and I set, PC from the vector, and the run loop's stop. -/
def enterHandler (iOld : Bool) (s : State) : State :=
  let stop := if brkHalts s.params.brkHalt iOld then some .haltedBrk else s.stop
  State.setFlag (State.setFlag { s with pc := s.readWord brkVectorLow brkVectorHigh, stop := stop } .b true) .i true

/-- Taking the trap (R302, R411), with PC = a + 1: push the return address a + 2, push the status, enter the handler. -/
def takeTrap (s : State) : Out :=
  orFault (addr16 s.params (s.pc.toNat + 1)) fun ret =>
  orFault (push16 ret s) fun s1 =>
  orFault (push (pushedStatus s1.p) s1) fun s2 =>
  .next (enterHandler (s.getFlag .i) s2)

/-- Returning from the trap (R316, R412): pull the status with bit 5 cleared, then the return address. -/
def returnFromTrap (s : State) : Out :=
  orFault (pull s) fun r =>
  orFault (pull16 (r.2.writeP r.1)) fun q =>
  .next (q.2.setPc q.1)

end Sys2Proof.Machine
end

