-- ==== Sys2Proof/Machine/Operands.lean ====
section
/-! DEFINITION. The addressing-mode resolver (spec/41_addressing.md) and the operands it yields (40_dispatch.md R128, R129).
The operand bytes are already in the instruction; PC has already moved past them (R122). No resolver writes P (R132, R153). -/

namespace Sys2Proof.Machine

/-- The address `0x00:z` in page 0 (R92, R142). -/
def zeroPage (z : Byte) : Word := word z 0x00

/-- The 16-bit pointer in page 0 at `z`; its high byte lies at `z + 1` modulo 256 (R148, R149; log 16). -/
def State.zeroPagePointer (s : State) (z : Byte) : Word := s.readWord (zeroPage z) (zeroPage (z + 1))

/-- The effective address of a memory mode, R142, R143, R145, R146, R148, R149. -/
def effectiveAddress (m : MemMode) (s : State) : Except Fault Word :=
  match m with
  | .zeroPage z => .ok (zeroPage z)
  | .zeroPageX z => .ok (zeroPage (z + s.x))
  | .zeroPageY z => .ok (zeroPage (z + s.y))
  | .absolute w => .ok w
  | .absoluteX w => addr16 s.params (w.toNat + s.x.toNat)
  | .absoluteY w => addr16 s.params (w.toNat + s.y.toNat)
  | .indirectX z => .ok (s.zeroPagePointer (z + s.x))
  | .indirectY z => addr16 s.params ((s.zeroPagePointer z).toNat + s.y.toNat)

/-- The address of the high byte of JMP's pointer (R147): the same page unless JMP_INDIRECT_FIXED. -/
def pointerHighAddress (ptr : Word) (s : State) : Except Fault Word :=
  if s.params.jmpIndirectFixed then addr16 s.params (ptr.toNat + 1)
  else .ok (word (lowByte ptr + 1) (highByte ptr))

/-- The target JMP's Indirect mode yields (R147). -/
def indirectTarget (ptr : Word) (s : State) : Except Fault Word :=
  match pointerHighAddress ptr s with
  | .ok hiAddr => .ok (s.readWord ptr hiAddr)
  | .error e => .error e

/-- What a read instruction reads (R129): the immediate byte, or a memory cell. -/
inductive Source where
  | imm (v : Byte)
  | mem (m : MemMode)
deriving DecidableEq, Repr

/-- What a write-back instruction works on (R129): the accumulator, or a memory cell. -/
inductive Target where
  | acc
  | mem (m : MemMode)
deriving DecidableEq, Repr

/-- A storage location (R128). -/
inductive Loc where
  | mem (ea : Word)
  | acc
deriving DecidableEq, Repr

/-- The operand value `op` of a read instruction (R15, R129, R141). -/
def sourceValue (src : Source) (s : State) : Except Fault Byte :=
  match src with
  | .imm v => .ok v
  | .mem m =>
    match effectiveAddress m s with
    | .ok ea => .ok (s.readByte ea)
    | .error e => .error e

/-- The storage location of a write-back instruction (R128, R144). -/
def resolveLoc (t : Target) (s : State) : Except Fault Loc :=
  match t with
  | .acc => .ok .acc
  | .mem m =>
    match effectiveAddress m s with
    | .ok ea => .ok (.mem ea)
    | .error e => .error e

/-- `ReadLoc` (R128). -/
def State.readLoc (s : State) : Loc → Byte
  | .mem ea => s.readByte ea
  | .acc => s.a

/-- `WriteLoc` (R128). -/
def State.writeLoc (s : State) (l : Loc) (v : Byte) : State :=
  match l with
  | .mem ea => s.writeByte ea v
  | .acc => s.setA v

/-- An instruction that reads its operand once and then changes the state (R130). -/
def withSource (src : Source) (s : State) (f : Byte → State) : Out :=
  orFault (sourceValue src s) fun v => .next (f v)

/-- An instruction that works on a storage location (R128): one read and one write of it (R81). -/
def withLoc (t : Target) (s : State) (f : Loc → State) : Out :=
  orFault (resolveLoc t s) fun l => .next (f l)

end Sys2Proof.Machine
end

