-- ==== Sys2Proof/Machine/ArithLogic.lean ====
section
/-! DEFINITION. Arithmetic and logic instructions (spec/44_arith_logic.md). A meaning runs after the fetch,
with PC already past the instruction (R122). -/

namespace Sys2Proof.Machine

/-- ADC (R210): A, C, V, Z, N from the adder with carry in P.C. -/
def opAdc (src : Source) (s : State) : Out :=
  withSource src s fun v =>
    let r := addByte s.a v (s.getFlag .c)
    (s.setA r.result).setArith r

/-- SBC (R211): A, C (1 when no borrow occurred), V, Z, N. -/
def opSbc (src : Source) (s : State) : Out :=
  withSource src s fun v =>
    let r := subtractByte s.a v (s.getFlag .c)
    (s.setA r.result).setArith r

/-- AND (R212). -/
def opAnd (src : Source) (s : State) : Out := withSource src s fun v => (s.setA (s.a &&& v)).setZN (s.a &&& v)

/-- EOR (R213). -/
def opEor (src : Source) (s : State) : Out := withSource src s fun v => (s.setA (s.a ^^^ v)).setZN (s.a ^^^ v)

/-- ORA (R214). -/
def opOra (src : Source) (s : State) : Out := withSource src s fun v => (s.setA (s.a ||| v)).setZN (s.a ||| v)

/-- ADC immediate (R210, R141). -/
def execAdcImm (imm8 : Byte) (s : State) : Out := opAdc (.imm imm8) s

/-- ADC zero page (R210, R142). -/
def execAdcZp (zp8 : Byte) (s : State) : Out := opAdc (.mem (.zeroPage zp8)) s

/-- ADC zero page, X (R210, R143). -/
def execAdcZpX (zp8 : Byte) (s : State) : Out := opAdc (.mem (.zeroPageX zp8)) s

/-- ADC absolute (R210, R145). -/
def execAdcAbs (addr : Word) (s : State) : Out := opAdc (.mem (.absolute addr)) s

/-- ADC absolute, X (R210, R146). -/
def execAdcAbsX (base : Word) (s : State) : Out := opAdc (.mem (.absoluteX base)) s

/-- ADC absolute, Y (R210, R146). -/
def execAdcAbsY (base : Word) (s : State) : Out := opAdc (.mem (.absoluteY base)) s

/-- ADC (zero page, X) (R210, R148). -/
def execAdcIndX (zp8 : Byte) (s : State) : Out := opAdc (.mem (.indirectX zp8)) s

/-- ADC (zero page), Y (R210, R149). -/
def execAdcIndY (zp8 : Byte) (s : State) : Out := opAdc (.mem (.indirectY zp8)) s

/-- SBC immediate (R211, R141). -/
def execSbcImm (imm8 : Byte) (s : State) : Out := opSbc (.imm imm8) s

/-- SBC zero page (R211, R142). -/
def execSbcZp (zp8 : Byte) (s : State) : Out := opSbc (.mem (.zeroPage zp8)) s

/-- SBC zero page, X (R211, R143). -/
def execSbcZpX (zp8 : Byte) (s : State) : Out := opSbc (.mem (.zeroPageX zp8)) s

/-- SBC absolute (R211, R145). -/
def execSbcAbs (addr : Word) (s : State) : Out := opSbc (.mem (.absolute addr)) s

/-- SBC absolute, X (R211, R146). -/
def execSbcAbsX (base : Word) (s : State) : Out := opSbc (.mem (.absoluteX base)) s

/-- SBC absolute, Y (R211, R146). -/
def execSbcAbsY (base : Word) (s : State) : Out := opSbc (.mem (.absoluteY base)) s

/-- SBC (zero page, X) (R211, R148). -/
def execSbcIndX (zp8 : Byte) (s : State) : Out := opSbc (.mem (.indirectX zp8)) s

/-- SBC (zero page), Y (R211, R149). -/
def execSbcIndY (zp8 : Byte) (s : State) : Out := opSbc (.mem (.indirectY zp8)) s

/-- AND immediate (R212, R141). -/
def execAndImm (imm8 : Byte) (s : State) : Out := opAnd (.imm imm8) s

/-- AND zero page (R212, R142). -/
def execAndZp (zp8 : Byte) (s : State) : Out := opAnd (.mem (.zeroPage zp8)) s

/-- AND zero page, X (R212, R143). -/
def execAndZpX (zp8 : Byte) (s : State) : Out := opAnd (.mem (.zeroPageX zp8)) s

/-- AND absolute (R212, R145). -/
def execAndAbs (addr : Word) (s : State) : Out := opAnd (.mem (.absolute addr)) s

/-- AND absolute, X (R212, R146). -/
def execAndAbsX (base : Word) (s : State) : Out := opAnd (.mem (.absoluteX base)) s

/-- AND absolute, Y (R212, R146). -/
def execAndAbsY (base : Word) (s : State) : Out := opAnd (.mem (.absoluteY base)) s

/-- AND (zero page, X) (R212, R148). -/
def execAndIndX (zp8 : Byte) (s : State) : Out := opAnd (.mem (.indirectX zp8)) s

/-- AND (zero page), Y (R212, R149). -/
def execAndIndY (zp8 : Byte) (s : State) : Out := opAnd (.mem (.indirectY zp8)) s

/-- EOR immediate (R213, R141). -/
def execEorImm (imm8 : Byte) (s : State) : Out := opEor (.imm imm8) s

/-- EOR zero page (R213, R142). -/
def execEorZp (zp8 : Byte) (s : State) : Out := opEor (.mem (.zeroPage zp8)) s

/-- EOR zero page, X (R213, R143). -/
def execEorZpX (zp8 : Byte) (s : State) : Out := opEor (.mem (.zeroPageX zp8)) s

/-- EOR absolute (R213, R145). -/
def execEorAbs (addr : Word) (s : State) : Out := opEor (.mem (.absolute addr)) s

/-- EOR absolute, X (R213, R146). -/
def execEorAbsX (base : Word) (s : State) : Out := opEor (.mem (.absoluteX base)) s

/-- EOR absolute, Y (R213, R146). -/
def execEorAbsY (base : Word) (s : State) : Out := opEor (.mem (.absoluteY base)) s

/-- EOR (zero page, X) (R213, R148). -/
def execEorIndX (zp8 : Byte) (s : State) : Out := opEor (.mem (.indirectX zp8)) s

/-- EOR (zero page), Y (R213, R149). -/
def execEorIndY (zp8 : Byte) (s : State) : Out := opEor (.mem (.indirectY zp8)) s

/-- ORA immediate (R214, R141). -/
def execOraImm (imm8 : Byte) (s : State) : Out := opOra (.imm imm8) s

/-- ORA zero page (R214, R142). -/
def execOraZp (zp8 : Byte) (s : State) : Out := opOra (.mem (.zeroPage zp8)) s

/-- ORA zero page, X (R214, R143). -/
def execOraZpX (zp8 : Byte) (s : State) : Out := opOra (.mem (.zeroPageX zp8)) s

/-- ORA absolute (R214, R145). -/
def execOraAbs (addr : Word) (s : State) : Out := opOra (.mem (.absolute addr)) s

/-- ORA absolute, X (R214, R146). -/
def execOraAbsX (base : Word) (s : State) : Out := opOra (.mem (.absoluteX base)) s

/-- ORA absolute, Y (R214, R146). -/
def execOraAbsY (base : Word) (s : State) : Out := opOra (.mem (.absoluteY base)) s

/-- ORA (zero page, X) (R214, R148). -/
def execOraIndX (zp8 : Byte) (s : State) : Out := opOra (.mem (.indirectX zp8)) s

/-- ORA (zero page), Y (R214, R149). -/
def execOraIndY (zp8 : Byte) (s : State) : Out := opOra (.mem (.indirectY zp8)) s

end Sys2Proof.Machine
end

