-- ==== Sys2Proof/Machine/BranchBitFlags.lean ====
section
/-! DEFINITION. Branches, bit test and flag clears (spec/47_branch_bit_flags.md). A meaning runs after the fetch,
with PC already past the instruction (R122). -/

namespace Sys2Proof.Machine

/-- A branch (R270): when the condition holds, the signed displacement is added to PC, which is already past the branch. -/
def branchIf (cond : Bool) (disp8 : Byte) (s : State) : Out :=
  if cond then orFault (addr16 s.params (s.pc.toNat + disp8.toInt)) fun target => .next (s.setPc target)
  else .next s

/-- BIT (R280): Z from the AND with A, N and V from bits 7 and 6 of the operand itself. -/
def opBit (src : Source) (s : State) : Out :=
  withSource src s fun v =>
    ((s.setFlag .z (s.a &&& v == 0)).setFlag .n (v.getLsbD 7)).setFlag .v (v.getLsbD 6)

/-- BCC (R271): branch if C is clear. -/
def execBcc (disp8 : Byte) (s : State) : Out := branchIf (!s.getFlag .c) disp8 s

/-- BCS (R272): branch if C is set. -/
def execBcs (disp8 : Byte) (s : State) : Out := branchIf (s.getFlag .c) disp8 s

/-- BEQ (R273): branch if Z is set. -/
def execBeq (disp8 : Byte) (s : State) : Out := branchIf (s.getFlag .z) disp8 s

/-- BMI (R274): branch if N is set. -/
def execBmi (disp8 : Byte) (s : State) : Out := branchIf (s.getFlag .n) disp8 s

/-- BNE (R275): branch if Z is clear. -/
def execBne (disp8 : Byte) (s : State) : Out := branchIf (!s.getFlag .z) disp8 s

/-- BPL (R276): branch if N is clear. -/
def execBpl (disp8 : Byte) (s : State) : Out := branchIf (!s.getFlag .n) disp8 s

/-- BVC (R277): branch if V is clear. -/
def execBvc (disp8 : Byte) (s : State) : Out := branchIf (!s.getFlag .v) disp8 s

/-- BVS (R278): branch if V is set. -/
def execBvs (disp8 : Byte) (s : State) : Out := branchIf (s.getFlag .v) disp8 s

/-- BIT zero page (R280, R142). -/
def execBitZp (zp8 : Byte) (s : State) : Out := opBit (.mem (.zeroPage zp8)) s

/-- BIT absolute (R280, R145). -/
def execBitAbs (addr : Word) (s : State) : Out := opBit (.mem (.absolute addr)) s

/-- CLC (R281): clear carry. -/
def execClc (s : State) : Out := .next (s.setFlag .c false)

/-- CLD (R282): clear decimal. -/
def execCld (s : State) : Out := .next (s.setFlag .d false)

/-- CLI (R283): clear interrupt disable. -/
def execCli (s : State) : Out := .next (s.setFlag .i false)

/-- CLV (R284): clear overflow. -/
def execClv (s : State) : Out := .next (s.setFlag .v false)

end Sys2Proof.Machine
end

