-- ==== Sys2Proof/Machine/CompareIncDec.lean ====
section
/-! DEFINITION. Compare, increment and decrement (spec/46_compare_incdec.md). A meaning runs after the fetch,
with PC already past the instruction (R122). -/

namespace Sys2Proof.Machine

/-- CMP (R250): C, Z and N of A against the operand; A is unchanged. -/
def opCmp (src : Source) (s : State) : Out := withSource src s fun v => s.setCompare s.a v

/-- CPX (R251). -/
def opCpx (src : Source) (s : State) : Out := withSource src s fun v => s.setCompare s.x v

/-- CPY (R252). -/
def opCpy (src : Source) (s : State) : Out := withSource src s fun v => s.setCompare s.y v

/-- A write-back of one byte function, with Z and N of the result (R253, R254). -/
def modifyInPlace (f : Byte → Byte) (t : Target) (s : State) : Out :=
  withLoc t s fun l =>
    let r := f (s.readLoc l)
    (s.writeLoc l r).setZN r

/-- INC (R253). -/
def opInc (t : Target) (s : State) : Out := modifyInPlace inc8 t s

/-- DEC (R254). -/
def opDec (t : Target) (s : State) : Out := modifyInPlace dec8 t s

/-- CMP immediate (R250, R141). -/
def execCmpImm (imm8 : Byte) (s : State) : Out := opCmp (.imm imm8) s

/-- CMP zero page (R250, R142). -/
def execCmpZp (zp8 : Byte) (s : State) : Out := opCmp (.mem (.zeroPage zp8)) s

/-- CMP zero page, X (R250, R143). -/
def execCmpZpX (zp8 : Byte) (s : State) : Out := opCmp (.mem (.zeroPageX zp8)) s

/-- CMP absolute (R250, R145). -/
def execCmpAbs (addr : Word) (s : State) : Out := opCmp (.mem (.absolute addr)) s

/-- CMP absolute, X (R250, R146). -/
def execCmpAbsX (base : Word) (s : State) : Out := opCmp (.mem (.absoluteX base)) s

/-- CMP absolute, Y (R250, R146). -/
def execCmpAbsY (base : Word) (s : State) : Out := opCmp (.mem (.absoluteY base)) s

/-- CMP (zero page, X) (R250, R148). -/
def execCmpIndX (zp8 : Byte) (s : State) : Out := opCmp (.mem (.indirectX zp8)) s

/-- CMP (zero page), Y (R250, R149). -/
def execCmpIndY (zp8 : Byte) (s : State) : Out := opCmp (.mem (.indirectY zp8)) s

/-- CPX immediate (R251, R141). -/
def execCpxImm (imm8 : Byte) (s : State) : Out := opCpx (.imm imm8) s

/-- CPX zero page (R251, R142). -/
def execCpxZp (zp8 : Byte) (s : State) : Out := opCpx (.mem (.zeroPage zp8)) s

/-- CPX absolute (R251, R145). -/
def execCpxAbs (addr : Word) (s : State) : Out := opCpx (.mem (.absolute addr)) s

/-- CPY immediate (R252, R141). -/
def execCpyImm (imm8 : Byte) (s : State) : Out := opCpy (.imm imm8) s

/-- CPY zero page (R252, R142). -/
def execCpyZp (zp8 : Byte) (s : State) : Out := opCpy (.mem (.zeroPage zp8)) s

/-- CPY absolute (R252, R145). -/
def execCpyAbs (addr : Word) (s : State) : Out := opCpy (.mem (.absolute addr)) s

/-- INC zero page (R253, R142). -/
def execIncZp (zp8 : Byte) (s : State) : Out := opInc (.mem (.zeroPage zp8)) s

/-- INC zero page, X (R253, R143). -/
def execIncZpX (zp8 : Byte) (s : State) : Out := opInc (.mem (.zeroPageX zp8)) s

/-- INC absolute (R253, R145). -/
def execIncAbs (addr : Word) (s : State) : Out := opInc (.mem (.absolute addr)) s

/-- INC absolute, X (R253, R146). -/
def execIncAbsX (base : Word) (s : State) : Out := opInc (.mem (.absoluteX base)) s

/-- DEC zero page (R254, R142). -/
def execDecZp (zp8 : Byte) (s : State) : Out := opDec (.mem (.zeroPage zp8)) s

/-- DEC zero page, X (R254, R143). -/
def execDecZpX (zp8 : Byte) (s : State) : Out := opDec (.mem (.zeroPageX zp8)) s

/-- DEC absolute (R254, R145). -/
def execDecAbs (addr : Word) (s : State) : Out := opDec (.mem (.absolute addr)) s

/-- DEC absolute, X (R254, R146). -/
def execDecAbsX (base : Word) (s : State) : Out := opDec (.mem (.absoluteX base)) s

/-- INX (R255): increment X. -/
def execInx (s : State) : Out := .next ((s.setX (inc8 s.x)).setZN (inc8 s.x))

/-- INY (R256): increment Y. -/
def execIny (s : State) : Out := .next ((s.setY (inc8 s.y)).setZN (inc8 s.y))

/-- DEX (R257): decrement X. -/
def execDex (s : State) : Out := .next ((s.setX (dec8 s.x)).setZN (dec8 s.x))

/-- DEY (R258): decrement Y. -/
def execDey (s : State) : Out := .next ((s.setY (dec8 s.y)).setZN (dec8 s.y))

end Sys2Proof.Machine
end

