-- ==== Sys2Proof/Machine/ControlStack.lean ====
section
/-! DEFINITION. Jump, BRK, stack, subroutine and interrupt return (spec/48_control_stack.md). A meaning runs after the fetch,
with PC already past the instruction (R122). -/

namespace Sys2Proof.Machine

/-- Continuing after a push of one byte (R305, R306). -/
def pushOne (v : Byte) (s : State) : Out := orFault (push v s) fun t => .next t

/-- JMP absolute (R300, R145): the operand is the target; it is not read. -/
def execJmpAbs (addr : Word) (s : State) : Out := .next (s.setPc addr)

/-- JMP indirect (R300, R147). -/
def execJmpInd (ptr : Word) (s : State) : Out :=
  orFault (indirectTarget ptr s) fun target => .next (s.setPc target)

/-- BRK (R302): the trap, PC being a + 1 on entry. -/
def execBrk (s : State) : Out := takeTrap s

/-- PHA (R305): push A. -/
def execPha (s : State) : Out := pushOne s.a s

/-- PHP (R306): push the status with bits 4 and 5 set (R74). -/
def execPhp (s : State) : Out := pushOne (pushedStatus s.p) s

/-- PLA (R307): pull A, with Z and N. -/
def execPla (s : State) : Out := orFault (pull s) fun r => .next ((r.2.setA r.1).setZN r.1)

/-- PLP (R308): pull the status, bit 5 cleared. -/
def execPlp (s : State) : Out := orFault (pull s) fun r => .next (r.2.writeP r.1)

/-- JSR (R310): push the address of its own last byte, then go to the operand. -/
def execJsr (addr : Word) (s : State) : Out :=
  orFault (addr16 s.params ((s.pc.toNat : Int) - 1)) fun ret =>
  orFault (push16 ret s) fun t =>
  .next (t.setPc addr)

/-- RTS (R311): pull the return address and add one. -/
def execRts (s : State) : Out :=
  orFault (pull16 s) fun r =>
  orFault (addr16 s.params (r.1.toNat + 1)) fun target =>
  .next (r.2.setPc target)

/-- RTI (R316): return from the trap. -/
def execRti (s : State) : Out := returnFromTrap s

end Sys2Proof.Machine
end

