-- ==== Sys2Proof/Machine/Load.lean ====
section
/-! DEFINITION. Load instructions (spec/43_load.md). A meaning runs after the fetch,
with PC already past the instruction (R122). -/

namespace Sys2Proof.Machine

/-- LDA (R200): the accumulator and then Z and N. -/
def opLda (src : Source) (s : State) : Out := withSource src s fun v => (s.setA v).setZN v

/-- LDX (R201). -/
def opLdx (src : Source) (s : State) : Out := withSource src s fun v => (s.setX v).setZN v

/-- LDY (R202). -/
def opLdy (src : Source) (s : State) : Out := withSource src s fun v => (s.setY v).setZN v

/-- LDA immediate (R200, R141). -/
def execLdaImm (imm8 : Byte) (s : State) : Out := opLda (.imm imm8) s

/-- LDA zero page (R200, R142). -/
def execLdaZp (zp8 : Byte) (s : State) : Out := opLda (.mem (.zeroPage zp8)) s

/-- LDA zero page, X (R200, R143). -/
def execLdaZpX (zp8 : Byte) (s : State) : Out := opLda (.mem (.zeroPageX zp8)) s

/-- LDA absolute (R200, R145). -/
def execLdaAbs (addr : Word) (s : State) : Out := opLda (.mem (.absolute addr)) s

/-- LDA absolute, X (R200, R146). -/
def execLdaAbsX (base : Word) (s : State) : Out := opLda (.mem (.absoluteX base)) s

/-- LDA absolute, Y (R200, R146). -/
def execLdaAbsY (base : Word) (s : State) : Out := opLda (.mem (.absoluteY base)) s

/-- LDA (zero page, X) (R200, R148). -/
def execLdaIndX (zp8 : Byte) (s : State) : Out := opLda (.mem (.indirectX zp8)) s

/-- LDA (zero page), Y (R200, R149). -/
def execLdaIndY (zp8 : Byte) (s : State) : Out := opLda (.mem (.indirectY zp8)) s

/-- LDX immediate (R201, R141). -/
def execLdxImm (imm8 : Byte) (s : State) : Out := opLdx (.imm imm8) s

/-- LDX zero page (R201, R142). -/
def execLdxZp (zp8 : Byte) (s : State) : Out := opLdx (.mem (.zeroPage zp8)) s

/-- LDX zero page, Y (R201, R143). -/
def execLdxZpY (zp8 : Byte) (s : State) : Out := opLdx (.mem (.zeroPageY zp8)) s

/-- LDX absolute (R201, R145). -/
def execLdxAbs (addr : Word) (s : State) : Out := opLdx (.mem (.absolute addr)) s

/-- LDX absolute, Y (R201, R146). -/
def execLdxAbsY (base : Word) (s : State) : Out := opLdx (.mem (.absoluteY base)) s

/-- LDY immediate (R202, R141). -/
def execLdyImm (imm8 : Byte) (s : State) : Out := opLdy (.imm imm8) s

/-- LDY zero page (R202, R142). -/
def execLdyZp (zp8 : Byte) (s : State) : Out := opLdy (.mem (.zeroPage zp8)) s

/-- LDY zero page, X (R202, R143). -/
def execLdyZpX (zp8 : Byte) (s : State) : Out := opLdy (.mem (.zeroPageX zp8)) s

/-- LDY absolute (R202, R145). -/
def execLdyAbs (addr : Word) (s : State) : Out := opLdy (.mem (.absolute addr)) s

/-- LDY absolute, X (R202, R146). -/
def execLdyAbsX (base : Word) (s : State) : Out := opLdy (.mem (.absoluteX base)) s

end Sys2Proof.Machine
end

