-- ==== Sys2Proof/Machine/Shift.lean ====
section
/-! DEFINITION. Shift and rotate instructions (spec/45_shift.md). A meaning runs after the fetch,
with PC already past the instruction (R122). -/

namespace Sys2Proof.Machine

/-- A shift or rotate in place (R230 to R233): one read of the location, C from the bit shifted out, one write, Z and N. -/
def shiftInPlace (f : Byte → Bool → ShiftResult) (t : Target) (s : State) : Out :=
  withLoc t s fun l =>
    let r := f (s.readLoc l) (s.getFlag .c)
    ((s.setFlag .c r.carry).writeLoc l r.result).setZN r.result

/-- ASL (R230). -/
def opAsl (t : Target) (s : State) : Out := shiftInPlace shiftLeft t s

/-- LSR (R231). -/
def opLsr (t : Target) (s : State) : Out := shiftInPlace shiftRight t s

/-- ROL (R232): the old carry enters bit 0. -/
def opRol (t : Target) (s : State) : Out := shiftInPlace rotateLeft t s

/-- ROR (R233): the old carry enters bit 7. -/
def opRor (t : Target) (s : State) : Out := shiftInPlace rotateRight t s

/-- ASL accumulator (R230, R144). -/
def execAslAcc (s : State) : Out := opAsl .acc s

/-- ASL zero page (R230, R142). -/
def execAslZp (zp8 : Byte) (s : State) : Out := opAsl (.mem (.zeroPage zp8)) s

/-- ASL zero page, X (R230, R143). -/
def execAslZpX (zp8 : Byte) (s : State) : Out := opAsl (.mem (.zeroPageX zp8)) s

/-- ASL absolute (R230, R145). -/
def execAslAbs (addr : Word) (s : State) : Out := opAsl (.mem (.absolute addr)) s

/-- ASL absolute, X (R230, R146). -/
def execAslAbsX (base : Word) (s : State) : Out := opAsl (.mem (.absoluteX base)) s

/-- LSR accumulator (R231, R144). -/
def execLsrAcc (s : State) : Out := opLsr .acc s

/-- LSR zero page (R231, R142). -/
def execLsrZp (zp8 : Byte) (s : State) : Out := opLsr (.mem (.zeroPage zp8)) s

/-- LSR zero page, X (R231, R143). -/
def execLsrZpX (zp8 : Byte) (s : State) : Out := opLsr (.mem (.zeroPageX zp8)) s

/-- LSR absolute (R231, R145). -/
def execLsrAbs (addr : Word) (s : State) : Out := opLsr (.mem (.absolute addr)) s

/-- LSR absolute, X (R231, R146). -/
def execLsrAbsX (base : Word) (s : State) : Out := opLsr (.mem (.absoluteX base)) s

/-- ROL accumulator (R232, R144). -/
def execRolAcc (s : State) : Out := opRol .acc s

/-- ROL zero page (R232, R142). -/
def execRolZp (zp8 : Byte) (s : State) : Out := opRol (.mem (.zeroPage zp8)) s

/-- ROL zero page, X (R232, R143). -/
def execRolZpX (zp8 : Byte) (s : State) : Out := opRol (.mem (.zeroPageX zp8)) s

/-- ROL absolute (R232, R145). -/
def execRolAbs (addr : Word) (s : State) : Out := opRol (.mem (.absolute addr)) s

/-- ROL absolute, X (R232, R146). -/
def execRolAbsX (base : Word) (s : State) : Out := opRol (.mem (.absoluteX base)) s

/-- ROR accumulator (R233, R144). -/
def execRorAcc (s : State) : Out := opRor .acc s

/-- ROR zero page (R233, R142). -/
def execRorZp (zp8 : Byte) (s : State) : Out := opRor (.mem (.zeroPage zp8)) s

/-- ROR zero page, X (R233, R143). -/
def execRorZpX (zp8 : Byte) (s : State) : Out := opRor (.mem (.zeroPageX zp8)) s

/-- ROR absolute (R233, R145). -/
def execRorAbs (addr : Word) (s : State) : Out := opRor (.mem (.absolute addr)) s

/-- ROR absolute, X (R233, R146). -/
def execRorAbsX (base : Word) (s : State) : Out := opRor (.mem (.absoluteX base)) s

end Sys2Proof.Machine
end

