-- ==== Sys2Proof/Machine/Unlisted.lean ====
section
/-! DEFINITION. The unlisted official instructions, decoded when UNLISTED_OFFICIAL is true (R6) (spec/49_unlisted.md). A meaning runs after the fetch,
with PC already past the instruction (R122). -/

namespace Sys2Proof.Machine

/-- A store (R330 to R332): one write of the location and no read of it (R130). -/
def storeAt (m : MemMode) (v : Byte) (s : State) : Out :=
  orFault (effectiveAddress m s) fun ea => .next (s.writeByte ea v)

/-- STA zero page (R330, R142). -/
def execStaZp (zp8 : Byte) (s : State) : Out := storeAt (.zeroPage zp8) s.a s

/-- STA zero page, X (R330, R143). -/
def execStaZpX (zp8 : Byte) (s : State) : Out := storeAt (.zeroPageX zp8) s.a s

/-- STA absolute (R330, R145). -/
def execStaAbs (addr : Word) (s : State) : Out := storeAt (.absolute addr) s.a s

/-- STA absolute, X (R330, R146). -/
def execStaAbsX (base : Word) (s : State) : Out := storeAt (.absoluteX base) s.a s

/-- STA absolute, Y (R330, R146). -/
def execStaAbsY (base : Word) (s : State) : Out := storeAt (.absoluteY base) s.a s

/-- STA (zero page, X) (R330, R148). -/
def execStaIndX (zp8 : Byte) (s : State) : Out := storeAt (.indirectX zp8) s.a s

/-- STA (zero page), Y (R330, R149). -/
def execStaIndY (zp8 : Byte) (s : State) : Out := storeAt (.indirectY zp8) s.a s

/-- STX zero page (R331, R142). -/
def execStxZp (zp8 : Byte) (s : State) : Out := storeAt (.zeroPage zp8) s.x s

/-- STX zero page, Y (R331, R143). -/
def execStxZpY (zp8 : Byte) (s : State) : Out := storeAt (.zeroPageY zp8) s.x s

/-- STX absolute (R331, R145). -/
def execStxAbs (addr : Word) (s : State) : Out := storeAt (.absolute addr) s.x s

/-- STY zero page (R332, R142). -/
def execStyZp (zp8 : Byte) (s : State) : Out := storeAt (.zeroPage zp8) s.y s

/-- STY zero page, X (R332, R143). -/
def execStyZpX (zp8 : Byte) (s : State) : Out := storeAt (.zeroPageX zp8) s.y s

/-- STY absolute (R332, R145). -/
def execStyAbs (addr : Word) (s : State) : Out := storeAt (.absolute addr) s.y s

/-- TAX (R333): A to X. -/
def execTax (s : State) : Out := .next ((s.setX s.a).setZN s.a)

/-- TAY (R334): A to Y. -/
def execTay (s : State) : Out := .next ((s.setY s.a).setZN s.a)

/-- TXA (R335): X to A. -/
def execTxa (s : State) : Out := .next ((s.setA s.x).setZN s.x)

/-- TYA (R336): Y to A. -/
def execTya (s : State) : Out := .next ((s.setA s.y).setZN s.y)

/-- TSX (R337): SP to X. -/
def execTsx (s : State) : Out := .next ((s.setX s.sp).setZN s.sp)

/-- TXS (R338): X to SP, no flag. -/
def execTxs (s : State) : Out := .next (s.setSp s.x)

/-- SEC (R339): set carry. -/
def execSec (s : State) : Out := .next (s.setFlag .c true)

/-- SED (R340): set decimal. -/
def execSed (s : State) : Out := .next (s.setFlag .d true)

/-- SEI (R341): set interrupt disable. -/
def execSei (s : State) : Out := .next (s.setFlag .i true)

/-- NOP (R342): only the PC advance of the fetch. -/
def execNop (s : State) : Out := .next s

end Sys2Proof.Machine
end

