-- ==== Sys2Proof/Machine/Dispatch.lean ====
section
/-! DEFINITION. The dispatch of a decoded instruction to its meaning (spec/40_dispatch.md R124). PC is already past the
instruction when exec is called (R122). -/

namespace Sys2Proof.Machine

def exec (i : Instr) (s : State) : Host.Outcome State Fault Refusal :=
  match i with
  -- Load instructions
  | .ldaImm imm8 => Sys2Proof.Machine.execLdaImm imm8 s
  | .ldaZp zp8 => Sys2Proof.Machine.execLdaZp zp8 s
  | .ldaZpX zp8 => Sys2Proof.Machine.execLdaZpX zp8 s
  | .ldaAbs addr => Sys2Proof.Machine.execLdaAbs addr s
  | .ldaAbsX base => Sys2Proof.Machine.execLdaAbsX base s
  | .ldaAbsY base => Sys2Proof.Machine.execLdaAbsY base s
  | .ldaIndX zp8 => Sys2Proof.Machine.execLdaIndX zp8 s
  | .ldaIndY zp8 => Sys2Proof.Machine.execLdaIndY zp8 s
  | .ldxImm imm8 => Sys2Proof.Machine.execLdxImm imm8 s
  | .ldxZp zp8 => Sys2Proof.Machine.execLdxZp zp8 s
  | .ldxZpY zp8 => Sys2Proof.Machine.execLdxZpY zp8 s
  | .ldxAbs addr => Sys2Proof.Machine.execLdxAbs addr s
  | .ldxAbsY base => Sys2Proof.Machine.execLdxAbsY base s
  | .ldyImm imm8 => Sys2Proof.Machine.execLdyImm imm8 s
  | .ldyZp zp8 => Sys2Proof.Machine.execLdyZp zp8 s
  | .ldyZpX zp8 => Sys2Proof.Machine.execLdyZpX zp8 s
  | .ldyAbs addr => Sys2Proof.Machine.execLdyAbs addr s
  | .ldyAbsX base => Sys2Proof.Machine.execLdyAbsX base s
  -- Arithmetic and logic instructions
  | .adcImm imm8 => Sys2Proof.Machine.execAdcImm imm8 s
  | .adcZp zp8 => Sys2Proof.Machine.execAdcZp zp8 s
  | .adcZpX zp8 => Sys2Proof.Machine.execAdcZpX zp8 s
  | .adcAbs addr => Sys2Proof.Machine.execAdcAbs addr s
  | .adcAbsX base => Sys2Proof.Machine.execAdcAbsX base s
  | .adcAbsY base => Sys2Proof.Machine.execAdcAbsY base s
  | .adcIndX zp8 => Sys2Proof.Machine.execAdcIndX zp8 s
  | .adcIndY zp8 => Sys2Proof.Machine.execAdcIndY zp8 s
  | .sbcImm imm8 => Sys2Proof.Machine.execSbcImm imm8 s
  | .sbcZp zp8 => Sys2Proof.Machine.execSbcZp zp8 s
  | .sbcZpX zp8 => Sys2Proof.Machine.execSbcZpX zp8 s
  | .sbcAbs addr => Sys2Proof.Machine.execSbcAbs addr s
  | .sbcAbsX base => Sys2Proof.Machine.execSbcAbsX base s
  | .sbcAbsY base => Sys2Proof.Machine.execSbcAbsY base s
  | .sbcIndX zp8 => Sys2Proof.Machine.execSbcIndX zp8 s
  | .sbcIndY zp8 => Sys2Proof.Machine.execSbcIndY zp8 s
  | .andImm imm8 => Sys2Proof.Machine.execAndImm imm8 s
  | .andZp zp8 => Sys2Proof.Machine.execAndZp zp8 s
  | .andZpX zp8 => Sys2Proof.Machine.execAndZpX zp8 s
  | .andAbs addr => Sys2Proof.Machine.execAndAbs addr s
  | .andAbsX base => Sys2Proof.Machine.execAndAbsX base s
  | .andAbsY base => Sys2Proof.Machine.execAndAbsY base s
  | .andIndX zp8 => Sys2Proof.Machine.execAndIndX zp8 s
  | .andIndY zp8 => Sys2Proof.Machine.execAndIndY zp8 s
  | .eorImm imm8 => Sys2Proof.Machine.execEorImm imm8 s
  | .eorZp zp8 => Sys2Proof.Machine.execEorZp zp8 s
  | .eorZpX zp8 => Sys2Proof.Machine.execEorZpX zp8 s
  | .eorAbs addr => Sys2Proof.Machine.execEorAbs addr s
  | .eorAbsX base => Sys2Proof.Machine.execEorAbsX base s
  | .eorAbsY base => Sys2Proof.Machine.execEorAbsY base s
  | .eorIndX zp8 => Sys2Proof.Machine.execEorIndX zp8 s
  | .eorIndY zp8 => Sys2Proof.Machine.execEorIndY zp8 s
  | .oraImm imm8 => Sys2Proof.Machine.execOraImm imm8 s
  | .oraZp zp8 => Sys2Proof.Machine.execOraZp zp8 s
  | .oraZpX zp8 => Sys2Proof.Machine.execOraZpX zp8 s
  | .oraAbs addr => Sys2Proof.Machine.execOraAbs addr s
  | .oraAbsX base => Sys2Proof.Machine.execOraAbsX base s
  | .oraAbsY base => Sys2Proof.Machine.execOraAbsY base s
  | .oraIndX zp8 => Sys2Proof.Machine.execOraIndX zp8 s
  | .oraIndY zp8 => Sys2Proof.Machine.execOraIndY zp8 s
  -- Shift and rotate instructions
  | .aslAcc => Sys2Proof.Machine.execAslAcc s
  | .aslZp zp8 => Sys2Proof.Machine.execAslZp zp8 s
  | .aslZpX zp8 => Sys2Proof.Machine.execAslZpX zp8 s
  | .aslAbs addr => Sys2Proof.Machine.execAslAbs addr s
  | .aslAbsX base => Sys2Proof.Machine.execAslAbsX base s
  | .lsrAcc => Sys2Proof.Machine.execLsrAcc s
  | .lsrZp zp8 => Sys2Proof.Machine.execLsrZp zp8 s
  | .lsrZpX zp8 => Sys2Proof.Machine.execLsrZpX zp8 s
  | .lsrAbs addr => Sys2Proof.Machine.execLsrAbs addr s
  | .lsrAbsX base => Sys2Proof.Machine.execLsrAbsX base s
  | .rolAcc => Sys2Proof.Machine.execRolAcc s
  | .rolZp zp8 => Sys2Proof.Machine.execRolZp zp8 s
  | .rolZpX zp8 => Sys2Proof.Machine.execRolZpX zp8 s
  | .rolAbs addr => Sys2Proof.Machine.execRolAbs addr s
  | .rolAbsX base => Sys2Proof.Machine.execRolAbsX base s
  | .rorAcc => Sys2Proof.Machine.execRorAcc s
  | .rorZp zp8 => Sys2Proof.Machine.execRorZp zp8 s
  | .rorZpX zp8 => Sys2Proof.Machine.execRorZpX zp8 s
  | .rorAbs addr => Sys2Proof.Machine.execRorAbs addr s
  | .rorAbsX base => Sys2Proof.Machine.execRorAbsX base s
  -- Compare, increment and decrement
  | .cmpImm imm8 => Sys2Proof.Machine.execCmpImm imm8 s
  | .cmpZp zp8 => Sys2Proof.Machine.execCmpZp zp8 s
  | .cmpZpX zp8 => Sys2Proof.Machine.execCmpZpX zp8 s
  | .cmpAbs addr => Sys2Proof.Machine.execCmpAbs addr s
  | .cmpAbsX base => Sys2Proof.Machine.execCmpAbsX base s
  | .cmpAbsY base => Sys2Proof.Machine.execCmpAbsY base s
  | .cmpIndX zp8 => Sys2Proof.Machine.execCmpIndX zp8 s
  | .cmpIndY zp8 => Sys2Proof.Machine.execCmpIndY zp8 s
  | .cpxImm imm8 => Sys2Proof.Machine.execCpxImm imm8 s
  | .cpxZp zp8 => Sys2Proof.Machine.execCpxZp zp8 s
  | .cpxAbs addr => Sys2Proof.Machine.execCpxAbs addr s
  | .cpyImm imm8 => Sys2Proof.Machine.execCpyImm imm8 s
  | .cpyZp zp8 => Sys2Proof.Machine.execCpyZp zp8 s
  | .cpyAbs addr => Sys2Proof.Machine.execCpyAbs addr s
  | .incZp zp8 => Sys2Proof.Machine.execIncZp zp8 s
  | .incZpX zp8 => Sys2Proof.Machine.execIncZpX zp8 s
  | .incAbs addr => Sys2Proof.Machine.execIncAbs addr s
  | .incAbsX base => Sys2Proof.Machine.execIncAbsX base s
  | .decZp zp8 => Sys2Proof.Machine.execDecZp zp8 s
  | .decZpX zp8 => Sys2Proof.Machine.execDecZpX zp8 s
  | .decAbs addr => Sys2Proof.Machine.execDecAbs addr s
  | .decAbsX base => Sys2Proof.Machine.execDecAbsX base s
  | .inx => Sys2Proof.Machine.execInx s
  | .iny => Sys2Proof.Machine.execIny s
  | .dex => Sys2Proof.Machine.execDex s
  | .dey => Sys2Proof.Machine.execDey s
  -- Branches, bit test and flag clears
  | .bcc disp8 => Sys2Proof.Machine.execBcc disp8 s
  | .bcs disp8 => Sys2Proof.Machine.execBcs disp8 s
  | .beq disp8 => Sys2Proof.Machine.execBeq disp8 s
  | .bmi disp8 => Sys2Proof.Machine.execBmi disp8 s
  | .bne disp8 => Sys2Proof.Machine.execBne disp8 s
  | .bpl disp8 => Sys2Proof.Machine.execBpl disp8 s
  | .bvc disp8 => Sys2Proof.Machine.execBvc disp8 s
  | .bvs disp8 => Sys2Proof.Machine.execBvs disp8 s
  | .bitZp zp8 => Sys2Proof.Machine.execBitZp zp8 s
  | .bitAbs addr => Sys2Proof.Machine.execBitAbs addr s
  | .clc => Sys2Proof.Machine.execClc s
  | .cld => Sys2Proof.Machine.execCld s
  | .cli => Sys2Proof.Machine.execCli s
  | .clv => Sys2Proof.Machine.execClv s
  -- Jump, BRK, stack, subroutine and interrupt return
  | .jmpAbs addr => Sys2Proof.Machine.execJmpAbs addr s
  | .jmpInd ptr => Sys2Proof.Machine.execJmpInd ptr s
  | .brk => Sys2Proof.Machine.execBrk s
  | .pha => Sys2Proof.Machine.execPha s
  | .php => Sys2Proof.Machine.execPhp s
  | .pla => Sys2Proof.Machine.execPla s
  | .plp => Sys2Proof.Machine.execPlp s
  | .jsr addr => Sys2Proof.Machine.execJsr addr s
  | .rts => Sys2Proof.Machine.execRts s
  | .rti => Sys2Proof.Machine.execRti s
  -- The unlisted official instructions, decoded when UNLISTED_OFFICIAL is true (R6)
  | .staZp zp8 => Sys2Proof.Machine.execStaZp zp8 s
  | .staZpX zp8 => Sys2Proof.Machine.execStaZpX zp8 s
  | .staAbs addr => Sys2Proof.Machine.execStaAbs addr s
  | .staAbsX base => Sys2Proof.Machine.execStaAbsX base s
  | .staAbsY base => Sys2Proof.Machine.execStaAbsY base s
  | .staIndX zp8 => Sys2Proof.Machine.execStaIndX zp8 s
  | .staIndY zp8 => Sys2Proof.Machine.execStaIndY zp8 s
  | .stxZp zp8 => Sys2Proof.Machine.execStxZp zp8 s
  | .stxZpY zp8 => Sys2Proof.Machine.execStxZpY zp8 s
  | .stxAbs addr => Sys2Proof.Machine.execStxAbs addr s
  | .styZp zp8 => Sys2Proof.Machine.execStyZp zp8 s
  | .styZpX zp8 => Sys2Proof.Machine.execStyZpX zp8 s
  | .styAbs addr => Sys2Proof.Machine.execStyAbs addr s
  | .tax => Sys2Proof.Machine.execTax s
  | .tay => Sys2Proof.Machine.execTay s
  | .txa => Sys2Proof.Machine.execTxa s
  | .tya => Sys2Proof.Machine.execTya s
  | .tsx => Sys2Proof.Machine.execTsx s
  | .txs => Sys2Proof.Machine.execTxs s
  | .sec => Sys2Proof.Machine.execSec s
  | .sed => Sys2Proof.Machine.execSed s
  | .sei => Sys2Proof.Machine.execSei s
  | .nop => Sys2Proof.Machine.execNop s

end Sys2Proof.Machine
end

