-- ==== Sys2Proof/Machine/Fetch.lean ====
section
/-! DEFINITION. The fetch and decode of one step (spec/40_dispatch.md R121 to R125): byte by byte at PC, each byte followed
by the PC increment, the lookup between the opcode and the operand bytes. -/

namespace Sys2Proof.Machine

/-- What the fetch of a step ends in. -/
inductive Fetched where
  /-- A decoded instruction, and the state with PC past its bytes (R122). -/
  | instr (i : Instr) (s : State)
  /-- InvalidOpcode (R123): the byte, its address, and the exact state, PC past the byte and nothing else changed. -/
  | invalid (opcode : Byte) (address : Word) (s : State)
  /-- A fetch increment that left the address space (R121, R401). -/
  | raised (e : Fault)
deriving DecidableEq, Repr

/-- The start of a step in the run loop's bookkeeping (R420): one more step begun, no stop reason yet (log 7). -/
def State.beginStep (s : State) : State := { s with steps := s.steps + 1, stop := none }

/-- `FetchByte()` (R121): read at PC, then increment PC through `addr16`. -/
def fetchByte (s : State) : Except Fault (Byte × State) :=
  match addr16 s.params (s.pc.toNat + 1) with
  | .ok next => .ok (s.readByte s.pc, { s with pc := next })
  | .error e => .error e

/-- The operand bytes of a form, fetched in increasing address order (R65, R122). -/
def fetchOperand (f : Form) (s : State) : Fetched :=
  match f with
  | .none i => .instr i s
  | .byte mk =>
    match fetchByte s with
    | .error e => .raised e
    | .ok (b, s1) => .instr (mk b) s1
  | .word mk =>
    match fetchByte s with
    | .error e => .raised e
    | .ok (lo, s1) =>
      match fetchByte s1 with
      | .error e => .raised e
      | .ok (hi, s2) => .instr (mk (word lo hi)) s2

/-- Fetch, lookup and operand fetch (R125), in the order that fixes which error comes first (R408). -/
def fetchInstr (s : State) : Fetched :=
  match fetchByte s with
  | .error e => .raised e
  | .ok (opcode, s1) =>
    match lookup s.params.unlistedOfficial opcode with
    | none => .invalid opcode s.pc s1
    | some r => fetchOperand r.form s1

/-- How a step ends after an InvalidOpcode (R400, R420): the run goes on at a + 1 under `skip`, else it ends with the error. -/
def afterInvalid (opcode : Byte) (address : Word) (s : State) : Out :=
  match s.onInvalid with
  | .skip => .next s
  | .halt => .fault (.invalidOpcode opcode address)

/-- The `k` bytes of memory from an address on, the address counted modulo 65536. -/
def State.bytesFrom (s : State) (a : Word) : Nat → List Byte
  | 0 => []
  | k + 1 => s.readByte a :: s.bytesFrom (a + 1) k

/-- The bytes stored from an address on, the address counted modulo 65536. -/
def State.placeBytes (s : State) (a : Word) : List Byte → State
  | [] => s
  | b :: bs => (s.writeByte a b).placeBytes (a + 1) bs

/-- Whether a byte is the opcode of an unlisted row, which decodes only with `UNLISTED_OFFICIAL` (R99). -/
def isUnlistedOpcode (opcode : Byte) : Bool := (lookup true opcode).isSome && (lookup false opcode).isNone

end Sys2Proof.Machine
end

