-- ==== Sys2Proof/Machine/Step.lean ====
section
/-! DEFINITION. One step (spec/40_dispatch.md R125): fetch and decode, then the meaning of the instruction. -/

namespace Sys2Proof.Machine

/-- `Step()` (R125) as the run in progress takes it: with the run loop's bookkeeping begun (log 7) and the run's choice after
an InvalidOpcode (R420, log 6). A Step the host asks for by itself is `State.hostStep`. A step after a halt goes on from PC like any other (R421, log 8). -/
def step (s : State) : Host.Outcome State Fault Refusal :=
  match fetchInstr s.beginStep with
  | .instr i t => exec i t
  | .invalid opcode address t => afterInvalid opcode address t
  | .raised e => .fault e

/-- The state with a table word's bytes stored at PC, where the next step fetches, and, for the word of an unlisted row, the
parameter that row is decoded under (log 2, log 3). -/
def State.withFetchWord (s : State) (nbits w : Nat) : State :=
  let t := s.placeBytes s.pc (tableBytes nbits w)
  { t with params := { t.params with
      unlistedOfficial := t.params.unlistedOfficial || isUnlistedOpcode (t.readByte t.pc) } }

end Sys2Proof.Machine
end

