-- ==== Sys2Proof/Assembly.lean ====
section
/-! DEFINITION. The assembly syntax of an instruction (spec/30_encoding.md R102; log 21) and the displacement an assembler
emits for a branch (R103). Nothing in the machine depends on it. -/

namespace Sys2Proof

/-- One hexadecimal digit, a capital letter above 9. -/
def hexDigit (n : Nat) : Char := if n < 10 then Char.ofNat (48 + n) else Char.ofNat (55 + n)

/-- The low `digits` hexadecimal digits of a number, most significant first. -/
def hexDigits : Nat → Nat → List Char
  | 0, _ => []
  | digits + 1, n => hexDigits digits (n / 16) ++ [hexDigit (n % 16)]

/-- `$nn` (R102). -/
def hexByte (b : Byte) : String := "$" ++ String.ofList (hexDigits 2 b.toNat)

/-- `$nnnn` (R102). -/
def hexWord (w : Word) : String := "$" ++ String.ofList (hexDigits 4 w.toNat)

/-- The mnemonic in capitals (R102). -/
def Mnemonic.name : Mnemonic → String
  | .lda => "LDA" | .ldx => "LDX" | .ldy => "LDY"
  | .adc => "ADC" | .sbc => "SBC" | .and => "AND" | .eor => "EOR" | .ora => "ORA"
  | .asl => "ASL" | .lsr => "LSR" | .rol => "ROL" | .ror => "ROR"
  | .cmp => "CMP" | .cpx => "CPX" | .cpy => "CPY" | .inc => "INC" | .dec => "DEC"
  | .inx => "INX" | .iny => "INY" | .dex => "DEX" | .dey => "DEY"
  | .bcc => "BCC" | .bcs => "BCS" | .beq => "BEQ" | .bmi => "BMI"
  | .bne => "BNE" | .bpl => "BPL" | .bvc => "BVC" | .bvs => "BVS" | .bit => "BIT"
  | .clc => "CLC" | .cld => "CLD" | .cli => "CLI" | .clv => "CLV"
  | .jmp => "JMP" | .brk => "BRK" | .pha => "PHA" | .php => "PHP" | .pla => "PLA" | .plp => "PLP"
  | .jsr => "JSR" | .rts => "RTS" | .rti => "RTI"
  | .sta => "STA" | .stx => "STX" | .sty => "STY"
  | .tax => "TAX" | .tay => "TAY" | .txa => "TXA" | .tya => "TYA" | .tsx => "TSX" | .txs => "TXS"
  | .sec => "SEC" | .sed => "SED" | .sei => "SEI" | .nop => "NOP"

/-- The operand part of each memory mode (R102). -/
def MemMode.text : MemMode → String
  | .zeroPage z => hexByte z
  | .zeroPageX z => hexByte z ++ ",X"
  | .zeroPageY z => hexByte z ++ ",Y"
  | .absolute w => hexWord w
  | .absoluteX w => hexWord w ++ ",X"
  | .absoluteY w => hexWord w ++ ",Y"
  | .indirectX z => "(" ++ hexByte z ++ ",X)"
  | .indirectY z => "(" ++ hexByte z ++ "),Y"

/-- The target address of a branch at `a` with a displacement, modulo 65536 (R102, R270). -/
def branchTarget (a : Word) (disp8 : Byte) : Word := a + 2 + disp8.signExtend 16

/-- An instruction at address `a` in the syntax of R102; a branch shows its target address. -/
def Instr.assembly (a : Word) (i : Instr) : String :=
  match i.form with
  | .implied => i.mnemonic.name
  | .accumulator => i.mnemonic.name ++ " A"
  | .immediate v => i.mnemonic.name ++ " #" ++ hexByte v
  | .relative d => i.mnemonic.name ++ " " ++ hexWord (branchTarget a d)
  | .mem m => i.mnemonic.name ++ " " ++ m.text
  | .indirect w => i.mnemonic.name ++ " (" ++ hexWord w ++ ")"

/-- The displacement byte for a branch at address `a` to target `t`, where it lies in -128..127 (R103). -/
def branchDisplacement (a t : Word) : Option Byte :=
  let d : Int := t.toNat - (a.toNat + 2)
  if -128 ≤ d ∧ d ≤ 127 then some (BitVec.ofInt 8 d) else none

end Sys2Proof
end

