-- ==== Sys2Proof/Machine/HostInterface.lean ====
section
/-! DEFINITION. The host's operations between steps (spec/60_exceptions.md R424): create, Reset, Load, register and memory
access. None of them is an instruction's effect. -/

namespace Sys2Proof.Machine

/-- The numeric code of an error (R405). -/
def Fault.code : Fault → Nat
  | .invalidOpcode _ _ => 1
  | .memoryOutOfBounds _ => 2
  | .romTooLarge _ _ => 3
  | .stackOverflow _ => 4
  | .stackUnderflow _ => 5

/-- `create` (R424, R50): a new instance with the given parameters, memory zero and the registers as after reset. -/
def State.create (prm : Params) : State := { State.reset with params := prm }

/-- `Reset()` (R440): every register zero; memory, the parameters and the bookkeeping are untouched (log 19). -/
def State.hostReset (s : State) : State := { s with pc := 0, sp := 0, a := 0, x := 0, y := 0, p := 0 }

/-- Bytes copied into consecutive memory cells; the order of the copies cannot be observed (R64, log 20). -/
def Memory.copy : Memory → Nat → List Byte → Memory
  | m, _, [] => m
  | m, o, b :: bs => Memory.write (Memory.copy m (o + 1) bs) o b

/-- `Load(bytes, O)` (R64, R443): the check comes before any copy. -/
def State.load (s : State) (bytes : List Byte) (offset : Nat) : Except Fault State :=
  if Config.memSize < offset + bytes.length then .error (.romTooLarge offset bytes.length)
  else .ok { s with mem := Memory.copy s.mem offset bytes }

/-- The ROM load (R442). -/
def State.loadRom (s : State) (rom : List Byte) : Except Fault State := s.load rom Config.romBase

/-- A host write of a register with a value of its width (R443, R424). -/
inductive RegWrite where
  | pc (v : Word)
  | sp (v : Byte)
  | a (v : Byte)
  | x (v : Byte)
  | y (v : Byte)
  | p (v : Byte)
deriving DecidableEq, Repr

/-- The host's register write (R443): that register, and for P with bit 5 cleared. -/
def State.hostWrite (s : State) : RegWrite → State
  | .pc v => { s with pc := v }
  | .sp v => { s with sp := v }
  | .a v => { s with a := v }
  | .x v => { s with x := v }
  | .y v => { s with y := v }
  | .p v => s.writeP v

/-- The host's memory read of any address (R424, R61, R63). DESIGN CHOICE: an address outside the space is an error under either
ADDRESS_WRAP (log 25). -/
def State.memRead (s : State) (addr : Nat) : Except Fault Byte :=
  if Config.memSize ≤ addr then .error (.memoryOutOfBounds addr) else .ok (Memory.read s.mem addr)

/-- `MemWrite` at any address, the MemoryBus contract (R62, R63). DESIGN CHOICE: an address outside the space is an error under
either ADDRESS_WRAP (log 25). -/
def State.memWrite (s : State) (addr : Nat) (v : Byte) : Except Fault State :=
  if Config.memSize ≤ addr then .error (.memoryOutOfBounds addr) else .ok { s with mem := Memory.write s.mem addr v }

end Sys2Proof.Machine
end

