-- ==== Sys2Proof/Machine/RunLoop.lean ====
section
/-! DEFINITION. The host's Step, the run loop (spec/60_exceptions.md R420 to R424) and the launch of a ROM (70_reset_and_hazards.md R444). -/

namespace Sys2Proof.Machine

/-- What the host gets back from `Step()` (R424). -/
inductive StepResult where
  /-- The step completed and nothing stops the run. -/
  | completed
  /-- `stop Halted(BRK)` (R422). -/
  | halted
  /-- The error the step ended in. -/
  | error (e : Fault)
deriving DecidableEq, Repr

/-- What `Step()` gives the host and the state it leaves (R424). -/
structure StepEnd where
  result : StepResult
  state : State
deriving DecidableEq, Repr

/-- The state a fatal error leaves, `s` being the one the step began in (R126, R407): every register and every byte of memory
holds a free value, bit 5 of P is 0 (R36), and the parameters and the bookkeeping stay (log 5, log 24). -/
def State.afterFatal (s : State) : State :=
  let free := Config.unspecifiedByte s.draws s.params s.pc [s.sp, s.a, s.x, s.y, s.p] s.mem
  { s with
    pc := word (free 0) (free 1)
    sp := free 2
    a := free 3
    x := free 4
    y := free 5
    p := free 6 &&& 0xDF
    mem := Memory.ofCells (fun a => free (a + 7)) 0 Config.memSize
    draws := s.draws + 1 }

/-- The host's `Step()` (R424, R125): one step, which answers every InvalidOpcode as the error it is; only a run has the choice
to skip it (R420). It answers none only if the instruction is refused, which none is. -/
def State.hostStep (s : State) : Option StepEnd :=
  match fetchInstr s.beginStep with
  | .invalid opcode address t => some ⟨.error (.invalidOpcode opcode address), t⟩
  | .raised e => some ⟨.error e, s.beginStep.afterFatal⟩
  | .instr i t =>
    match exec i t with
    | .next u => some ⟨if u.stop = some .haltedBrk then .halted else .completed, u⟩
    | .fault e => some ⟨.error e, s.beginStep.afterFatal⟩
    | .refused _ => none

/-- How a run ends (R423): the stop reason, the number of steps begun, and the state the host goes on from. -/
structure RunEnd where
  reason : StopReason
  n : Nat
  state : State
deriving DecidableEq, Repr

/-- Whether a run goes on after an error: an InvalidOpcode under `skip` (R420); the others are fatal. -/
def goesOnAfter (o : OnInvalid) (e : Fault) : Bool :=
  match e with
  | .invalidOpcode _ _ => o == .skip
  | .memoryOutOfBounds _ => false
  | .romTooLarge _ _ => false
  | .stackOverflow _ => false
  | .stackUnderflow _ => false

/-- A run that stops with a reason in a state (R420, R423). -/
def State.endRun (s : State) (reason : StopReason) : RunEnd := ⟨reason, s.steps, { s with stop := some reason }⟩

/-- The loop of R420 with `left` steps left before the limit. -/
def runSteps : Nat → State → Option RunEnd
  | 0, s => some (s.endRun .stepLimit)
  | left + 1, s =>
    match s.hostStep with
    | some ⟨.completed, t⟩ => runSteps left t
    | some ⟨.halted, t⟩ => some (t.endRun .haltedBrk)
    | some ⟨.error e, t⟩ => if goesOnAfter t.onInvalid e then runSteps left t else some (t.endRun (.error e))
    | none => none

/-- The bookkeeping a run begins with (R420, R441). -/
def State.beginRun (s : State) (onInvalid : OnInvalid) : State :=
  { s with onInvalid := onInvalid, steps := 0, stop := none }

/-- `Run(step_limit, on_invalid)` (R420). -/
def run (stepLimit : Nat) (onInvalid : OnInvalid) (s : State) : Option RunEnd :=
  runSteps stepLimit (s.beginRun onInvalid)

/-- The state `Launch(rom, entry)` runs from (R444): Reset, the ROM load, then PC set to the entry point. -/
def State.launch (s : State) (rom : List Byte) (entry : Word) : Except Fault State :=
  match s.hostReset.loadRom rom with
  | .ok t => .ok (t.hostWrite (.pc entry))
  | .error e => .error e

end Sys2Proof.Machine
end

