-- ==== Sys2Proof/Safety.lean ====
section
/-! DEFINITION. The terms the statements use: the invariant of every state a run can be in, the exact address arithmetic of
spec/41_addressing.md R152 before it is narrowed, when an operand can be reached, and the spec's lists of opcode bytes and
written flags. They are written from the spec's tables, not from the meanings they are used to talk about. -/

namespace Sys2Proof

/-- What a read instruction of this form reads (R129). -/
def AddrForm.source : AddrForm → Option Machine.Source
  | .immediate v => some (.imm v)
  | .mem m => some (.mem m)
  | .implied => none
  | .accumulator => none
  | .relative _ => none
  | .indirect _ => none

/-- What a write-back instruction of this form works on (R129). -/
def AddrForm.target : AddrForm → Option Machine.Target
  | .accumulator => some .acc
  | .mem m => some (.mem m)
  | .implied => none
  | .immediate _ => none
  | .relative _ => none
  | .indirect _ => none

end Sys2Proof

namespace Sys2Proof.Machine

/-- The invariant of the machine: memory is in its canonical form (R60), and bit 5 of P is 0 (R36). -/
abbrev State.Inv (s : State) : Prop := Memory.wf s.mem = true ∧ s.p[5] = false

/-- The next state an outcome holds, if it is one. -/
def nextState : Out → Option State
  | .next t => some t
  | .fault _ => none
  | .refused _ => none

/-- The error an outcome holds, if it is one. -/
def raisedFault : Out → Option Fault
  | .next _ => none
  | .fault e => some e
  | .refused _ => none

/-- An exact address `addr16` turns into an address (R13): it lies in the space, or ADDRESS_WRAP is wrap. -/
abbrev AddressOk (s : State) (v : Int) : Prop := s.params.addressWrap = .wrap ∨ (0 ≤ v ∧ v < 65536)

/-- The byte at a zero-page index, the index counted modulo 256 (R143, R148). -/
def zeroPageByte (s : State) (z : Nat) : Nat := (Memory.read s.mem (z % 256)).toNat

/-- The pointer held at a zero-page index, low byte first, both bytes in page 0 (R148, R149). -/
def zeroPageWord (s : State) (z : Nat) : Nat := zeroPageByte s z + 256 * zeroPageByte s (z + 1)

/-- The exact effective address of each memory mode (R152), before `addr16`. -/
def exactAddress (m : MemMode) (s : State) : Int :=
  match m with
  | .zeroPage z => z.toNat
  | .zeroPageX z => ((z.toNat + s.x.toNat) % 256 : Nat)
  | .zeroPageY z => ((z.toNat + s.y.toNat) % 256 : Nat)
  | .absolute w => w.toNat
  | .absoluteX w => (w.toNat + s.x.toNat : Nat)
  | .absoluteY w => (w.toNat + s.y.toNat : Nat)
  | .indirectX z => zeroPageWord s (z.toNat + s.x.toNat)
  | .indirectY z => (zeroPageWord s z.toNat + s.y.toNat : Nat)

/-- The cell a memory mode designates where its exact address is one `addr16` accepts. -/
def cellOf (m : MemMode) (s : State) : Word := BitVec.ofInt 16 (exactAddress m s)

/-- The operand can be read: an immediate always, a memory cell when its address is accepted. -/
abbrev SourceOk (src : Source) (s : State) : Prop :=
  match src with
  | .imm _ => True
  | .mem m => AddressOk s (exactAddress m s)

/-- The operand value `op` of R15. -/
def sourceByte (src : Source) (s : State) : Byte :=
  match src with
  | .imm v => v
  | .mem m => s.readByte (cellOf m s)

/-- The location can be reached: the accumulator always, a memory cell when its address is accepted. -/
abbrev TargetOk (t : Target) (s : State) : Prop :=
  match t with
  | .acc => True
  | .mem m => AddressOk s (exactAddress m s)

/-- The byte that a state `t` holds at the location a target designates in `s`. -/
def byteAt (tgt : Target) (s t : State) : Byte :=
  match tgt with
  | .acc => t.a
  | .mem m => t.readByte (cellOf m s)

/-- Z and N are those of a result byte (R40). -/
abbrev ZNOf (v : Byte) (t : State) : Prop :=
  (t.getFlag .z = true ↔ v.toNat = 0) ∧ (t.getFlag .n = true ↔ 128 ≤ v.toNat)

/-- `k` pushes in a row raise no StackOverflow (R71, R403). -/
abbrev PushOk (s : State) (k : Nat) : Prop := s.params.stackWrap = .wrap ∨ k ≤ s.sp.toNat

/-- `k` pulls in a row raise no StackUnderflow (R72, R404). -/
abbrev PullOk (s : State) (k : Nat) : Prop := s.params.stackWrap = .wrap ∨ s.sp.toNat + k ≤ 255

/-- The byte in the stack slot that lies `k` below SP, the slot counted modulo 256 inside page 1 (R70, R71). -/
def slotBelow (s t : State) (k : Nat) : Byte := Memory.read t.mem (256 + (s.sp.toNat + (256 - k)) % 256)

/-- The byte in the stack slot that lies `k` above SP, the slot counted modulo 256 inside page 1 (R70, R72). -/
def slotAbove (s t : State) (k : Nat) : Byte := Memory.read t.mem (256 + (s.sp.toNat + k) % 256)

/-- The flag and the value each branch tests (R271 to R278; log 17). -/
def branchTest : Mnemonic → Option (Flag × Bool)
  | .bcc => some (.c, false)
  | .bcs => some (.c, true)
  | .beq => some (.z, true)
  | .bmi => some (.n, true)
  | .bne => some (.z, false)
  | .bpl => some (.n, false)
  | .bvc => some (.v, false)
  | .bvs => some (.v, true)
  | _ => none

/-- The flags each mnemonic may write (R45). -/
def flagsWritten : Mnemonic → List Flag
  | .adc | .sbc => [.n, .v, .z, .c]
  | .asl | .lsr | .rol | .ror | .cmp | .cpx | .cpy => [.n, .z, .c]
  | .lda | .ldx | .ldy | .pla | .and | .eor | .ora | .inc | .dec | .inx | .iny | .dex | .dey => [.n, .z]
  | .tax | .tay | .txa | .tya | .tsx => [.n, .z]
  | .bit => [.n, .v, .z]
  | .clc | .sec => [.c]
  | .cld | .sed => [.d]
  | .cli | .sei => [.i]
  | .clv => [.v]
  | .brk => [.b, .i]
  | .plp | .rti => [.n, .v, .b, .d, .i, .z, .c]
  | .bcc | .bcs | .beq | .bmi | .bne | .bpl | .bvc | .bvs | .jmp | .jsr | .rts | .pha | .php => []
  | .sta | .stx | .sty | .txs | .nop => []

/-- The mnemonics that write memory at an effective address (R447). -/
def storingMnemonics : List Mnemonic := [.inc, .dec, .asl, .lsr, .rol, .ror, .sta, .stx, .sty]

/-- The mnemonics that push (R33, R71). -/
def pushingMnemonics : List Mnemonic := [.pha, .php, .jsr, .brk]

/-- The 105 bytes with no entry in any configuration (R98). -/
def unassignedOpcodes : List Byte :=
  [0x02, 0x03, 0x04, 0x07, 0x0B, 0x0C, 0x0F, 0x12, 0x13, 0x14, 0x17, 0x1A, 0x1B, 0x1C, 0x1F, 0x22, 0x23, 0x27, 0x2B, 0x2F,
    0x32, 0x33, 0x34, 0x37, 0x3A, 0x3B, 0x3C, 0x3F, 0x42, 0x43, 0x44, 0x47, 0x4B, 0x4F, 0x52, 0x53, 0x54, 0x57, 0x5A, 0x5B]
  ++ [0x5C, 0x5F, 0x62, 0x63, 0x64, 0x67, 0x6B, 0x6F, 0x72, 0x73, 0x74, 0x77, 0x7A, 0x7B, 0x7C, 0x7F, 0x80, 0x82, 0x83, 0x87,
    0x89, 0x8B, 0x8F, 0x92, 0x93, 0x97, 0x9B, 0x9C, 0x9E, 0x9F, 0xA3, 0xA7, 0xAB, 0xAF, 0xB2, 0xB3, 0xB7, 0xBB, 0xBF, 0xC2]
  ++ [0xC3, 0xC7, 0xCB, 0xCF, 0xD2, 0xD3, 0xD4, 0xD7, 0xDA, 0xDB, 0xDC, 0xDF, 0xE2, 0xE3, 0xE7, 0xEB, 0xEF, 0xF2, 0xF3, 0xF4,
    0xF7, 0xFA, 0xFB, 0xFC, 0xFF]

/-- The 23 bytes of the unlisted mnemonics (R99). -/
def unlistedOpcodes : List Byte :=
  [0x38, 0x78, 0x81, 0x84, 0x85, 0x86, 0x8A, 0x8C, 0x8D, 0x8E, 0x91, 0x94, 0x95, 0x96, 0x98, 0x99, 0x9A, 0x9D, 0xA8, 0xAA,
    0xBA, 0xEA, 0xF8]

end Sys2Proof.Machine
end

