-- ==== Sys2Proof/Certificates/Slice0/Obligations.lean ====
section
/-! DEFINITION. The statements about the machine, for the provers. Each docstring names the rule or the section of spec/ it
formalises; a clause that rests on what the spec marks as its own decision or as general knowledge says so. Where a
statement speaks of exec, PC is already past the instruction (R122). -/

open Sys2Proof Sys2Proof.Machine

/-! ### Encoding -/

/-- 30_encoding.md R91 to R94 (opcode bytes: general knowledge, log 9): decoding an encoded well-formed instruction gives it
back with every operand value, and leaves the bytes after it. -/
def Obligations.DecodeInvertsEncode : Prop :=
  ∀ (unlisted : Bool) (i : Instr) (rest : List Byte), i.wellFormed unlisted = true →
    decode unlisted (encode i ++ rest) = .ok (i, rest)

/-- 30_encoding.md R93, R94, R100: each word has one meaning; what decodes is the encoding of a well-formed instruction. -/
def Obligations.EncodeInvertsDecode : Prop :=
  ∀ (unlisted : Bool) (bytes rest : List Byte) (i : Instr), decode unlisted bytes = .ok (i, rest) →
    encode i ++ rest = bytes ∧ i.wellFormed unlisted = true

/-- Ten words written out from the encodings of 30_encoding.md R94 and R102: loads, BRK, ADC, a shift, a branch, JMP and a
store, over eight of the modes (opcode bytes: log 9). -/
def Obligations.WordsOfTheSpecDecode : Prop :=
  decode false [0xA9, 0x05] = .ok (.ldaImm 0x05, []) ∧
  decode false [0x00] = .ok (.brk, []) ∧
  decode false [0x69, 0x50] = .ok (.adcImm 0x50, []) ∧
  decode false [0xBD, 0x00, 0x30] = .ok (.ldaAbsX 0x3000, []) ∧
  decode false [0x1E, 0xFF, 0x12] = .ok (.aslAbsX 0x12FF, []) ∧
  decode false [0xB6, 0x10] = .ok (.ldxZpY 0x10, []) ∧
  decode false [0xD0, 0xFB] = .ok (.bne 0xFB, []) ∧
  decode false [0x6C, 0xFF, 0x30] = .ok (.jmpInd 0x30FF, []) ∧
  decode false [0xB1, 0x20] = .ok (.ldaIndY 0x20, []) ∧
  decode true [0x8D, 0x00, 0x02] = .ok (.staAbs 0x0200, [])

/-- 30_encoding.md R97 to R99: the bytes that decode to nothing are the 105 of R98 in every configuration, and the 23 of R99
besides when UNLISTED_OFFICIAL is false (the split is the spec's decision D3). -/
def Obligations.InvalidOpcodesAreTheSpecsLists : Prop :=
  ∀ (b : Byte) (rest : List Byte),
    (decode true (b :: rest) = .error (.invalidOpcode b) ↔ b ∈ unassignedOpcodes) ∧
    (decode false (b :: rest) = .error (.invalidOpcode b) ↔ b ∈ unassignedOpcodes ∨ b ∈ unlistedOpcodes)

/-- 30_encoding.md R103, R102 (the syntax is the spec's decision D28): the displacement assembled for a branch at `a` to
target `t` takes a taken branch there, and the printed target is `t`. -/
def Obligations.AssembledBranchReachesItsTarget : Prop :=
  ∀ (i : Instr) (d : Byte) (a target : Word) (s : State) (f : Flag) (b : Bool),
    branchDisplacement a target = some d → i.form = .relative d → branchTest i.mnemonic = some (f, b) →
    s.getFlag f = b → s.pc.toNat = a.toNat + 2 →
    exec i s = .next { s with pc := target } ∧ branchTarget a d = target

/-! ### The step -/

/-- 40_dispatch.md R122, R125: when the bytes at PC decode to an instruction and PC stays in the space (or wraps), the step
is that instruction's meaning with PC past its bytes and the step counted (the bookkeeping is log 7's design choice). -/
def Obligations.StepRunsTheDecodedInstruction : Prop :=
  ∀ (s : State) (i : Instr) (rest : List Byte),
    decode s.params.unlistedOfficial (s.bytesFrom s.pc 3) = .ok (i, rest) → AddressOk s (s.pc.toNat + i.length : Nat) →
    step s = exec i { s with pc := s.pc + BitVec.ofNat 16 i.length, steps := s.steps + 1, stop := none }

/-- 40_dispatch.md R121 and 60_exceptions.md R408 (under the spec's parameter of D7): a fetch increment past 0xFFFF raises
MemoryOutOfBounds(0x10000), before the lookup for the opcode byte and before the handler for an operand byte. -/
def Obligations.FetchPastTheSpaceFaults : Prop :=
  ∀ (s : State), s.params.addressWrap = .fault →
    (s.pc = 0xFFFF → step s = .fault (.memoryOutOfBounds 0x10000)) ∧
    ∀ (i : Instr) (rest : List Byte), decode s.params.unlistedOfficial (s.bytesFrom s.pc 3) = .ok (i, rest) →
      65536 ≤ s.pc.toNat + i.length → step s = .fault (.memoryOutOfBounds 0x10000)

/-- 40_dispatch.md R123, 60_exceptions.md R400, R420 (precision and the run argument are the spec's decision D21; that
the argument is a field the step reads and the bookkeeping are the model's choice: log 6, log 7): an opcode
byte without an entry raises InvalidOpcode with the byte and its address; under `skip` the machine goes on at a + 1 with
nothing else changed but the bookkeeping, and under `halt` a run ends in exactly that state. -/
def Obligations.InvalidOpcodeIsPrecise : Prop :=
  ∀ (s : State), lookup s.params.unlistedOfficial (s.readByte s.pc) = none → AddressOk s (s.pc.toNat + 1 : Nat) →
    (s.onInvalid = .skip → step s = .next { s with pc := s.pc + 1, steps := s.steps + 1, stop := none }) ∧
    (s.onInvalid = .halt →
      step s = .fault (.invalidOpcode (s.readByte s.pc) s.pc) ∧
      ∀ (left : Nat), runSteps (left + 1) s =
        some ⟨.error (.invalidOpcode (s.readByte s.pc) s.pc), s.steps + 1,
          { s with
            pc := s.pc + 1
            steps := s.steps + 1
            stop := some (.error (.invalidOpcode (s.readByte s.pc) s.pc)) }⟩)

/-! ### The addressing-mode resolver -/

/-- 41_addressing.md R142, R143, R145, R146, R148, R149, R152 and 00_scope.md R13 (pointer wrap: the spec's decision D6): each
memory mode's address is the exact sum of the table, narrowed where it is accepted and MemoryOutOfBounds of the exact sum
where it is not. -/
def Obligations.EffectiveAddressIsTheExactSum : Prop :=
  ∀ (m : MemMode) (s : State),
    (AddressOk s (exactAddress m s) → effectiveAddress m s = .ok (cellOf m s)) ∧
    (¬ AddressOk s (exactAddress m s) → effectiveAddress m s = .error (.memoryOutOfBounds (exactAddress m s)))

/-- 60_exceptions.md R401, R406, R408: whatever instruction has the operand, an address sum past the space ends it with
MemoryOutOfBounds of the exact sum. -/
def Obligations.ResolverErrorEndsTheInstruction : Prop :=
  ∀ (i : Instr) (m : MemMode) (s : State), i.form = .mem m → ¬ AddressOk s (exactAddress m s) →
    exec i s = .fault (.memoryOutOfBounds (exactAddress m s))

/-! ### The ALU and the flags -/

/-- 42_alu.md R170: the byte addition's result, carry out and overflow. -/
def Obligations.AddByteIsTheFullAdderSum : Prop :=
  ∀ (a b : Byte) (c : Bool),
    (addByte a b c).result.toNat = (a.toNat + b.toNat + c.toNat) % 256 ∧
    ((addByte a b c).carry = true ↔ a.toNat + b.toNat + c.toNat > 255) ∧
    ((addByte a b c).overflow = true ↔ a.getLsbD 7 = b.getLsbD 7 ∧ (addByte a b c).result.getLsbD 7 ≠ a.getLsbD 7)

/-- 42_alu.md R171 (its derived form): overflow is the signed sum's leaving -128..127. -/
def Obligations.AddByteOverflowIsSignedOverflow : Prop :=
  ∀ (a b : Byte) (c : Bool),
    (addByte a b c).overflow = true ↔ a.toInt + b.toInt + c.toNat < -128 ∨ 127 < a.toInt + b.toInt + c.toNat

/-- 42_alu.md R174 (the equivalence is the spec's derivation): the adder equals the ripple of eight full adders. -/
def Obligations.AddByteEqualsTheRippleAdder : Prop :=
  ∀ (a b : Byte) (c : Bool), addByte a b c = rippleAdd a b c

/-- 42_alu.md R172, R173 (the borrow convention is the spec's decision D8): the closed forms of subtraction. -/
def Obligations.SubtractByteClosedForms : Prop :=
  ∀ (m x : Byte) (c : Bool),
    (((subtractByte m x c).result.toNat : Int) = ((m.toNat : Int) - x.toNat - (1 - c.toNat)) % 256) ∧
    ((subtractByte m x c).carry = true ↔ x.toNat + (1 - c.toNat) ≤ m.toNat) ∧
    ((subtractByte m x c).overflow = true ↔
      m.toInt - x.toInt - (1 - c.toNat) < -128 ∨ 127 < m.toInt - x.toInt - (1 - c.toNat))

/-- 10_state.md R40: SetZN assigns Z and N and changes no other flag and nothing else. -/
def Obligations.SetZNAssignsBothFlags : Prop :=
  ∀ (s : State) (v : Byte),
    ((s.setZN v).getFlag .z = true ↔ v = 0) ∧ ((s.setZN v).getFlag .n = v.getLsbD 7) ∧
    (∀ (f : Flag), f ≠ .z → f ≠ .n → (s.setZN v).getFlag f = s.getFlag f) ∧
    s.setZN v = { s with p := (s.setZN v).p }

/-! ### Results, each saying where the instruction completes -/

/-- 43_load.md R200 to R202 (forms: log 9): LDA in 8, LDX in 5 and LDY in 5 modes. Each copies its operand and sets Z and N. -/
def Obligations.LoadsCopyTheOperand : Prop :=
  ∀ (i : Instr) (src : Source) (s : State), i.form.source = some src → SourceOk src s →
    (i.mnemonic = .lda → ∃ t, exec i s = .next t ∧ t.a = sourceByte src s ∧ ZNOf (sourceByte src s) t) ∧
    (i.mnemonic = .ldx → ∃ t, exec i s = .next t ∧ t.x = sourceByte src s ∧ ZNOf (sourceByte src s) t) ∧
    (i.mnemonic = .ldy → ∃ t, exec i s = .next t ∧ t.y = sourceByte src s ∧ ZNOf (sourceByte src s) t)

/-- 44_arith_logic.md R210, 42_alu.md R175: ADC in its 8 modes, in exact arithmetic, whatever D holds. -/
def Obligations.AdcAddsOperandAndCarry : Prop :=
  ∀ (i : Instr) (src : Source) (s : State), i.form.source = some src → SourceOk src s → i.mnemonic = .adc →
    ∃ t, exec i s = .next t ∧
      t.a.toNat = (s.a.toNat + (sourceByte src s).toNat + (s.getFlag .c).toNat) % 256 ∧
      (t.getFlag .c = true ↔ 255 < s.a.toNat + (sourceByte src s).toNat + (s.getFlag .c).toNat) ∧
      (t.getFlag .v = true ↔ s.a.toInt + (sourceByte src s).toInt + (s.getFlag .c).toNat < -128 ∨
        127 < s.a.toInt + (sourceByte src s).toInt + (s.getFlag .c).toNat) ∧
      ZNOf t.a t

/-- 44_arith_logic.md R211, 42_alu.md R173 (carry convention: the spec's decision D8): SBC in its 8 modes. -/
def Obligations.SbcSubtractsOperandAndBorrow : Prop :=
  ∀ (i : Instr) (src : Source) (s : State), i.form.source = some src → SourceOk src s → i.mnemonic = .sbc →
    ∃ t, exec i s = .next t ∧
      (t.a.toNat : Int) = ((s.a.toNat : Int) - (sourceByte src s).toNat - (1 - (s.getFlag .c).toNat)) % 256 ∧
      (t.getFlag .c = true ↔ (sourceByte src s).toNat + (1 - (s.getFlag .c).toNat) ≤ s.a.toNat) ∧
      (t.getFlag .v = true ↔ s.a.toInt - (sourceByte src s).toInt - (1 - (s.getFlag .c).toNat) < -128 ∨
        127 < s.a.toInt - (sourceByte src s).toInt - (1 - (s.getFlag .c).toNat)) ∧
      ZNOf t.a t

/-- 44_arith_logic.md R212 to R214, 42_alu.md R178: AND, EOR and ORA in their 8 modes, bit by bit. -/
def Obligations.LogicCombinesBitByBit : Prop :=
  ∀ (i : Instr) (src : Source) (s : State), i.form.source = some src → SourceOk src s →
    (i.mnemonic = .and → ∃ t, exec i s = .next t ∧ ZNOf t.a t ∧
      ∀ k, t.a.getLsbD k = (s.a.getLsbD k && (sourceByte src s).getLsbD k)) ∧
    (i.mnemonic = .eor → ∃ t, exec i s = .next t ∧ ZNOf t.a t ∧
      ∀ k, t.a.getLsbD k = (s.a.getLsbD k != (sourceByte src s).getLsbD k)) ∧
    (i.mnemonic = .ora → ∃ t, exec i s = .next t ∧ ZNOf t.a t ∧
      ∀ k, t.a.getLsbD k = (s.a.getLsbD k || (sourceByte src s).getLsbD k))

/-- 45_shift.md R230 to R233, 42_alu.md R179 (the bit the rotates shift in: the spec's decision D17): ASL, LSR, ROL and ROR on
the accumulator and in their 4 memory modes. -/
def Obligations.ShiftsAndRotatesInPlace : Prop :=
  ∀ (i : Instr) (tgt : Target) (s : State), i.form.target = some tgt → TargetOk tgt s →
    (i.mnemonic = .asl → ∃ t, exec i s = .next t ∧ ZNOf (byteAt tgt s t) t ∧
      (byteAt tgt s t).toNat = 2 * (byteAt tgt s s).toNat % 256 ∧
      (t.getFlag .c = true ↔ 128 ≤ (byteAt tgt s s).toNat)) ∧
    (i.mnemonic = .lsr → ∃ t, exec i s = .next t ∧ ZNOf (byteAt tgt s t) t ∧
      (byteAt tgt s t).toNat = (byteAt tgt s s).toNat / 2 ∧
      (t.getFlag .c = true ↔ (byteAt tgt s s).toNat % 2 = 1)) ∧
    (i.mnemonic = .rol → ∃ t, exec i s = .next t ∧ ZNOf (byteAt tgt s t) t ∧
      (byteAt tgt s t).toNat = (2 * (byteAt tgt s s).toNat + (s.getFlag .c).toNat) % 256 ∧
      (t.getFlag .c = true ↔ 128 ≤ (byteAt tgt s s).toNat)) ∧
    (i.mnemonic = .ror → ∃ t, exec i s = .next t ∧ ZNOf (byteAt tgt s t) t ∧
      (byteAt tgt s t).toNat = (byteAt tgt s s).toNat / 2 + 128 * (s.getFlag .c).toNat ∧
      (t.getFlag .c = true ↔ (byteAt tgt s s).toNat % 2 = 1))

/-- 46_compare_incdec.md R250 to R252, 42_alu.md R180: CMP in 8, CPX and CPY in 3 modes. -/
def Obligations.ComparesOrderUnsigned : Prop :=
  ∀ (i : Instr) (src : Source) (s : State) (r : Byte), i.form.source = some src → SourceOk src s →
    (i.mnemonic = .cmp ∧ r = s.a) ∨ (i.mnemonic = .cpx ∧ r = s.x) ∨ (i.mnemonic = .cpy ∧ r = s.y) →
    ∃ t, exec i s = .next t ∧
      (t.getFlag .c = true ↔ (sourceByte src s).toNat ≤ r.toNat) ∧
      (t.getFlag .z = true ↔ r = sourceByte src s) ∧
      (t.getFlag .n = true ↔ 128 ≤ (r.toNat + 256 - (sourceByte src s).toNat) % 256)

/-- 46_compare_incdec.md R253, R254, 42_alu.md R177 (wrapping: the spec's decision D18): INC and DEC in their 4 modes. -/
def Obligations.IncDecWrapInMemory : Prop :=
  ∀ (i : Instr) (m : MemMode) (s : State), i.form = .mem m → AddressOk s (exactAddress m s) →
    (i.mnemonic = .inc → ∃ t, exec i s = .next t ∧ ZNOf (t.readByte (cellOf m s)) t ∧
      (t.readByte (cellOf m s)).toNat = ((s.readByte (cellOf m s)).toNat + 1) % 256) ∧
    (i.mnemonic = .dec → ∃ t, exec i s = .next t ∧ ZNOf (t.readByte (cellOf m s)) t ∧
      (t.readByte (cellOf m s)).toNat = ((s.readByte (cellOf m s)).toNat + 255) % 256)

/-- 46_compare_incdec.md R255 to R258, 42_alu.md R177: INX, INY, DEX, DEY in every state. -/
def Obligations.IndexRegistersCountModulo256 : Prop :=
  ∀ (s : State),
    (∃ t, exec .inx s = .next t ∧ t.x.toNat = (s.x.toNat + 1) % 256 ∧ ZNOf t.x t) ∧
    (∃ t, exec .iny s = .next t ∧ t.y.toNat = (s.y.toNat + 1) % 256 ∧ ZNOf t.y t) ∧
    (∃ t, exec .dex s = .next t ∧ t.x.toNat = (s.x.toNat + 255) % 256 ∧ ZNOf t.x t) ∧
    (∃ t, exec .dey s = .next t ∧ t.y.toNat = (s.y.toNat + 255) % 256 ∧ ZNOf t.y t)

/-- 47_branch_bit_flags.md R270 to R278 (the tested conditions: general knowledge, log 17): BCC, BCS, BEQ, BMI, BNE, BPL, BVC,
BVS. Not taken, nothing changes; taken, PC moves by the signed displacement, or the exact target is out of bounds. -/
def Obligations.BranchesAddTheSignedDisplacement : Prop :=
  ∀ (i : Instr) (d : Byte) (s : State) (f : Flag) (b : Bool), i.form = .relative d → branchTest i.mnemonic = some (f, b) →
    (s.getFlag f ≠ b → exec i s = .next s) ∧
    (s.getFlag f = b → AddressOk s (s.pc.toNat + d.toInt) →
      exec i s = .next { s with pc := BitVec.ofInt 16 (s.pc.toNat + d.toInt) }) ∧
    (s.getFlag f = b → ¬ AddressOk s (s.pc.toNat + d.toInt) →
      exec i s = .fault (.memoryOutOfBounds (s.pc.toNat + d.toInt)))

/-- 47_branch_bit_flags.md R280: BIT in its 2 modes; A and memory are in the frames. -/
def Obligations.BitTestsTheOperand : Prop :=
  ∀ (i : Instr) (src : Source) (s : State), i.form.source = some src → SourceOk src s → i.mnemonic = .bit →
    ∃ t, exec i s = .next t ∧
      (t.getFlag .z = true ↔ ∀ k, (s.a.getLsbD k && (sourceByte src s).getLsbD k) = false) ∧
      (t.getFlag .n = true ↔ 128 ≤ (sourceByte src s).toNat) ∧
      (t.getFlag .v = true ↔ 64 ≤ (sourceByte src s).toNat % 128)

/-- 47_branch_bit_flags.md R281 to R284 and 49_unlisted.md R339 to R341 (bit positions: the spec's decision D2; the sets: its
decision D3): CLC, CLD, CLI, CLV, SEC, SED, SEI change one bit of P and nothing else. -/
def Obligations.FlagInstructionsChangeOneBit : Prop :=
  ∀ (s : State),
    exec .clc s = .next { s with p := s.p &&& 0xFE } ∧
    exec .cld s = .next { s with p := s.p &&& 0xF7 } ∧
    exec .cli s = .next { s with p := s.p &&& 0xFB } ∧
    exec .clv s = .next { s with p := s.p &&& 0xBF } ∧
    exec .sec s = .next { s with p := s.p ||| 0x01 } ∧
    exec .sed s = .next { s with p := s.p ||| 0x08 } ∧
    exec .sei s = .next { s with p := s.p ||| 0x04 }

/-- 48_control_stack.md R300, 41_addressing.md R145, R147 (pointer past 0xFFFF: the spec's parameter of D7): JMP in both modes,
the page-boundary bug by default and the fixed variant. -/
def Obligations.JmpGoesToTheResolvedAddress : Prop :=
  ∀ (s : State) (w : Word),
    exec (.jmpAbs w) s = .next { s with pc := w } ∧
    (s.params.jmpIndirectFixed = false →
      exec (.jmpInd w) s = .next { s with
        pc := BitVec.ofNat 16 ((s.readByte w).toNat
          + 256 * (s.readByte (if w.toNat % 256 = 255 then w - 255 else w + 1)).toNat) }) ∧
    (s.params.jmpIndirectFixed = true → AddressOk s (w.toNat + 1 : Nat) →
      exec (.jmpInd w) s = .next { s with
        pc := BitVec.ofNat 16 ((s.readByte w).toNat + 256 * (s.readByte (w + 1)).toNat) }) ∧
    (s.params.jmpIndirectFixed = true → ¬ AddressOk s (w.toNat + 1 : Nat) →
      exec (.jmpInd w) s = .fault (.memoryOutOfBounds 0x10000))

/-- 48_control_stack.md R302, R303, 60_exceptions.md R411, R422 (return address, pushed status, vector and halting are the
spec's decisions D12, D14, D15; the field that records the halt: log 7): BRK takes the trap. -/
def Obligations.BrkTakesTheTrap : Prop :=
  ∀ (s : State), AddressOk s (s.pc.toNat + 1 : Nat) → PushOk s 3 →
    ∃ t, exec .brk s = .next t ∧
      slotBelow s t 0 = (s.pc + 1).extractLsb' 8 8 ∧
      slotBelow s t 1 = (s.pc + 1).extractLsb' 0 8 ∧
      slotBelow s t 2 = s.p ||| 0x30 ∧
      t.sp = s.sp - 3 ∧
      t.p = s.p ||| 0x14 ∧
      t.pc = s.readByte 0xFFFF ++ s.readByte 0xFFFE ∧
      t.stop = if s.params.brkHalt = .always ∨ (s.params.brkHalt = .whenISet ∧ s.getFlag .i = true)
        then some .haltedBrk else s.stop

/-- 60_exceptions.md R403, R404, R406, R408 (under the spec's parameter of D10): which stack instructions raise which error
and when, and BRK's return address past the space, which comes first. -/
def Obligations.StackErrorsAreRaisedInOrder : Prop :=
  ∀ (s : State) (w : Word),
    (¬ AddressOk s (s.pc.toNat + 1 : Nat) → exec .brk s = .fault (.memoryOutOfBounds 0x10000)) ∧
    (AddressOk s (s.pc.toNat + 1 : Nat) → ¬ PushOk s 3 → exec .brk s = .fault (.stackOverflow 0x00)) ∧
    (¬ PushOk s 1 → exec .pha s = .fault (.stackOverflow 0x00) ∧ exec .php s = .fault (.stackOverflow 0x00)) ∧
    (AddressOk s ((s.pc.toNat : Int) - 1) → ¬ PushOk s 2 → exec (.jsr w) s = .fault (.stackOverflow 0x00)) ∧
    (¬ PullOk s 1 → exec .pla s = .fault (.stackUnderflow 0xFF) ∧ exec .plp s = .fault (.stackUnderflow 0xFF)) ∧
    (¬ PullOk s 2 → exec .rts s = .fault (.stackUnderflow 0xFF)) ∧
    (¬ PullOk s 3 → exec .rti s = .fault (.stackUnderflow 0xFF))

/-- 48_control_stack.md R305, R306, 20_memory.md R71, R74 (page, order and pushed bits: the spec's decisions D9, D12): PHA and
PHP store at the slot SP names and decrement SP modulo 256. -/
def Obligations.PushesStoreAndDecrement : Prop :=
  ∀ (s : State), PushOk s 1 →
    (∃ t, exec .pha s = .next t ∧ slotBelow s t 0 = s.a ∧ t.sp.toNat = (s.sp.toNat + 255) % 256) ∧
    (∃ t, exec .php s = .next t ∧ slotBelow s t 0 = s.p ||| 0x30 ∧ t.sp.toNat = (s.sp.toNat + 255) % 256)

/-- 48_control_stack.md R307, R308, 20_memory.md R72, 10_state.md R36 (the spec's decisions D9, D13, D18): PLA loads A with Z
and N, PLP loads all seven flags and leaves bit 5 clear; SP is incremented modulo 256. -/
def Obligations.PullsLoadAndIncrement : Prop :=
  ∀ (s : State), PullOk s 1 →
    (∃ t, exec .pla s = .next t ∧ t.a = slotAbove s s 1 ∧ t.sp.toNat = (s.sp.toNat + 1) % 256 ∧ ZNOf t.a t) ∧
    (∃ t, exec .plp s = .next t ∧ t.sp.toNat = (s.sp.toNat + 1) % 256 ∧ t.p[5] = false ∧
      ∀ (f : Flag), t.getFlag f = (slotAbove s s 1).getLsbD f.bit)

/-- 48_control_stack.md R310 (return address: the spec's decision D16): JSR pushes the address of its own last byte, high byte
first, and goes to its operand. -/
def Obligations.JsrPushesItsLastByteAddress : Prop :=
  ∀ (s : State) (w : Word), AddressOk s ((s.pc.toNat : Int) - 1) → PushOk s 2 →
    ∃ t, exec (.jsr w) s = .next t ∧ t.pc = w ∧ t.sp = s.sp - 2 ∧
      slotBelow s t 0 = (s.pc - 1).extractLsb' 8 8 ∧ slotBelow s t 1 = (s.pc - 1).extractLsb' 0 8

/-- 48_control_stack.md R311 (the spec's decision D16): RTS pulls low byte first and goes to the pulled address plus one, or
raises MemoryOutOfBounds(0x10000) for a pulled 0xFFFF. -/
def Obligations.RtsGoesPastThePulledAddress : Prop :=
  ∀ (s : State), PullOk s 2 →
    (AddressOk s ((slotAbove s s 1).toNat + 256 * (slotAbove s s 2).toNat + 1 : Nat) →
      exec .rts s = .next { s with
        sp := s.sp + 2
        pc := BitVec.ofNat 16 ((slotAbove s s 1).toNat + 256 * (slotAbove s s 2).toNat + 1) }) ∧
    (¬ AddressOk s ((slotAbove s s 1).toNat + 256 * (slotAbove s s 2).toNat + 1 : Nat) →
      exec .rts s = .fault (.memoryOutOfBounds 0x10000))

/-- 48_control_stack.md R316, 60_exceptions.md R412 (the spec's decisions D13, D16): RTI pulls the status, bit 5 cleared, and
then the return address, with nothing added. -/
def Obligations.RtiRestoresStatusAndPc : Prop :=
  ∀ (s : State), PullOk s 3 →
    exec .rti s = .next { s with
      sp := s.sp + 3
      p := slotAbove s s 1 &&& 0xDF
      pc := BitVec.ofNat 16 ((slotAbove s s 2).toNat + 256 * (slotAbove s s 3).toNat) }

/-- 49_unlisted.md R330 to R332 (general knowledge, log 18): STA in 7, STX and STY in 3 modes store the register at the cell
and change nothing else. -/
def Obligations.StoresWriteTheRegister : Prop :=
  ∀ (i : Instr) (m : MemMode) (s : State), i.form = .mem m → AddressOk s (exactAddress m s) →
    (i.mnemonic = .sta → exec i s = .next (s.writeByte (cellOf m s) s.a)) ∧
    (i.mnemonic = .stx → exec i s = .next (s.writeByte (cellOf m s) s.x)) ∧
    (i.mnemonic = .sty → exec i s = .next (s.writeByte (cellOf m s) s.y))

/-- 49_unlisted.md R333 to R338 (general knowledge, log 18): TAX, TAY, TXA, TYA, TSX with Z and N, TXS without. -/
def Obligations.TransfersCopyRegisters : Prop :=
  ∀ (s : State),
    (∃ t, exec .tax s = .next t ∧ t.x = s.a ∧ ZNOf s.a t) ∧
    (∃ t, exec .tay s = .next t ∧ t.y = s.a ∧ ZNOf s.a t) ∧
    (∃ t, exec .txa s = .next t ∧ t.a = s.x ∧ ZNOf s.x t) ∧
    (∃ t, exec .tya s = .next t ∧ t.a = s.y ∧ ZNOf s.y t) ∧
    (∃ t, exec .tsx s = .next t ∧ t.x = s.sp ∧ ZNOf s.sp t) ∧
    exec .txs s = .next { s with sp := s.x }

/-- 49_unlisted.md R342 (general knowledge, log 18): NOP changes nothing but the PC advance the fetch has made. -/
def Obligations.NopOnlyAdvances : Prop :=
  ∀ (s : State), exec .nop s = .next s

/-! ### Pairs of instructions -/

/-- 48_control_stack.md R311's corner case (the spec's derivation): an RTS after a JSR, in the state the JSR left, returns to
the instruction after the JSR with the stack pointer and the other registers as before. -/
def Obligations.RtsReturnsAfterJsr : Prop :=
  ∀ (s t : State) (w : Word), exec (.jsr w) s = .next t → exec .rts t = .next { t with pc := s.pc, sp := s.sp }

/-- 48_control_stack.md R316's corner case, 60_exceptions.md R412 (the spec's derivation): an RTI in the state a BRK left
returns to a + 2 with I as before the BRK and B set. -/
def Obligations.RtiReturnsAfterBrk : Prop :=
  ∀ (s t : State), exec .brk s = .next t →
    exec .rti t = .next { t with pc := s.pc + 1, sp := s.sp, p := (s.p ||| 0x10) &&& 0xDF }

/-- 48_control_stack.md R305 to R308 (R308's corner case is the spec's derivation): a pull undoes a push; PHP then PLP sets B. -/
def Obligations.PullUndoesPush : Prop :=
  ∀ (s t : State),
    (exec .pha s = .next t → ∃ u, exec .pla t = .next u ∧ u.a = s.a ∧ u.sp = s.sp ∧ ZNOf s.a u) ∧
    (exec .php s = .next t → exec .plp t = .next { t with sp := s.sp, p := (s.p ||| 0x10) &&& 0xDF })

/-! ### Frames and whole-machine rules -/

/-- 10_state.md R31 to R33: when an instruction answers a next state, A, X, Y and SP change only under the mnemonics (and, for
A, the accumulator form) the spec names as writing them. -/
def Obligations.RegistersChangeOnlyWhereNamed : Prop :=
  ∀ (i : Instr) (s t : State), exec i s = .next t →
    (i.mnemonic ∉ [.lda, .adc, .sbc, .and, .eor, .ora, .pla, .txa, .tya] → i.form ≠ .accumulator → t.a = s.a) ∧
    (i.mnemonic ∉ [.ldx, .inx, .dex, .tax, .tsx] → t.x = s.x) ∧
    (i.mnemonic ∉ [.ldy, .iny, .dey, .tay] → t.y = s.y) ∧
    (i.mnemonic ∉ [.pha, .php, .pla, .plp, .jsr, .rts, .brk, .rti, .txs] → t.sp = s.sp)

/-- 10_state.md R45, R36 (the table is the spec's derivation): every flag a mnemonic's row does not name is unchanged, and bit
5 of P is unchanged but under PLP and RTI. -/
def Obligations.FlagsChangeOnlyWhereNamed : Prop :=
  ∀ (i : Instr) (s t : State), exec i s = .next t →
    (∀ (f : Flag), f ∉ flagsWritten i.mnemonic → t.getFlag f = s.getFlag f) ∧
    (i.mnemonic ∉ [.plp, .rti] → t.p[5] = s.p[5])

/-- 70_reset_and_hazards.md R447: an instruction that is no store, no write-back on memory and no push leaves every byte of
memory as it was; the accumulator forms of the shifts are among them. -/
def Obligations.MemoryUnchangedWithoutAStore : Prop :=
  ∀ (i : Instr) (s t : State), exec i s = .next t →
    i.mnemonic ∉ storingMnemonics ++ pushingMnemonics ∨ i.form = .accumulator →
    ∀ (a : Word), t.readByte a = s.readByte a

/-- 70_reset_and_hazards.md R447, 20_memory.md R81: INC, DEC, ASL, LSR, ROL, ROR on memory, STA, STX, STY change only the byte
at the effective address. -/
def Obligations.StoreChangesOnlyItsCell : Prop :=
  ∀ (i : Instr) (m : MemMode) (s t : State), exec i s = .next t → i.mnemonic ∈ storingMnemonics → i.form = .mem m →
    ∀ (ea : Word), effectiveAddress m s = .ok ea → ∀ (a : Word), a ≠ ea → t.readByte a = s.readByte a

/-- 20_memory.md R70, R71, R73 (page 1: the spec's decision D9): PHA and PHP change only the slot at SP, JSR also the one
below it, BRK also the second below it. -/
def Obligations.PushChangesOnlyItsSlots : Prop :=
  ∀ (i : Instr) (s t : State), exec i s = .next t →
    ∀ (a : Word), a ≠ stackSlot s.sp →
      (i.mnemonic = .pha ∨ i.mnemonic = .php → t.readByte a = s.readByte a) ∧
      (i.mnemonic = .jsr → a ≠ stackSlot (s.sp - 1) → t.readByte a = s.readByte a) ∧
      (i.mnemonic = .brk → a ≠ stackSlot (s.sp - 1) → a ≠ stackSlot (s.sp - 2) → t.readByte a = s.readByte a)

/-- 40_dispatch.md R127: PC changes only at the points of the table, each to the value the table gives; every other
instruction leaves it at the sequential value the fetch has reached. -/
def Obligations.PcChangesOnlyAtTheSequencersPoints : Prop :=
  (∀ (s t : State) (b : Byte), fetchByte s = .ok (b, t) → addr16 s.params (s.pc.toNat + 1) = .ok t.pc) ∧
  ∀ (i : Instr) (s t : State), exec i s = .next t →
    (branchTest i.mnemonic = none → i.mnemonic ∉ [.jmp, .jsr, .rts, .brk, .rti] → t.pc = s.pc) ∧
    (∀ d f b, i.form = .relative d → branchTest i.mnemonic = some (f, b) → s.getFlag f ≠ b → t.pc = s.pc) ∧
    (∀ d f b, i.form = .relative d → branchTest i.mnemonic = some (f, b) → s.getFlag f = b →
      addr16 s.params (s.pc.toNat + d.toInt) = .ok t.pc) ∧
    (∀ w, i = .jmpAbs w ∨ i = .jsr w → t.pc = w) ∧
    (∀ w, i = .jmpInd w → indirectTarget w s = .ok t.pc) ∧
    (i = .rts → addr16 s.params ((slotAbove s s 1).toNat + 256 * (slotAbove s s 2).toNat + 1 : Nat) = .ok t.pc) ∧
    (i = .brk → t.pc.toNat = (s.readByte 0xFFFE).toNat + 256 * (s.readByte 0xFFFF).toNat) ∧
    (i = .rti → t.pc.toNat = (slotAbove s s 2).toNat + 256 * (slotAbove s s 3).toNat)

/-- 10_state.md R46, R47, R51 (the spec's decisions D1, D19): no step writes the parameters. The other clauses are about fields
that are the model's choice: no step writes the run argument (log 6) or the counter of the unspecified states (log 24), each
counts one step, and it leaves a stop reason only as a halted BRK (log 7). -/
def Obligations.StepKeepsParametersAndCounts : Prop :=
  ∀ (s t : State), step s = .next t →
    t.params = s.params ∧ t.onInvalid = s.onInvalid ∧ t.draws = s.draws ∧ t.steps = s.steps + 1 ∧
    (t.stop = none ∨ (t.stop = some .haltedBrk ∧ s.params.brkHalt ≠ .never))

/-- 10_state.md R43, 42_alu.md R175 (the spec's decision D8): D has no effect on any computation. An instruction that does not
push the status answers alike whatever D holds, in everything but D itself. -/
def Obligations.DecimalFlagHasNoEffect : Prop :=
  ∀ (i : Instr) (s t : State) (b : Bool), i.mnemonic ∉ [.php, .brk] → exec i s = .next t →
    ∃ u, exec i (s.setFlag .d b) = .next u ∧ { u with p := t.p } = t ∧
      ∀ (f : Flag), f ≠ .d → u.getFlag f = t.getFlag f

/-! ### Invariants -/

/-- 10_state.md R36, 20_memory.md R60: from every state that meets it, a step keeps the invariant: memory canonical, bit 5 of
P clear. -/
def Obligations.StepKeepsInv : Prop :=
  ∀ (s t : State), s.Inv → step s = .next t → t.Inv

/-- 10_state.md R49, R50, R36: the state right after reset meets the invariant. -/
def Obligations.ResetMeetsInv : Prop := State.reset.Inv

/-- 10_state.md R50, 20_memory.md R64, 70_reset_and_hazards.md R440, R443 (the host's writes: the spec's decision D19): the
host's operations keep the invariant. -/
def Obligations.HostOperationsKeepInv : Prop :=
  ∀ (s : State), s.Inv →
    (∀ (prm : Params), (State.create prm).Inv) ∧
    s.hostReset.Inv ∧
    (∀ (w : RegWrite), (s.hostWrite w).Inv) ∧
    (∀ (bytes : List Byte) (o : Nat) (t : State), s.load bytes o = .ok t → t.Inv) ∧
    (∀ (a : Nat) (v : Byte) (t : State), s.memWrite a v = .ok t → t.Inv)

/-! ### Errors -/

/-- 60_exceptions.md R400 to R406, R414, R420 (the parameters: the spec's decisions D7, D10): a step that ends in an error has
the condition the spec gives that error, with the value it records; no step raises RomTooLarge, and none refuses. That the step
ends in InvalidOpcode only where the run argument is `halt`, and goes on under `skip`, is the model's choice (log 6). -/
def Obligations.StepErrorsHaveTheirCondition : Prop :=
  ∀ (s : State),
    (∀ (r : Refusal), step s ≠ .refused r) ∧
    ∀ (e : Fault), step s = .fault e →
      match e with
      | .invalidOpcode o a =>
        a = s.pc ∧ o = s.readByte s.pc ∧ lookup s.params.unlistedOfficial o = none ∧ s.onInvalid = .halt
      | .memoryOutOfBounds v => s.params.addressWrap = .fault ∧ (v < 0 ∨ 65536 ≤ v)
      | .romTooLarge _ _ => False
      | .stackOverflow sp => s.params.stackWrap = .fault ∧ sp = 0x00
      | .stackUnderflow sp => s.params.stackWrap = .fault ∧ sp = 0xFF

/-- 60_exceptions.md R401, R403, R404, R406, R450 (the spec's decisions D7, D10): under ADDRESS_WRAP = wrap and STACK_WRAP =
wrap every instruction of the table completes, on all operands, in every state. -/
def Obligations.EveryInstructionCompletesUnderWrap : Prop :=
  ∀ (i : Instr) (s : State), s.params.addressWrap = .wrap → s.params.stackWrap = .wrap → ∃ t, exec i s = .next t

/-! ### The host's operations and the run loop -/

/-- 70_reset_and_hazards.md R440, 10_state.md R49: Reset zeroes the registers and leaves memory and the parameters alone. The
state right after reset, a new instance (R50 and R441, the spec's decision D19 and its derivation; log 4, log 23), holds 0x00
in every byte, and a further Reset leaves it as it is (that Reset leaves the bookkeeping alone is log 19's design choice). -/
def Obligations.ResetZeroesTheRegisters : Prop :=
  ∀ (s : State),
    s.hostReset.pc = 0x0000 ∧ s.hostReset.sp = 0x00 ∧ s.hostReset.a = 0x00 ∧ s.hostReset.x = 0x00 ∧
    s.hostReset.y = 0x00 ∧ s.hostReset.p = 0x00 ∧ s.hostReset.mem = s.mem ∧ s.hostReset.params = s.params ∧
    State.reset.hostReset = State.reset ∧ ∀ (a : Word), State.reset.readByte a = 0x00

/-- 20_memory.md R64, 70_reset_and_hazards.md R442 (that a failed load writes nothing: the spec's decision D22): Load copies the
bytes where they fit and changes nothing else; where they do not, RomTooLarge. -/
def Obligations.LoadCopiesExactlyItsRange : Prop :=
  ∀ (s : State) (bytes : List Byte) (o : Nat),
    (65536 < o + bytes.length → s.load bytes o = .error (.romTooLarge o bytes.length)) ∧
    (o + bytes.length ≤ 65536 → ∃ t, s.load bytes o = .ok t ∧ t = { s with mem := t.mem } ∧
      (∀ k (hk : k < bytes.length), Memory.read t.mem (o + k) = bytes[k]) ∧
      ∀ a, a < o ∨ o + bytes.length ≤ a → Memory.read t.mem a = Memory.read s.mem a)

/-- 20_memory.md section 1, the memory accesses of R61 and R62: a read returns the byte last written at its address and changes
nothing; a write changes only its byte. Outside [0, 65536) both raise MemoryOutOfBounds; that they do so under ADDRESS_WRAP =
wrap too is the model's choice (log 25). -/
def Obligations.MemoryReadsTheLastWrite : Prop :=
  ∀ (s : State) (addr : Nat) (v : Byte),
    (65536 ≤ addr → s.memRead addr = .error (.memoryOutOfBounds addr) ∧
      s.memWrite addr v = .error (.memoryOutOfBounds addr)) ∧
    (addr < 65536 → ∃ t, s.memWrite addr v = .ok t ∧ t = { s with mem := t.mem } ∧ t.memRead addr = .ok v ∧
      ∀ b, b ≠ addr → t.memRead b = s.memRead b)

/-- 60_exceptions.md R420, R423, R450 (the spec's decisions D19, D32; the bookkeeping fields: log 6, log 7): a run always ends, within its limit; it stops at the
limit exactly when it has begun that many steps without another reason, and a limit of 0 changes no register and no byte. -/
def Obligations.RunEndsWithinItsLimit : Prop :=
  ∀ (limit : Nat) (o : OnInvalid) (s : State),
    (∃ e, run limit o s = some e ∧ e.n ≤ limit ∧ (e.reason = .stepLimit → e.n = limit) ∧
      (e.reason ≠ .stepLimit → 0 < e.n)) ∧
    run 0 o s = some ⟨.stepLimit, 0, { s with onInvalid := o, steps := 0, stop := some .stepLimit }⟩

/-- 60_exceptions.md R420, R419, R421 (the spec's decisions D27, D32; the bookkeeping: log 7): a run that reached its limit, continued from the state it
left, does what one longer run does. -/
def Obligations.RunContinuesAfterTheLimit : Prop :=
  ∀ (j k n : Nat) (s u : State), runSteps j s = some ⟨.stepLimit, n, u⟩ → runSteps (j + k) s = runSteps k u

/-- 60_exceptions.md R424, R125, R126 (the host's interface and the precision of InvalidOpcode: the spec's decisions D19, D21;
the bookkeeping: log 6, log 7): the host's Step answers an opcode byte without an entry with the error and the exact state,
whatever the last run's `on_invalid` was; otherwise it completes or halts in the state of the step, or answers the step's
error, with the parameters kept. -/
def Obligations.HostStepAnswersTheOutcome : Prop :=
  ∀ (s : State),
    (lookup s.params.unlistedOfficial (s.readByte s.pc) = none → AddressOk s (s.pc.toNat + 1 : Nat) →
      s.hostStep = some ⟨.error (.invalidOpcode (s.readByte s.pc) s.pc),
        { s with pc := s.pc + 1, steps := s.steps + 1, stop := none }⟩) ∧
    (lookup s.params.unlistedOfficial (s.readByte s.pc) ≠ none → ∀ (t : State), step s = .next t →
      s.hostStep = some ⟨if t.stop = some .haltedBrk then .halted else .completed, t⟩) ∧
    ∀ (e : Fault), step s = .fault e →
      ∃ u, s.hostStep = some ⟨.error e, u⟩ ∧ u.params = s.params ∧ u.steps = s.steps + 1

/-- 60_exceptions.md R424, 70_reset_and_hazards.md R444 (the spec's decisions D19, D21, D29): the host may go on after any stop
reason. Whatever a run left, and after a fatal error whatever the free values are (log 5), a Launch of a ROM that fits gives
the registers, the ROM's bytes and the parameters their values, and keeps the invariant. -/
def Obligations.LaunchAfterAnyStop : Prop :=
  ∀ (limit : Nat) (o : OnInvalid) (s : State) (e : RunEnd) (rom : List Byte) (entry : Word),
    run limit o s = some e → rom.length ≤ 32768 →
    ∃ t, e.state.launch rom entry = .ok t ∧ t.pc = entry ∧
      t.sp = 0x00 ∧ t.a = 0x00 ∧ t.x = 0x00 ∧ t.y = 0x00 ∧ t.p = 0x00 ∧ t.params = s.params ∧
      (∀ k (hk : k < rom.length), Memory.read t.mem (0x8000 + k) = rom[k]) ∧ (s.Inv → t.Inv)
end

