-- ==== Sys2Proof/Laws/State.lean ====
section
/-! SUPPORT. One lemma per field per update of the state, so that no proof unfolds a record update. -/

namespace Sys2Proof.Machine

@[simp] theorem State.setFlag_pc (s : State) (f : Flag) (b : Bool) : (s.setFlag f b).pc = s.pc := rfl
@[simp] theorem State.setFlag_sp (s : State) (f : Flag) (b : Bool) : (s.setFlag f b).sp = s.sp := rfl
@[simp] theorem State.setFlag_a (s : State) (f : Flag) (b : Bool) : (s.setFlag f b).a = s.a := rfl
@[simp] theorem State.setFlag_x (s : State) (f : Flag) (b : Bool) : (s.setFlag f b).x = s.x := rfl
@[simp] theorem State.setFlag_y (s : State) (f : Flag) (b : Bool) : (s.setFlag f b).y = s.y := rfl
@[simp] theorem State.setFlag_p (s : State) (f : Flag) (b : Bool) : (s.setFlag f b).p = setBit s.p f.bit b := rfl
@[simp] theorem State.setFlag_mem (s : State) (f : Flag) (b : Bool) : (s.setFlag f b).mem = s.mem := rfl
@[simp] theorem State.setFlag_params (s : State) (f : Flag) (b : Bool) : (s.setFlag f b).params = s.params := rfl
@[simp] theorem State.setFlag_onInvalid (s : State) (f : Flag) (b : Bool) : (s.setFlag f b).onInvalid = s.onInvalid := rfl
@[simp] theorem State.setFlag_steps (s : State) (f : Flag) (b : Bool) : (s.setFlag f b).steps = s.steps := rfl
@[simp] theorem State.setFlag_stop (s : State) (f : Flag) (b : Bool) : (s.setFlag f b).stop = s.stop := rfl
@[simp] theorem State.setFlag_draws (s : State) (f : Flag) (b : Bool) : (s.setFlag f b).draws = s.draws := rfl

@[simp] theorem State.writeP_pc (s : State) (v : Byte) : (s.writeP v).pc = s.pc := rfl
@[simp] theorem State.writeP_sp (s : State) (v : Byte) : (s.writeP v).sp = s.sp := rfl
@[simp] theorem State.writeP_a (s : State) (v : Byte) : (s.writeP v).a = s.a := rfl
@[simp] theorem State.writeP_x (s : State) (v : Byte) : (s.writeP v).x = s.x := rfl
@[simp] theorem State.writeP_y (s : State) (v : Byte) : (s.writeP v).y = s.y := rfl
@[simp] theorem State.writeP_p (s : State) (v : Byte) : (s.writeP v).p = v &&& 0xDF := rfl
@[simp] theorem State.writeP_mem (s : State) (v : Byte) : (s.writeP v).mem = s.mem := rfl
@[simp] theorem State.writeP_params (s : State) (v : Byte) : (s.writeP v).params = s.params := rfl
@[simp] theorem State.writeP_onInvalid (s : State) (v : Byte) : (s.writeP v).onInvalid = s.onInvalid := rfl
@[simp] theorem State.writeP_steps (s : State) (v : Byte) : (s.writeP v).steps = s.steps := rfl
@[simp] theorem State.writeP_stop (s : State) (v : Byte) : (s.writeP v).stop = s.stop := rfl
@[simp] theorem State.writeP_draws (s : State) (v : Byte) : (s.writeP v).draws = s.draws := rfl

@[simp] theorem State.writeByte_pc (s : State) (w : Word) (v : Byte) : (s.writeByte w v).pc = s.pc := rfl
@[simp] theorem State.writeByte_sp (s : State) (w : Word) (v : Byte) : (s.writeByte w v).sp = s.sp := rfl
@[simp] theorem State.writeByte_a (s : State) (w : Word) (v : Byte) : (s.writeByte w v).a = s.a := rfl
@[simp] theorem State.writeByte_x (s : State) (w : Word) (v : Byte) : (s.writeByte w v).x = s.x := rfl
@[simp] theorem State.writeByte_y (s : State) (w : Word) (v : Byte) : (s.writeByte w v).y = s.y := rfl
@[simp] theorem State.writeByte_p (s : State) (w : Word) (v : Byte) : (s.writeByte w v).p = s.p := rfl
@[simp] theorem State.writeByte_mem (s : State) (w : Word) (v : Byte) : (s.writeByte w v).mem = Memory.write s.mem w.toNat v := rfl
@[simp] theorem State.writeByte_params (s : State) (w : Word) (v : Byte) : (s.writeByte w v).params = s.params := rfl
@[simp] theorem State.writeByte_onInvalid (s : State) (w : Word) (v : Byte) : (s.writeByte w v).onInvalid = s.onInvalid := rfl
@[simp] theorem State.writeByte_steps (s : State) (w : Word) (v : Byte) : (s.writeByte w v).steps = s.steps := rfl
@[simp] theorem State.writeByte_stop (s : State) (w : Word) (v : Byte) : (s.writeByte w v).stop = s.stop := rfl
@[simp] theorem State.writeByte_draws (s : State) (w : Word) (v : Byte) : (s.writeByte w v).draws = s.draws := rfl

@[simp] theorem State.setPc_pc (s : State) (w : Word) : (s.setPc w).pc = w := rfl
@[simp] theorem State.setPc_sp (s : State) (w : Word) : (s.setPc w).sp = s.sp := rfl
@[simp] theorem State.setPc_a (s : State) (w : Word) : (s.setPc w).a = s.a := rfl
@[simp] theorem State.setPc_x (s : State) (w : Word) : (s.setPc w).x = s.x := rfl
@[simp] theorem State.setPc_y (s : State) (w : Word) : (s.setPc w).y = s.y := rfl
@[simp] theorem State.setPc_p (s : State) (w : Word) : (s.setPc w).p = s.p := rfl
@[simp] theorem State.setPc_mem (s : State) (w : Word) : (s.setPc w).mem = s.mem := rfl
@[simp] theorem State.setPc_params (s : State) (w : Word) : (s.setPc w).params = s.params := rfl
@[simp] theorem State.setPc_onInvalid (s : State) (w : Word) : (s.setPc w).onInvalid = s.onInvalid := rfl
@[simp] theorem State.setPc_steps (s : State) (w : Word) : (s.setPc w).steps = s.steps := rfl
@[simp] theorem State.setPc_stop (s : State) (w : Word) : (s.setPc w).stop = s.stop := rfl
@[simp] theorem State.setPc_draws (s : State) (w : Word) : (s.setPc w).draws = s.draws := rfl

@[simp] theorem State.setA_pc (s : State) (v : Byte) : (s.setA v).pc = s.pc := rfl
@[simp] theorem State.setA_sp (s : State) (v : Byte) : (s.setA v).sp = s.sp := rfl
@[simp] theorem State.setA_a (s : State) (v : Byte) : (s.setA v).a = v := rfl
@[simp] theorem State.setA_x (s : State) (v : Byte) : (s.setA v).x = s.x := rfl
@[simp] theorem State.setA_y (s : State) (v : Byte) : (s.setA v).y = s.y := rfl
@[simp] theorem State.setA_p (s : State) (v : Byte) : (s.setA v).p = s.p := rfl
@[simp] theorem State.setA_mem (s : State) (v : Byte) : (s.setA v).mem = s.mem := rfl
@[simp] theorem State.setA_params (s : State) (v : Byte) : (s.setA v).params = s.params := rfl
@[simp] theorem State.setA_onInvalid (s : State) (v : Byte) : (s.setA v).onInvalid = s.onInvalid := rfl
@[simp] theorem State.setA_steps (s : State) (v : Byte) : (s.setA v).steps = s.steps := rfl
@[simp] theorem State.setA_stop (s : State) (v : Byte) : (s.setA v).stop = s.stop := rfl
@[simp] theorem State.setA_draws (s : State) (v : Byte) : (s.setA v).draws = s.draws := rfl

@[simp] theorem State.setX_pc (s : State) (v : Byte) : (s.setX v).pc = s.pc := rfl
@[simp] theorem State.setX_sp (s : State) (v : Byte) : (s.setX v).sp = s.sp := rfl
@[simp] theorem State.setX_a (s : State) (v : Byte) : (s.setX v).a = s.a := rfl
@[simp] theorem State.setX_x (s : State) (v : Byte) : (s.setX v).x = v := rfl
@[simp] theorem State.setX_y (s : State) (v : Byte) : (s.setX v).y = s.y := rfl
@[simp] theorem State.setX_p (s : State) (v : Byte) : (s.setX v).p = s.p := rfl
@[simp] theorem State.setX_mem (s : State) (v : Byte) : (s.setX v).mem = s.mem := rfl
@[simp] theorem State.setX_params (s : State) (v : Byte) : (s.setX v).params = s.params := rfl
@[simp] theorem State.setX_onInvalid (s : State) (v : Byte) : (s.setX v).onInvalid = s.onInvalid := rfl
@[simp] theorem State.setX_steps (s : State) (v : Byte) : (s.setX v).steps = s.steps := rfl
@[simp] theorem State.setX_stop (s : State) (v : Byte) : (s.setX v).stop = s.stop := rfl
@[simp] theorem State.setX_draws (s : State) (v : Byte) : (s.setX v).draws = s.draws := rfl

@[simp] theorem State.setY_pc (s : State) (v : Byte) : (s.setY v).pc = s.pc := rfl
@[simp] theorem State.setY_sp (s : State) (v : Byte) : (s.setY v).sp = s.sp := rfl
@[simp] theorem State.setY_a (s : State) (v : Byte) : (s.setY v).a = s.a := rfl
@[simp] theorem State.setY_x (s : State) (v : Byte) : (s.setY v).x = s.x := rfl
@[simp] theorem State.setY_y (s : State) (v : Byte) : (s.setY v).y = v := rfl
@[simp] theorem State.setY_p (s : State) (v : Byte) : (s.setY v).p = s.p := rfl
@[simp] theorem State.setY_mem (s : State) (v : Byte) : (s.setY v).mem = s.mem := rfl
@[simp] theorem State.setY_params (s : State) (v : Byte) : (s.setY v).params = s.params := rfl
@[simp] theorem State.setY_onInvalid (s : State) (v : Byte) : (s.setY v).onInvalid = s.onInvalid := rfl
@[simp] theorem State.setY_steps (s : State) (v : Byte) : (s.setY v).steps = s.steps := rfl
@[simp] theorem State.setY_stop (s : State) (v : Byte) : (s.setY v).stop = s.stop := rfl
@[simp] theorem State.setY_draws (s : State) (v : Byte) : (s.setY v).draws = s.draws := rfl

@[simp] theorem State.setSp_pc (s : State) (v : Byte) : (s.setSp v).pc = s.pc := rfl
@[simp] theorem State.setSp_sp (s : State) (v : Byte) : (s.setSp v).sp = v := rfl
@[simp] theorem State.setSp_a (s : State) (v : Byte) : (s.setSp v).a = s.a := rfl
@[simp] theorem State.setSp_x (s : State) (v : Byte) : (s.setSp v).x = s.x := rfl
@[simp] theorem State.setSp_y (s : State) (v : Byte) : (s.setSp v).y = s.y := rfl
@[simp] theorem State.setSp_p (s : State) (v : Byte) : (s.setSp v).p = s.p := rfl
@[simp] theorem State.setSp_mem (s : State) (v : Byte) : (s.setSp v).mem = s.mem := rfl
@[simp] theorem State.setSp_params (s : State) (v : Byte) : (s.setSp v).params = s.params := rfl
@[simp] theorem State.setSp_onInvalid (s : State) (v : Byte) : (s.setSp v).onInvalid = s.onInvalid := rfl
@[simp] theorem State.setSp_steps (s : State) (v : Byte) : (s.setSp v).steps = s.steps := rfl
@[simp] theorem State.setSp_stop (s : State) (v : Byte) : (s.setSp v).stop = s.stop := rfl
@[simp] theorem State.setSp_draws (s : State) (v : Byte) : (s.setSp v).draws = s.draws := rfl

@[simp] theorem State.beginStep_pc (s : State) : (s.beginStep).pc = s.pc := rfl
@[simp] theorem State.beginStep_sp (s : State) : (s.beginStep).sp = s.sp := rfl
@[simp] theorem State.beginStep_a (s : State) : (s.beginStep).a = s.a := rfl
@[simp] theorem State.beginStep_x (s : State) : (s.beginStep).x = s.x := rfl
@[simp] theorem State.beginStep_y (s : State) : (s.beginStep).y = s.y := rfl
@[simp] theorem State.beginStep_p (s : State) : (s.beginStep).p = s.p := rfl
@[simp] theorem State.beginStep_mem (s : State) : (s.beginStep).mem = s.mem := rfl
@[simp] theorem State.beginStep_params (s : State) : (s.beginStep).params = s.params := rfl
@[simp] theorem State.beginStep_onInvalid (s : State) : (s.beginStep).onInvalid = s.onInvalid := rfl
@[simp] theorem State.beginStep_steps (s : State) : (s.beginStep).steps = s.steps + 1 := rfl
@[simp] theorem State.beginStep_stop (s : State) : (s.beginStep).stop = none := rfl
@[simp] theorem State.beginStep_draws (s : State) : (s.beginStep).draws = s.draws := rfl

@[simp] theorem State.setZN_pc (s : State) (v : Byte) : (s.setZN v).pc = s.pc := rfl
@[simp] theorem State.setZN_sp (s : State) (v : Byte) : (s.setZN v).sp = s.sp := rfl
@[simp] theorem State.setZN_a (s : State) (v : Byte) : (s.setZN v).a = s.a := rfl
@[simp] theorem State.setZN_x (s : State) (v : Byte) : (s.setZN v).x = s.x := rfl
@[simp] theorem State.setZN_y (s : State) (v : Byte) : (s.setZN v).y = s.y := rfl
@[simp] theorem State.setZN_mem (s : State) (v : Byte) : (s.setZN v).mem = s.mem := rfl
@[simp] theorem State.setZN_params (s : State) (v : Byte) : (s.setZN v).params = s.params := rfl
@[simp] theorem State.setZN_onInvalid (s : State) (v : Byte) : (s.setZN v).onInvalid = s.onInvalid := rfl
@[simp] theorem State.setZN_steps (s : State) (v : Byte) : (s.setZN v).steps = s.steps := rfl
@[simp] theorem State.setZN_stop (s : State) (v : Byte) : (s.setZN v).stop = s.stop := rfl
@[simp] theorem State.setZN_draws (s : State) (v : Byte) : (s.setZN v).draws = s.draws := rfl

@[simp] theorem State.setCompare_pc (s : State) (r m : Byte) : (s.setCompare r m).pc = s.pc := rfl
@[simp] theorem State.setCompare_sp (s : State) (r m : Byte) : (s.setCompare r m).sp = s.sp := rfl
@[simp] theorem State.setCompare_a (s : State) (r m : Byte) : (s.setCompare r m).a = s.a := rfl
@[simp] theorem State.setCompare_x (s : State) (r m : Byte) : (s.setCompare r m).x = s.x := rfl
@[simp] theorem State.setCompare_y (s : State) (r m : Byte) : (s.setCompare r m).y = s.y := rfl
@[simp] theorem State.setCompare_mem (s : State) (r m : Byte) : (s.setCompare r m).mem = s.mem := rfl
@[simp] theorem State.setCompare_params (s : State) (r m : Byte) : (s.setCompare r m).params = s.params := rfl
@[simp] theorem State.setCompare_onInvalid (s : State) (r m : Byte) : (s.setCompare r m).onInvalid = s.onInvalid := rfl
@[simp] theorem State.setCompare_steps (s : State) (r m : Byte) : (s.setCompare r m).steps = s.steps := rfl
@[simp] theorem State.setCompare_stop (s : State) (r m : Byte) : (s.setCompare r m).stop = s.stop := rfl
@[simp] theorem State.setCompare_draws (s : State) (r m : Byte) : (s.setCompare r m).draws = s.draws := rfl

@[simp] theorem State.setArith_pc (s : State) (r : AddResult) : (s.setArith r).pc = s.pc := rfl
@[simp] theorem State.setArith_sp (s : State) (r : AddResult) : (s.setArith r).sp = s.sp := rfl
@[simp] theorem State.setArith_a (s : State) (r : AddResult) : (s.setArith r).a = s.a := rfl
@[simp] theorem State.setArith_x (s : State) (r : AddResult) : (s.setArith r).x = s.x := rfl
@[simp] theorem State.setArith_y (s : State) (r : AddResult) : (s.setArith r).y = s.y := rfl
@[simp] theorem State.setArith_mem (s : State) (r : AddResult) : (s.setArith r).mem = s.mem := rfl
@[simp] theorem State.setArith_params (s : State) (r : AddResult) : (s.setArith r).params = s.params := rfl
@[simp] theorem State.setArith_onInvalid (s : State) (r : AddResult) : (s.setArith r).onInvalid = s.onInvalid := rfl
@[simp] theorem State.setArith_steps (s : State) (r : AddResult) : (s.setArith r).steps = s.steps := rfl
@[simp] theorem State.setArith_stop (s : State) (r : AddResult) : (s.setArith r).stop = s.stop := rfl
@[simp] theorem State.setArith_draws (s : State) (r : AddResult) : (s.setArith r).draws = s.draws := rfl

@[simp] theorem State.writeLoc_pc (s : State) (l : Loc) (v : Byte) : (s.writeLoc l v).pc = s.pc := by cases l <;> rfl
@[simp] theorem State.writeLoc_sp (s : State) (l : Loc) (v : Byte) : (s.writeLoc l v).sp = s.sp := by cases l <;> rfl
@[simp] theorem State.writeLoc_x (s : State) (l : Loc) (v : Byte) : (s.writeLoc l v).x = s.x := by cases l <;> rfl
@[simp] theorem State.writeLoc_y (s : State) (l : Loc) (v : Byte) : (s.writeLoc l v).y = s.y := by cases l <;> rfl
@[simp] theorem State.writeLoc_p (s : State) (l : Loc) (v : Byte) : (s.writeLoc l v).p = s.p := by cases l <;> rfl
@[simp] theorem State.writeLoc_params (s : State) (l : Loc) (v : Byte) : (s.writeLoc l v).params = s.params := by cases l <;> rfl
@[simp] theorem State.writeLoc_onInvalid (s : State) (l : Loc) (v : Byte) : (s.writeLoc l v).onInvalid = s.onInvalid := by cases l <;> rfl
@[simp] theorem State.writeLoc_steps (s : State) (l : Loc) (v : Byte) : (s.writeLoc l v).steps = s.steps := by cases l <;> rfl
@[simp] theorem State.writeLoc_stop (s : State) (l : Loc) (v : Byte) : (s.writeLoc l v).stop = s.stop := by cases l <;> rfl
@[simp] theorem State.writeLoc_draws (s : State) (l : Loc) (v : Byte) : (s.writeLoc l v).draws = s.draws := by cases l <;> rfl

@[simp] theorem State.writeLoc_mem_cell (s : State) (ea : Word) (v : Byte) : s.writeLoc (.mem ea) v = s.writeByte ea v := rfl
@[simp] theorem State.writeLoc_acc (s : State) (v : Byte) : s.writeLoc .acc v = s.setA v := rfl
@[simp] theorem State.readLoc_mem (s : State) (ea : Word) : s.readLoc (.mem ea) = s.readByte ea := rfl
@[simp] theorem State.readLoc_acc (s : State) : s.readLoc .acc = s.a := rfl

@[simp] theorem enterHandler_pc (i : Bool) (s : State) : (enterHandler i s).pc = s.readWord brkVectorLow brkVectorHigh := rfl
@[simp] theorem enterHandler_sp (i : Bool) (s : State) : (enterHandler i s).sp = s.sp := rfl
@[simp] theorem enterHandler_a (i : Bool) (s : State) : (enterHandler i s).a = s.a := rfl
@[simp] theorem enterHandler_x (i : Bool) (s : State) : (enterHandler i s).x = s.x := rfl
@[simp] theorem enterHandler_y (i : Bool) (s : State) : (enterHandler i s).y = s.y := rfl
@[simp] theorem enterHandler_mem (i : Bool) (s : State) : (enterHandler i s).mem = s.mem := rfl
@[simp] theorem enterHandler_params (i : Bool) (s : State) : (enterHandler i s).params = s.params := rfl
@[simp] theorem enterHandler_onInvalid (i : Bool) (s : State) : (enterHandler i s).onInvalid = s.onInvalid := rfl
@[simp] theorem enterHandler_steps (i : Bool) (s : State) : (enterHandler i s).steps = s.steps := rfl
@[simp] theorem enterHandler_draws (i : Bool) (s : State) : (enterHandler i s).draws = s.draws := rfl
@[simp] theorem enterHandler_stop (i : Bool) (s : State) : (enterHandler i s).stop = if brkHalts s.params.brkHalt i then some .haltedBrk else s.stop := rfl

@[simp] theorem State.setSp_setSp (s : State) (u v : Byte) : (s.setSp u).setSp v = s.setSp v := rfl
@[simp] theorem State.setSp_writeByte (s : State) (a : Word) (u v : Byte) :
    (s.writeByte a u).setSp v = (s.setSp v).writeByte a u := rfl

/-- A flag is read from P alone. -/
theorem State.getFlag_congr {s t : State} (h : s.p = t.p) (f : Flag) : s.getFlag f = t.getFlag f := by
  simp [State.getFlag, h]

/-- A byte is read from the memory alone. -/
theorem State.readByte_congr {s t : State} (h : s.mem = t.mem) (a : Word) : s.readByte a = t.readByte a := by
  simp [State.readByte, h]

end Sys2Proof.Machine
end

