-- ==== Sys2Proof/Laws/Flags.lean ====
section
/-! SUPPORT. What each flag operation does to each flag, and that none touches another bit of P. -/

namespace Sys2Proof.Machine

theorem setBit_getLsbD (v : Byte) (i j : Nat) (b : Bool) (hi : i < 8) :
    (setBit v i b).getLsbD j = if j = i then b else v.getLsbD j := by
  by_cases hj : j < 8
  · by_cases hij : j = i
    · subst hij
      cases b <;> simp [setBit, hj]
    · cases b <;> simp [setBit, hj, hij]
  · have hij : j ≠ i := by omega
    rw [if_neg hij, BitVec.getLsbD_of_ge _ j (Nat.le_of_not_lt hj), BitVec.getLsbD_of_ge _ j (Nat.le_of_not_lt hj)]

theorem Flag.bit_lt (f : Flag) : f.bit < 8 := by cases f <;> decide

theorem Flag.bit_ne_five (f : Flag) : f.bit ≠ 5 := by cases f <;> decide

theorem Flag.bit_inj {f g : Flag} : f.bit = g.bit ↔ f = g := by cases f <;> cases g <;> decide

/-- The flag just written reads back; every other flag is as before. -/
@[simp] theorem State.getFlag_setFlag (s : State) (f g : Flag) (b : Bool) :
    (s.setFlag f b).getFlag g = if g = f then b else s.getFlag g := by
  simp only [State.getFlag, State.setFlag_p, setBit_getLsbD _ _ _ _ f.bit_lt, Flag.bit_inj]

/-- SetZN: Z and N are assigned, the other flags are as before. -/
@[simp] theorem State.getFlag_setZN (s : State) (v : Byte) (g : Flag) :
    (s.setZN v).getFlag g = if g = .n then v.msb else if g = .z then (v == 0) else s.getFlag g := by
  simp [State.setZN]

@[simp] theorem State.getFlag_setCompare (s : State) (r m : Byte) (g : Flag) :
    (s.setCompare r m).getFlag g =
      if g = .n then (subtractByte r m true).result.msb else if g = .z then (r == m)
      else if g = .c then (subtractByte r m true).carry else s.getFlag g := by
  simp [State.setCompare]

@[simp] theorem State.getFlag_setArith (s : State) (r : AddResult) (g : Flag) :
    (s.setArith r).getFlag g =
      if g = .n then r.result.msb else if g = .z then (r.result == 0)
      else if g = .v then r.overflow else if g = .c then r.carry else s.getFlag g := by
  simp [State.setArith]

@[simp] theorem State.getFlag_writeByte (s : State) (w : Word) (v : Byte) (g : Flag) :
    (s.writeByte w v).getFlag g = s.getFlag g := rfl

@[simp] theorem State.getFlag_setPc (s : State) (w : Word) (g : Flag) : (s.setPc w).getFlag g = s.getFlag g := rfl
@[simp] theorem State.getFlag_setSp (s : State) (v : Byte) (g : Flag) : (s.setSp v).getFlag g = s.getFlag g := rfl
@[simp] theorem State.getFlag_setA (s : State) (v : Byte) (g : Flag) : (s.setA v).getFlag g = s.getFlag g := rfl
@[simp] theorem State.getFlag_setX (s : State) (v : Byte) (g : Flag) : (s.setX v).getFlag g = s.getFlag g := rfl
@[simp] theorem State.getFlag_setY (s : State) (v : Byte) (g : Flag) : (s.setY v).getFlag g = s.getFlag g := rfl

@[simp] theorem State.getFlag_writeLoc (s : State) (l : Loc) (v : Byte) (g : Flag) :
    (s.writeLoc l v).getFlag g = s.getFlag g := by cases l <;> rfl

/-- Bit 5 of P is untouched by a flag write. -/
@[simp] theorem setBit_bit5 (p : Byte) (f : Flag) (b : Bool) : (setBit p f.bit b)[5] = p[5] := by
  have h := setBit_getLsbD p f.bit 5 b f.bit_lt
  rw [if_neg f.bit_ne_five.symm] at h
  simpa using h

@[simp] theorem State.setZN_bit5 (s : State) (v : Byte) : (s.setZN v).p[5] = s.p[5] := by
  simp only [State.setZN, State.setFlag_p, setBit_bit5]

@[simp] theorem State.setCompare_bit5 (s : State) (r m : Byte) : (s.setCompare r m).p[5] = s.p[5] := by
  simp only [State.setCompare, State.setFlag_p, setBit_bit5]

@[simp] theorem State.setArith_bit5 (s : State) (r : AddResult) : (s.setArith r).p[5] = s.p[5] := by
  simp only [State.setArith, State.setZN_bit5, State.setFlag_p, setBit_bit5]

@[simp] theorem writeP_bit5 (v : Byte) : (v &&& (0xDF : Byte))[5] = false := by
  simp

/-- A whole write of P loads each named flag from its bit (R308). -/
@[simp] theorem State.getFlag_writeP (s : State) (v : Byte) (g : Flag) : (s.writeP v).getFlag g = v.getLsbD g.bit := by
  cases g <;> simp [State.getFlag, Flag.bit]

/-- When a BRK halts the run (R422). -/
theorem brkHalts_iff (h : BrkHalt) (i : Bool) : brkHalts h i = true ↔ h = .always ∨ (h = .whenISet ∧ i = true) := by
  cases h <;> cases i <;> decide

/-- Entering the handler sets B and I and leaves the other flags (R302). -/
@[simp] theorem getFlag_enterHandler (i : Bool) (s : State) (g : Flag) :
    (enterHandler i s).getFlag g = if g = .i then true else if g = .b then true else s.getFlag g := by
  simp only [enterHandler, State.getFlag_setFlag]
  rfl

@[simp] theorem enterHandler_bit5 (i : Bool) (s : State) : (enterHandler i s).p[5] = s.p[5] := by
  simp only [enterHandler, State.setFlag_p, setBit_bit5]

theorem msb_iff_ge (v : Byte) : v.msb = true ↔ 128 ≤ v.toNat := by
  rw [BitVec.msb_eq_decide]; simp

end Sys2Proof.Machine
end

