-- ==== Sys2Proof/Laws/Memory.lean ====
section
/-! SUPPORT. Memory: a read after a write, and that every operation keeps the canonical form. -/

namespace Sys2Proof.Machine

theorem Memory.read_filter (m : Memory) (a b : Nat) :
    Memory.read (List.filter (fun cell => cell.1 != a) m) b = if b = a then Config.blankByte else Memory.read m b := by
  induction m with
  | nil => simp [Memory.read]
  | cons cell m ih =>
    obtain ⟨c, w⟩ := cell
    by_cases hc : c = a
    · subst hc
      simp only [List.filter_cons, bne_self_eq_false, Bool.false_eq_true, if_false, ih, Memory.read]
      by_cases hb : b = c
      · simp [hb]
      · simp [hb, Ne.symm hb]
    · have : (c != a) = true := by simp [hc]
      simp only [List.filter_cons, this, if_true, Memory.read, ih]
      by_cases hb : c = b
      · subst hb; simp [hc]
      · simp [hb]

theorem Memory.read_insert_self (m : Memory) (a : Nat) (v : Byte) (h : ∀ c ∈ m, c.1 ≠ a) :
    Memory.read (Memory.insert m a v) a = v := by
  induction m with
  | nil => simp [Memory.insert, Memory.read]
  | cons cell m ih =>
    obtain ⟨c, w⟩ := cell
    have hc : c ≠ a := h (c, w) (by simp)
    simp only [Memory.insert]
    split
    · simp [Memory.read]
    · simp [Memory.read, hc, ih fun d hd => h d (by simp [hd])]

theorem Memory.read_insert_other (m : Memory) {a b : Nat} (v : Byte) (hb : b ≠ a) :
    Memory.read (Memory.insert m a v) b = Memory.read m b := by
  induction m with
  | nil => simp [Memory.insert, Memory.read, Ne.symm hb]
  | cons cell m ih =>
    obtain ⟨c, w⟩ := cell
    simp only [Memory.insert]
    split
    · simp [Memory.read, Ne.symm hb]
    · simp only [Memory.read, ih]

/-- A read after a write: the byte written at its address, and every other address as before (R61, R62). -/
theorem Memory.read_write (m : Memory) (a b : Nat) (v : Byte) :
    Memory.read (Memory.write m a v) b = if b = a then v else Memory.read m b := by
  unfold Memory.write
  by_cases hv : v = Config.blankByte
  · simp only [hv, if_true, Memory.read_filter]
  · simp only [hv, if_false]
    by_cases hb : b = a
    · subst hb
      rw [if_pos rfl]
      refine Memory.read_insert_self _ _ _ fun c hc he => ?_
      simp [he] at hc
    · rw [if_neg hb, Memory.read_insert_other _ _ hb, Memory.read_filter, if_neg hb]

theorem Memory.wfFrom_mono {m : Memory} {lo hi : Nat} (h : Memory.wfFrom hi m = true) (hle : lo ≤ hi) :
    Memory.wfFrom lo m = true := by
  cases m with
  | nil => rfl
  | cons cell m =>
    obtain ⟨c, w⟩ := cell
    simp only [Memory.wfFrom, Bool.and_eq_true, decide_eq_true_eq] at h ⊢
    exact ⟨⟨⟨by omega, h.1.1.2⟩, h.1.2⟩, h.2⟩

theorem Memory.wfFrom_filter (p : Host.Cell → Bool) {m : Memory} {lo : Nat} (h : Memory.wfFrom lo m = true) :
    Memory.wfFrom lo (List.filter p m) = true := by
  induction m generalizing lo with
  | nil => rfl
  | cons cell m ih =>
    obtain ⟨c, w⟩ := cell
    simp only [Memory.wfFrom, Bool.and_eq_true, decide_eq_true_eq] at h
    rw [List.filter_cons]
    split
    · simp only [Memory.wfFrom, Bool.and_eq_true, decide_eq_true_eq]
      exact ⟨h.1, ih h.2⟩
    · exact Memory.wfFrom_mono (ih h.2) (by omega)

theorem Memory.wfFrom_insert {m : Memory} {lo a : Nat} {v : Byte} (h : Memory.wfFrom lo m = true)
    (hlo : lo ≤ a) (ha : a < Config.memSize) (hv : v ≠ Config.blankByte) (hn : ∀ c ∈ m, c.1 ≠ a) :
    Memory.wfFrom lo (Memory.insert m a v) = true := by
  induction m generalizing lo with
  | nil => simp [Memory.insert, Memory.wfFrom, hlo, ha, hv]
  | cons cell m ih =>
    obtain ⟨c, w⟩ := cell
    have hca : c ≠ a := hn (c, w) (by simp)
    simp only [Memory.wfFrom, Bool.and_eq_true, decide_eq_true_eq, bne_iff_ne] at h
    simp only [Memory.insert]
    split
    · simp only [Memory.wfFrom, Bool.and_eq_true, decide_eq_true_eq, bne_iff_ne]
      exact ⟨⟨⟨hlo, ha⟩, hv⟩, ⟨⟨by omega, h.1.1.2⟩, h.1.2⟩, h.2⟩
    · simp only [Memory.wfFrom, Bool.and_eq_true, decide_eq_true_eq, bne_iff_ne]
      exact ⟨h.1, ih h.2 (by omega) fun d hd => hn d (by simp [hd])⟩

/-- Every memory write inside the space keeps the canonical form. -/
theorem Memory.wf_write {m : Memory} {a : Nat} (v : Byte) (h : Memory.wf m = true) (ha : a < Config.memSize) :
    Memory.wf (Memory.write m a v) = true := by
  unfold Memory.write Memory.wf
  by_cases hv : v = Config.blankByte
  · simp only [hv, if_true]
    exact Memory.wfFrom_filter _ h
  · simp only [hv, if_false]
    refine Memory.wfFrom_insert (Memory.wfFrom_filter _ h) (Nat.zero_le _) ha hv ?_
    intro c hc he
    simp [he] at hc

theorem Memory.wf_nil : Memory.wf [] = true := rfl

/-- Copying bytes that fit in the space keeps the canonical form. -/
theorem Memory.wf_copy {m : Memory} (bs : List Byte) {o : Nat} (h : Memory.wf m = true)
    (hfit : o + bs.length ≤ Config.memSize) : Memory.wf (Memory.copy m o bs) = true := by
  induction bs generalizing o with
  | nil => exact h
  | cons b bs ih =>
    simp only [List.length_cons] at hfit
    exact Memory.wf_write _ (ih (by omega)) (by omega)

/-- What a memory holds after a copy: the byte at its place, everything outside as before (R64). -/
theorem Memory.read_copy (m : Memory) (bs : List Byte) (o a : Nat) :
    Memory.read (Memory.copy m o bs) a =
      if o ≤ a then (bs[a - o]?).getD (Memory.read m a) else Memory.read m a := by
  induction bs generalizing o with
  | nil => simp [Memory.copy]
  | cons b bs ih =>
    simp only [Memory.copy, Memory.read_write, ih]
    by_cases hao : a = o
    · subst hao; simp
    · by_cases hle : o ≤ a
      · obtain ⟨k, hk⟩ : ∃ k, a - o = k + 1 := ⟨a - o - 1, by omega⟩
        have hk' : a - (o + 1) = k := by omega
        simp [hao, hle, hk, hk', show o + 1 ≤ a by omega]
      · simp [hao, hle, show ¬ o + 1 ≤ a by omega]

/-- Every block of cells inside the space is in canonical form. -/
theorem Memory.wfFrom_ofCells (f : Nat → Byte) {a n : Nat} (hfit : a + n ≤ Config.memSize) :
    Memory.wfFrom a (Memory.ofCells f a n) = true := by
  induction n generalizing a with
  | zero => rfl
  | succ n ih =>
    have hn := ih (a := a + 1) (by omega)
    simp only [Memory.ofCells]
    split
    · exact Memory.wfFrom_mono hn (Nat.le_succ a)
    · simp only [Memory.wfFrom, Bool.and_eq_true, decide_eq_true_eq, bne_iff_ne]
      exact ⟨⟨⟨Nat.le_refl a, by omega⟩, ‹_›⟩, hn⟩

/-- A block of cells holds its byte at each of its addresses, and blank bytes elsewhere. -/
theorem Memory.read_ofCells (f : Nat → Byte) (a n b : Nat) :
    Memory.read (Memory.ofCells f a n) b = if a ≤ b ∧ b < a + n then f b else Config.blankByte := by
  induction n generalizing a with
  | zero => rw [if_neg (by omega)]; rfl
  | succ n ih =>
    have hb : (a ≤ b ∧ b < a + (n + 1)) ↔ a = b ∨ (a + 1 ≤ b ∧ b < a + 1 + n) := by omega
    simp only [Memory.ofCells, hb]
    by_cases hab : a = b
    · subst hab
      split <;> simp_all [Memory.read]
    · split <;> simp [Memory.read, hab, ih]

/-- The machine's read after its write (R61, R62). -/
@[simp] theorem State.readByte_writeByte (s : State) (a b : Word) (v : Byte) :
    (s.writeByte a v).readByte b = if b = a then v else s.readByte b := by
  simp only [State.readByte, State.writeByte_mem, Memory.read_write, BitVec.toNat_inj]

/-- A machine's write keeps the canonical form. -/
theorem State.wf_writeByte {s : State} (a : Word) (v : Byte) (h : Memory.wf s.mem = true) :
    Memory.wf (s.writeByte a v).mem = true := by
  simp only [State.writeByte_mem]
  exact Memory.wf_write v h a.isLt

@[simp] theorem State.readByte_setFlag (s : State) (f : Flag) (b : Bool) (a : Word) :
    (s.setFlag f b).readByte a = s.readByte a := rfl

@[simp] theorem State.readByte_setPc (s : State) (w a : Word) : (s.setPc w).readByte a = s.readByte a := rfl
@[simp] theorem State.readByte_setA (s : State) (v : Byte) (a : Word) : (s.setA v).readByte a = s.readByte a := rfl
@[simp] theorem State.readByte_setX (s : State) (v : Byte) (a : Word) : (s.setX v).readByte a = s.readByte a := rfl
@[simp] theorem State.readByte_setY (s : State) (v : Byte) (a : Word) : (s.setY v).readByte a = s.readByte a := rfl

@[simp] theorem State.readByte_setSp (s : State) (v : Byte) (a : Word) : (s.setSp v).readByte a = s.readByte a := rfl

@[simp] theorem readByte_enterHandler (i : Bool) (s : State) (a : Word) : (enterHandler i s).readByte a = s.readByte a := rfl

@[simp] theorem State.readByte_setZN (s : State) (v : Byte) (a : Word) : (s.setZN v).readByte a = s.readByte a := rfl

@[simp] theorem State.readByte_writeP (s : State) (v : Byte) (a : Word) : (s.writeP v).readByte a = s.readByte a := rfl

@[simp] theorem State.readByte_setCompare (s : State) (r m : Byte) (a : Word) :
    (s.setCompare r m).readByte a = s.readByte a := rfl

@[simp] theorem State.readByte_setArith (s : State) (r : AddResult) (a : Word) :
    (s.setArith r).readByte a = s.readByte a := rfl

end Sys2Proof.Machine
end

