-- ==== Sys2Proof/Laws/Ops.lean ====
section
/-! SUPPORT. What each shared operation answers, said once: address narrowing, the operand resolvers, the stack, the trap. -/

namespace Sys2Proof.Machine

theorem orFault_next {α : Type} {r : Except Fault α} {k : α → Out} {t : State} :
    orFault r k = .next t ↔ ∃ v, r = .ok v ∧ k v = .next t := by
  cases r <;> simp [orFault]

@[simp] theorem orFault_ok {α : Type} (v : α) (k : α → Out) : orFault (.ok v) k = k v := rfl

@[simp] theorem orFault_error {α : Type} (e : Fault) (k : α → Out) : orFault (.error e) k = .fault e := rfl

/-! ### Addresses -/

theorem addr16_ok {s : State} {v : Int} (h : AddressOk s v) : addr16 s.params v = .ok (BitVec.ofInt 16 v) := by
  unfold addr16
  rcases h with h | h
  · split
    · rfl
    · simp [h]
  · rw [if_pos]
    exact ⟨h.1, by simp only [Config.memSize]; omega⟩

theorem addr16_error {s : State} {v : Int} (h : ¬ AddressOk s v) : addr16 s.params v = .error (.memoryOutOfBounds v) := by
  unfold addr16
  have h1 : s.params.addressWrap = .fault := by
    cases hw : s.params.addressWrap
    · rfl
    · exact absurd (Or.inl hw) h
  have h2 : ¬ (0 ≤ v ∧ v.toNat < Config.memSize) := by
    simp only [Config.memSize]
    exact fun hv => h (Or.inr (by omega))
  rw [if_neg h2, h1]

/-- An address that is no negative number is accepted if it lies in the space, or ADDRESS_WRAP is wrap. -/
theorem AddressOk_iff (s : State) (n : Nat) : AddressOk s n ↔ s.params.addressWrap = .wrap ∨ n < 65536 := by
  unfold AddressOk
  exact or_congr_right ⟨fun h => by omega, fun h => by omega⟩

/-- Everything `addr16` can answer (R13). -/
theorem addr16_cases (s : State) (v : Int) :
    (AddressOk s v ∧ addr16 s.params v = .ok (BitVec.ofInt 16 v)) ∨
    (¬ AddressOk s v ∧ addr16 s.params v = .error (.memoryOutOfBounds v)) := by
  by_cases h : AddressOk s v
  · exact .inl ⟨h, addr16_ok h⟩
  · exact .inr ⟨h, addr16_error h⟩

theorem word_toNat (lo hi : Byte) : (word lo hi).toNat = lo.toNat + 256 * hi.toNat := by
  simp only [word, BitVec.toNat_append]
  have := lo.isLt
  rw [← Nat.shiftLeft_add_eq_or_of_lt (by omega), Nat.shiftLeft_eq]
  omega

theorem lowByte_toNat (w : Word) : (lowByte w).toNat = w.toNat % 256 := by
  simp [lowByte, BitVec.extractLsb'_toNat]

theorem highByte_toNat (w : Word) : (highByte w).toNat = w.toNat / 256 := by
  have := w.isLt
  simp only [highByte, BitVec.extractLsb'_toNat, Nat.shiftRight_eq_div_pow]
  omega

/-- A 16-bit value is its two bytes (R65). -/
@[simp] theorem word_low_high (w : Word) : word (lowByte w) (highByte w) = w := by
  apply BitVec.eq_of_toNat_eq
  rw [word_toNat, lowByte_toNat, highByte_toNat]
  omega

@[simp] theorem lowByte_word (lo hi : Byte) : lowByte (word lo hi) = lo := by
  apply BitVec.eq_of_toNat_eq
  rw [lowByte_toNat, word_toNat]
  have := lo.isLt
  omega

@[simp] theorem highByte_word (lo hi : Byte) : highByte (word lo hi) = hi := by
  apply BitVec.eq_of_toNat_eq
  rw [highByte_toNat, word_toNat]
  have := lo.isLt
  omega

theorem word_inj {a b c d : Byte} : word a b = word c d ↔ a = c ∧ b = d := by
  constructor
  · intro h
    exact ⟨by simpa using congrArg lowByte h, by simpa using congrArg highByte h⟩
  · rintro ⟨rfl, rfl⟩; rfl

theorem ofInt16_natCast (n : Nat) : BitVec.ofInt 16 (n : Int) = BitVec.ofNat 16 n := by
  simp

/-- A 16-bit value put together from two bytes as a number. -/
theorem ofNat_word (lo hi : Byte) : BitVec.ofNat 16 (lo.toNat + 256 * hi.toNat) = word lo hi := by
  apply BitVec.eq_of_toNat_eq
  rw [word_toNat, BitVec.toNat_ofNat]
  have := lo.isLt
  have := hi.isLt
  omega

/-- The address before PC, narrowed (R310). -/
theorem ofInt16_pred (w : Word) : BitVec.ofInt 16 ((w.toNat : Int) - 1) = w - 1 := by
  apply BitVec.eq_of_toInt_eq
  rw [BitVec.toInt_sub, BitVec.toInt_ofInt, BitVec.toInt_eq_toNat_bmod]
  simp

/-- The address after PC, narrowed. -/
theorem ofInt16_succ (w : Word) : BitVec.ofInt 16 ((w.toNat : Int) + 1) = w + 1 := by
  rw [show ((w.toNat : Int) + 1) = ((w.toNat + 1 : Nat) : Int) by push_cast; rfl, ofInt16_natCast]
  apply BitVec.eq_of_toNat_eq
  simp

theorem zeroPage_eq (z : Byte) : zeroPage z = BitVec.ofNat 16 z.toNat := by
  apply BitVec.eq_of_toNat_eq
  rw [zeroPage, word_toNat]
  have := z.isLt
  simp
  omega

theorem zeroPagePointer_toNat (s : State) (z : Byte) : (s.zeroPagePointer z).toNat = zeroPageWord s z.toNat := by
  have h1 : (zeroPage z).toNat = z.toNat % 256 := by
    rw [zeroPage, word_toNat]; have := z.isLt; simp; omega
  have h2 : (zeroPage (z + 1)).toNat = (z.toNat + 1) % 256 := by
    rw [zeroPage, word_toNat]; simp [BitVec.toNat_add]
  rw [State.zeroPagePointer, State.readWord, word_toNat, State.readByte, State.readByte, h1, h2]
  rfl

theorem zeroPageWord_mod (s : State) (n : Nat) : zeroPageWord s (n % 256) = zeroPageWord s n := by
  simp [zeroPageWord, zeroPageByte]

/-- Everything the memory modes can answer: the exact sum of the spec's table, narrowed or out of bounds (R152). -/
theorem effectiveAddress_eq (m : MemMode) (s : State) :
    effectiveAddress m s = addr16 s.params (exactAddress m s) := by
  have key (n : Nat) (hn : n < 65536) : addr16 s.params (n : Int) = .ok (BitVec.ofNat 16 n) := by
    rw [addr16_ok (.inr ⟨by omega, by omega⟩), ofInt16_natCast]
  have ptr (z : Byte) : (.ok (s.zeroPagePointer z) : Except Fault Word) = addr16 s.params (zeroPageWord s z.toNat : Nat) := by
    rw [← zeroPagePointer_toNat, key _ (s.zeroPagePointer z).isLt]
    simp
  cases m with
  | zeroPage z =>
    have := z.isLt
    simp only [effectiveAddress, exactAddress]
    rw [key _ (by omega), zeroPage_eq]
  | zeroPageX z =>
    simp only [effectiveAddress, exactAddress]
    rw [key _ (by omega), zeroPage_eq, BitVec.toNat_add]
  | zeroPageY z =>
    simp only [effectiveAddress, exactAddress]
    rw [key _ (by omega), zeroPage_eq, BitVec.toNat_add]
  | absolute w =>
    simp only [effectiveAddress, exactAddress]
    rw [key _ w.isLt]; simp
  | absoluteX w => simp [effectiveAddress, exactAddress]
  | absoluteY w => simp [effectiveAddress, exactAddress]
  | indirectX z =>
    simp only [effectiveAddress, exactAddress]
    rw [ptr, BitVec.toNat_add, show 2 ^ 8 = 256 from rfl, zeroPageWord_mod]
  | indirectY z => simp [effectiveAddress, exactAddress, zeroPagePointer_toNat]

theorem effectiveAddress_ok {m : MemMode} {s : State} (h : AddressOk s (exactAddress m s)) :
    effectiveAddress m s = .ok (cellOf m s) := by
  rw [effectiveAddress_eq, addr16_ok h, cellOf]

theorem effectiveAddress_error {m : MemMode} {s : State} (h : ¬ AddressOk s (exactAddress m s)) :
    effectiveAddress m s = .error (.memoryOutOfBounds (exactAddress m s)) := by
  rw [effectiveAddress_eq, addr16_error h]

/-! ### Results -/

/-- SetZN gives Z and N the values of its byte (R40). -/
theorem znOf_setZN (s : State) (v : Byte) : ZNOf v (s.setZN v) := by
  constructor
  · simp [← BitVec.toNat_inj]
  · simp [BitVec.msb_eq_decide]

/-! ### Operands -/

theorem sourceValue_ok {src : Source} {s : State} (h : SourceOk src s) : sourceValue src s = .ok (sourceByte src s) := by
  cases src with
  | imm v => rfl
  | mem m => simp [sourceValue, effectiveAddress_ok h, sourceByte]

/-- The location a reachable target designates. -/
def locOf (tgt : Target) (s : State) : Loc :=
  match tgt with
  | .acc => .acc
  | .mem m => .mem (cellOf m s)

theorem resolveLoc_ok {tgt : Target} {s : State} (h : TargetOk tgt s) : resolveLoc tgt s = .ok (locOf tgt s) := by
  cases tgt with
  | acc => rfl
  | mem m => simp [resolveLoc, effectiveAddress_ok h, locOf]

theorem withSource_ok {src : Source} {s : State} (f : Byte → State) (h : SourceOk src s) :
    withSource src s f = .next (f (sourceByte src s)) := by
  rw [withSource, sourceValue_ok h, orFault_ok]

theorem withLoc_ok {tgt : Target} {s : State} (f : Loc → State) (h : TargetOk tgt s) :
    withLoc tgt s f = .next (f (locOf tgt s)) := by
  rw [withLoc, resolveLoc_ok h, orFault_ok]

/-- A read instruction that answers a next state read a value and answers its function of it. -/
theorem withSource_next {src : Source} {s t : State} {f : Byte → State} (h : withSource src s f = .next t) :
    ∃ v, sourceValue src s = .ok v ∧ t = f v := by
  obtain ⟨v, hv, ht⟩ := orFault_next.1 h
  exact ⟨v, hv, (Host.Outcome.next.inj ht).symm⟩

/-- An instruction on a location that answers a next state resolved it and answers its function of it. -/
theorem withLoc_next {tgt : Target} {s t : State} {f : Loc → State} (h : withLoc tgt s f = .next t) :
    ∃ l, resolveLoc tgt s = .ok l ∧ t = f l := by
  obtain ⟨l, hl, ht⟩ := orFault_next.1 h
  exact ⟨l, hl, (Host.Outcome.next.inj ht).symm⟩

theorem readLoc_locOf (tgt : Target) (s t : State) : t.readLoc (locOf tgt s) = byteAt tgt s t := by
  cases tgt <;> rfl

/-! ### The stack -/

@[simp] theorem stackSlot_inj {a b : Byte} : stackSlot a = stackSlot b ↔ a = b := by simp [stackSlot, word_inj]

/-- The stack page does not hold the BRK vector (R69, R70). -/
theorem vector_ne_stackSlot (k : Byte) : brkVectorLow ≠ stackSlot k ∧ brkVectorHigh ≠ stackSlot k := by
  constructor <;>
  · intro h
    have := congrArg highByte h
    rw [stackSlot, highByte_word] at this
    revert this
    decide

/-- The slot `k` above SP as an address of the machine. -/
theorem slotAbove_eq (s t : State) (k : Nat) :
    slotAbove s t k = t.readByte (stackSlot (s.sp + BitVec.ofNat 8 k)) := by
  unfold slotAbove State.readByte stackSlot
  rw [word_toNat]
  congr 1
  rw [BitVec.toNat_add, BitVec.toNat_ofNat, show ((0x01 : Byte).toNat) = 1 from rfl]
  omega

/-- The slot `k` below SP as an address of the machine. -/
theorem slotBelow_eq (s t : State) {k : Nat} (hk : k < 256) :
    slotBelow s t k = t.readByte (stackSlot (s.sp - BitVec.ofNat 8 k)) := by
  unfold slotBelow State.readByte stackSlot
  rw [word_toNat]
  congr 1
  rw [BitVec.toNat_sub, BitVec.toNat_ofNat, show ((0x01 : Byte).toNat) = 1 from rfl]
  have := s.sp.isLt
  omega

theorem push_ok {s : State} (v : Byte) (h : PushOk s 1) :
    push v s = .ok (State.writeByte (s.setSp (s.sp - 1)) (stackSlot s.sp) v) := by
  unfold push
  rw [if_neg]
  rintro ⟨hf, h0⟩
  rcases h with h | h
  · simp [h] at hf
  · simp [h0] at h

theorem push_error {s : State} (v : Byte) (h : ¬ PushOk s 1) : push v s = .error (.stackOverflow 0x00) := by
  unfold push
  have h1 : s.params.stackWrap = .fault := by
    cases hw : s.params.stackWrap
    · exact absurd (Or.inl hw) h
    · rfl
  have h0 : s.sp = 0x00 := by
    have : ¬ 1 ≤ s.sp.toNat := fun hp => h (Or.inr hp)
    exact BitVec.eq_of_toNat_eq (by simp; omega)
  rw [if_pos ⟨h1, h0⟩, h0]

/-- Everything `Push` can answer (R71, R403). -/
theorem push_cases (s : State) (v : Byte) :
    (PushOk s 1 ∧ push v s = .ok (State.writeByte (s.setSp (s.sp - 1)) (stackSlot s.sp) v)) ∨
    (¬ PushOk s 1 ∧ push v s = .error (.stackOverflow 0x00)) := by
  by_cases h : PushOk s 1
  · exact .inl ⟨h, push_ok v h⟩
  · exact .inr ⟨h, push_error v h⟩

theorem pull_ok {s : State} (h : PullOk s 1) :
    pull s = .ok (s.readByte (stackSlot (s.sp + 1)), (s.setSp (s.sp + 1))) := by
  unfold pull
  rw [if_neg]
  rintro ⟨hf, h0⟩
  rcases h with h | h
  · simp [h] at hf
  · simp [h0] at h

theorem pull_error {s : State} (h : ¬ PullOk s 1) : pull s = .error (.stackUnderflow 0xFF) := by
  unfold pull
  have h1 : s.params.stackWrap = .fault := by
    cases hw : s.params.stackWrap
    · exact absurd (Or.inl hw) h
    · rfl
  have h0 : s.sp = 0xFF := by
    have : ¬ s.sp.toNat + 1 ≤ 255 := fun hp => h (Or.inr hp)
    have := s.sp.isLt
    exact BitVec.eq_of_toNat_eq (by simp; omega)
  rw [if_pos ⟨h1, h0⟩, h0]

/-- Everything `Pull` can answer (R72, R404). -/
theorem pull_cases (s : State) :
    (PullOk s 1 ∧ pull s = .ok (s.readByte (stackSlot (s.sp + 1)), (s.setSp (s.sp + 1)))) ∨
    (¬ PullOk s 1 ∧ pull s = .error (.stackUnderflow 0xFF)) := by
  by_cases h : PullOk s 1
  · exact .inl ⟨h, pull_ok h⟩
  · exact .inr ⟨h, pull_error h⟩

theorem PushOk_succ_iff (s t : State) (hp : t.params = s.params) (hs : t.sp = s.sp - 1) {k : Nat} (h1 : PushOk s 1) :
    PushOk s (k + 1) ↔ PushOk t k := by
  unfold PushOk at *
  rw [hp, hs, BitVec.toNat_sub]
  have := s.sp.isLt
  rcases h1 with h1 | h1
  · simp [h1]
  · constructor <;> rintro (h | h)
    · exact .inl h
    · refine .inr ?_; simp; omega
    · exact .inl h
    · refine .inr ?_; simp at h; omega

theorem PullOk_succ_iff (s t : State) (hp : t.params = s.params) (hs : t.sp = s.sp + 1) {k : Nat} (h1 : PullOk s 1) :
    PullOk s (k + 1) ↔ PullOk t k := by
  unfold PullOk at *
  rw [hp, hs, BitVec.toNat_add]
  have := s.sp.isLt
  rcases h1 with h1 | h1
  · simp [h1]
  · constructor <;> rintro (h | h)
    · exact .inl h
    · refine .inr ?_; simp; omega
    · exact .inl h
    · refine .inr ?_; simp at h; omega

/-- What two pushes in a row leave (R73): the high byte at the slot, the low byte below it, SP two lower. -/
theorem push16_ok {s : State} (w : Word) (h : PushOk s 2) :
    push16 w s = .ok (State.writeByte (State.writeByte (s.setSp (s.sp - 2)) (stackSlot s.sp) (highByte w))
      (stackSlot (s.sp - 1)) (lowByte w)) := by
  have h1 : PushOk s 1 := h.imp id (by omega)
  unfold push16
  rw [push_ok _ h1]
  have h2 := (PushOk_succ_iff s (State.writeByte (s.setSp (s.sp - 1)) (stackSlot s.sp) (highByte w)) rfl rfl h1).1 h
  simp only
  rw [push_ok _ h2]
  simp [BitVec.sub_sub]

theorem push16_error {s : State} (w : Word) (h : ¬ PushOk s 2) : push16 w s = .error (.stackOverflow 0x00) := by
  unfold push16
  rcases push_cases s (highByte w) with ⟨h1, hp⟩ | ⟨-, hp⟩
  · rw [hp]
    exact push_error _ fun hc => h ((PushOk_succ_iff s (State.writeByte (s.setSp (s.sp - 1)) (stackSlot s.sp) (highByte w)) rfl rfl h1).2 hc)
  · rw [hp]

theorem pull16_ok {s : State} (h : PullOk s 2) :
    pull16 s = .ok (word (s.readByte (stackSlot (s.sp + 1))) (s.readByte (stackSlot (s.sp + 2))),
      (s.setSp (s.sp + 2))) := by
  have h1 : PullOk s 1 := h.imp id (by omega)
  unfold pull16
  rw [pull_ok h1]
  have h2 := (PullOk_succ_iff s (s.setSp (s.sp + 1)) rfl rfl h1).1 h
  simp only
  rw [pull_ok h2]
  simp [BitVec.add_assoc, State.readByte]

theorem pull16_error {s : State} (h : ¬ PullOk s 2) : pull16 s = .error (.stackUnderflow 0xFF) := by
  unfold pull16
  rcases pull_cases s with ⟨h1, hp⟩ | ⟨-, hp⟩
  · rw [hp]
    simp only
    rw [pull_error fun hc => h ((PullOk_succ_iff s (s.setSp (s.sp + 1)) rfl rfl h1).2 hc)]
  · rw [hp]

/-! ### The trap -/

/-- Inversion of the stack operations: what each leaves when it answers at all. -/
theorem push_next {s t : State} {v : Byte} (h : push v s = .ok t) :
    t = (s.setSp (s.sp - 1)).writeByte (stackSlot s.sp) v := by
  rcases push_cases s v with ⟨_, he⟩ | ⟨_, he⟩ <;> rw [he] at h <;> cases h
  rfl

theorem pull_next {s : State} {r : Byte × State} (h : pull s = .ok r) :
    r = (s.readByte (stackSlot (s.sp + 1)), s.setSp (s.sp + 1)) := by
  rcases pull_cases s with ⟨_, he⟩ | ⟨_, he⟩ <;> rw [he] at h <;> cases h
  rfl

theorem push16_next {s t : State} {w : Word} (h : push16 w s = .ok t) :
    PushOk s 2 ∧ t = ((s.setSp (s.sp - 2)).writeByte (stackSlot s.sp) (highByte w)).writeByte
      (stackSlot (s.sp - 1)) (lowByte w) := by
  by_cases hp : PushOk s 2
  · rw [push16_ok _ hp] at h
    exact ⟨hp, (Except.ok.inj h).symm⟩
  · rw [push16_error _ hp] at h
    cases h

theorem pull16_next {s : State} {r : Word × State} (h : pull16 s = .ok r) :
    PullOk s 2 ∧ r = (word (s.readByte (stackSlot (s.sp + 1))) (s.readByte (stackSlot (s.sp + 2))), s.setSp (s.sp + 2)) := by
  by_cases hp : PullOk s 2
  · rw [pull16_ok hp] at h
    exact ⟨hp, (Except.ok.inj h).symm⟩
  · rw [pull16_error hp] at h
    cases h

/-- As many pulls as there were pushes raise no StackUnderflow (R71, R72). -/
theorem PullOk_of_pushes {s t : State} {k : Nat} (hp : PushOk s k) (h1 : t.params = s.params)
    (h2 : t.sp = s.sp - BitVec.ofNat 8 k) : PullOk t k := by
  unfold PullOk PushOk at *
  rw [h1, h2, BitVec.toNat_sub, BitVec.toNat_ofNat]
  have := s.sp.isLt
  exact hp.imp_right fun h => by omega

/-- What taking the trap leaves where it completes (R302, R411). -/
theorem takeTrap_ok {s : State} (ha : AddressOk s (s.pc.toNat + 1 : Nat)) (h : PushOk s 3) :
    takeTrap s = .next (enterHandler (s.getFlag .i)
      (State.writeByte (State.writeByte (State.writeByte (s.setSp (s.sp - 3))
        (stackSlot s.sp) (highByte (s.pc + 1))) (stackSlot (s.sp - 1)) (lowByte (s.pc + 1)))
        (stackSlot (s.sp - 2)) (pushedStatus s.p))) := by
  have h1 : PushOk s 1 := h.imp id (by omega)
  have h2 : PushOk s 2 := h.imp id (by omega)
  have h3 : PushOk (State.writeByte (State.writeByte (s.setSp (s.sp - 2)) (stackSlot s.sp) (highByte (s.pc + 1)))
      (stackSlot (s.sp - 1)) (lowByte (s.pc + 1))) 1 := by
    unfold PushOk at *
    have := s.sp.isLt
    rcases h with h | h
    · exact .inl h
    · refine .inr ?_
      simp only [State.writeByte_sp, State.setSp_sp, BitVec.toNat_sub]
      simp
      omega
  have ha' := addr16_ok ha
  push_cast at ha'
  rw [ofInt16_succ] at ha'
  unfold takeTrap
  rw [ha', orFault_ok, push16_ok _ h2, orFault_ok, push_ok _ h3, orFault_ok]
  simp [BitVec.sub_sub]

theorem takeTrap_error {s : State} (ha : AddressOk s (s.pc.toNat + 1 : Nat)) (h : ¬ PushOk s 3) :
    takeTrap s = .fault (.stackOverflow 0x00) := by
  have ha' := addr16_ok ha
  push_cast at ha'
  unfold takeTrap
  rw [ha', orFault_ok]
  by_cases h2 : PushOk s 2
  · rw [push16_ok _ h2, orFault_ok, push_error, orFault_error]
    have h1 : PushOk s 1 := h2.imp id (by omega)
    have h3 : PushOk (s.setSp (s.sp - 1)) 1 := (PushOk_succ_iff s (s.setSp (s.sp - 1)) rfl rfl h1).1 h2
    rw [PushOk_succ_iff s (s.setSp (s.sp - 1)) rfl rfl h1,
      PushOk_succ_iff (s.setSp (s.sp - 1)) (s.setSp (s.sp - 1 - 1)) rfl rfl h3] at h
    simpa [PushOk, BitVec.sub_sub] using h
  · rw [push16_error _ h2, orFault_error]

/-- Inversion of taking the trap: where it answers a next state, and which. -/
theorem takeTrap_next {s t : State} (h : takeTrap s = .next t) :
    AddressOk s (s.pc.toNat + 1 : Nat) ∧ PushOk s 3 ∧ t = enterHandler (s.getFlag .i)
      (State.writeByte (State.writeByte (State.writeByte (s.setSp (s.sp - 3))
        (stackSlot s.sp) (highByte (s.pc + 1))) (stackSlot (s.sp - 1)) (lowByte (s.pc + 1)))
        (stackSlot (s.sp - 2)) (pushedStatus s.p)) := by
  by_cases ha : AddressOk s (s.pc.toNat + 1 : Nat)
  · by_cases hp : PushOk s 3
    · exact ⟨ha, hp, Host.Outcome.next.inj (h.symm.trans (takeTrap_ok ha hp))⟩
    · rw [takeTrap_error ha hp] at h
      cases h
  · have ha' := addr16_error ha
    push_cast at ha'
    rw [takeTrap, ha', orFault_error] at h
    cases h

/-- What returning from the trap leaves where it completes (R316, R412). -/
theorem returnFromTrap_ok {s : State} (h : PullOk s 3) :
    returnFromTrap s = .next { s with
      sp := s.sp + 3
      p := s.readByte (stackSlot (s.sp + 1)) &&& 0xDF
      pc := word (s.readByte (stackSlot (s.sp + 2))) (s.readByte (stackSlot (s.sp + 3))) } := by
  have h1 : PullOk s 1 := h.imp id (by omega)
  have h2 : PullOk ((s.setSp (s.sp + 1)).writeP (s.readByte (stackSlot (s.sp + 1)))) 2 :=
    (PullOk_succ_iff s (State.writeP (s.setSp (s.sp + 1)) (s.readByte (stackSlot (s.sp + 1)))) rfl rfl h1).1 h
  unfold returnFromTrap
  rw [pull_ok h1, orFault_ok]
  simp only
  rw [pull16_ok h2, orFault_ok]
  simp [State.writeP, State.setPc, State.setSp, BitVec.add_assoc, State.readByte]

/-- Inversion of the return from the trap: where it answers a next state, and which. -/
theorem returnFromTrap_next {s t : State} (h : returnFromTrap s = .next t) :
    PullOk s 3 ∧ t = { s with
      sp := s.sp + 3
      p := s.readByte (stackSlot (s.sp + 1)) &&& 0xDF
      pc := word (s.readByte (stackSlot (s.sp + 2))) (s.readByte (stackSlot (s.sp + 3))) } := by
  by_cases hp : PullOk s 3
  · exact ⟨hp, Host.Outcome.next.inj (h.symm.trans (returnFromTrap_ok hp))⟩
  · exfalso
    unfold returnFromTrap at h
    rcases pull_cases s with ⟨h1, he⟩ | ⟨_, he⟩
    · rw [he, orFault_ok, pull16_error, orFault_error] at h
      · cases h
      · exact fun hc => hp ((PullOk_succ_iff s
          ((s.setSp (s.sp + 1)).writeP (s.readByte (stackSlot (s.sp + 1)))) rfl rfl h1).2 hc)
    · rw [he, orFault_error] at h
      cases h

end Sys2Proof.Machine
end

