-- ==== Sys2Proof/Laws/Decode.lean ====
section
/-! SUPPORT. The opcode table: its size, that no two rows share an opcode byte, what a lookup finds, and how rows and
encodings agree. -/

namespace Sys2Proof

/-- The table has the 151 rows of R94. -/
theorem opcodeRows_length : opcodeRows.length = 151 := by decide +kernel

/-- No two rows of the table have one opcode byte. -/
theorem opcodeRows_distinct : opcodeRows.Pairwise fun r q => r.opcode ≠ q.opcode := by decide +kernel

theorem find_of_distinct {rows : List OpcodeRow} (p : OpcodeRow → Bool) (h : rows.Pairwise fun r q => r.opcode ≠ q.opcode)
    {r : OpcodeRow} (hr : r ∈ rows) (hp : p r = true) :
    rows.find? (fun q => q.opcode == r.opcode && p q) = some r := by
  induction rows with
  | nil => cases hr
  | cons q rows ih =>
    rw [List.pairwise_cons] at h
    rcases List.mem_cons.1 hr with rfl | hr
    · simp [hp]
    · have hne : (q.opcode == r.opcode) = false := by simpa using h.1 r hr
      rw [List.find?_cons_of_neg (by simp [hne])]
      exact ih h.2 hr

/-- A row of the table is found under its own opcode byte where its set is decoded (R94). -/
theorem lookup_row {unlisted : Bool} {r : OpcodeRow} (hr : r ∈ opcodeRows)
    (hw : (unlisted || r.mnemonic.listed) = true) : lookup unlisted r.opcode = some r :=
  find_of_distinct (fun q => unlisted || q.mnemonic.listed) opcodeRows_distinct hr hw

/-- What a lookup finds is a row of the table with that opcode byte, of a set that is decoded (R94). -/
theorem lookup_some {unlisted : Bool} {b : Byte} {r : OpcodeRow} (h : lookup unlisted b = some r) :
    r ∈ opcodeRows ∧ r.opcode = b ∧ (unlisted || r.mnemonic.listed) = true := by
  refine ⟨List.mem_of_find?_eq_some h, ?_⟩
  have := List.find?_some h
  simpa using this

/-- An opcode byte with no row raises InvalidOpcode, and only that (R97). -/
theorem decode_invalid_iff {unlisted : Bool} {b : Byte} {rest : List Byte} :
    decode unlisted (b :: rest) = .error (.invalidOpcode b) ↔ lookup unlisted b = none := by
  simp only [decode]
  cases hl : lookup unlisted b with
  | none => simp
  | some r =>
    simp only [reduceCtorEq, iff_false]
    cases hf : r.form with
    | none i => simp [Form.takeOperand]
    | byte mk => cases rest <;> simp [Form.takeOperand]
    | word mk =>
      rcases rest with _ | ⟨lo, _ | ⟨hi, rest⟩⟩ <;> simp [Form.takeOperand]

theorem all_of_foldr {rows : List OpcodeRow} {p : OpcodeRow → Prop} (h : rows.foldr (fun r q => p r ∧ q) True) :
    ∀ r ∈ rows, p r := by
  induction rows with
  | nil => exact fun _ hr => nomatch hr
  | cons q rows ih =>
    intro r hr
    rcases List.mem_cons.1 hr with rfl | hr
    · exact h.1
    · exact ih h.2 r hr

/-- What each row of the table makes of operand bytes encodes to the row's opcode and those bytes (R91, R92, R94). -/
theorem row_encodes : ∀ r ∈ opcodeRows, match r.form with
    | .none i => encode i = [r.opcode]
    | .byte mk => ∀ b, encode (mk b) = [r.opcode, b] ∧ (mk b).mnemonic = r.mnemonic
    | .word mk => ∀ w, encode (mk w) = [r.opcode, lowByte w, highByte w] ∧ (mk w).mnemonic = r.mnemonic := by
  apply all_of_foldr
  repeat' first | exact True.intro | apply And.intro
  all_goals first | rfl | exact fun _ => ⟨rfl, rfl⟩

/-- What a row reads encodes back to the bytes it was read from (R93, R94). -/
theorem row_takeOperand {r : OpcodeRow} (hr : r ∈ opcodeRows) (rest bytes : List Byte) (i : Instr)
    (h : r.form.takeOperand bytes = .ok (i, rest)) : encode i ++ rest = r.opcode :: bytes ∧ i.mnemonic = r.mnemonic := by
  have key := row_encodes r hr
  cases hf : r.form with
  | none j =>
    rw [hf] at h key
    obtain ⟨rfl, rfl⟩ := Prod.mk.inj (Except.ok.inj h)
    exact ⟨by rw [key]; rfl, by simp [OpcodeRow.mnemonic, hf, Form.sample]⟩
  | byte mk =>
    rw [hf] at h key
    cases bytes with
    | nil => simp [Form.takeOperand] at h
    | cons b bs =>
      obtain ⟨rfl, rfl⟩ := Prod.mk.inj (Except.ok.inj h)
      exact ⟨by rw [(key b).1]; rfl, (key b).2⟩
  | word mk =>
    rw [hf] at h key
    rcases bytes with _ | ⟨lo, _ | ⟨hi, bs⟩⟩
    · simp [Form.takeOperand] at h
    · simp [Form.takeOperand] at h
    · obtain ⟨rfl, rfl⟩ := Prod.mk.inj (Except.ok.inj h)
      exact ⟨by rw [(key _).1]; simp [Machine.lowByte_word, Machine.highByte_word], (key _).2⟩

/-- Each instruction has its row of the table, whose opcode byte begins the encoding and which reads the operand back. -/
theorem encode_row (i : Instr) (rest : List Byte) :
    ∃ r, opcodeRows[i.ctorIdx]? = some r ∧ r.mnemonic = i.mnemonic ∧
      ∃ tail, encode i ++ rest = r.opcode :: tail ∧ r.form.takeOperand tail = .ok (i, rest) := by
  cases i <;> refine ⟨_, rfl, rfl, _, rfl, ?_⟩ <;>
    first
    | rfl
    | (rename_i w; conv_rhs => rw [← Machine.word_low_high w]
       rfl)

end Sys2Proof
end

