-- ==== Sys2Proof/Laws/Exec.lean ====
section
/-! SUPPORT. The shapes of instructions: each meaning is one shared operation applied to the instruction's operand. A proof
about many instructions cites these instead of taking all 151 arms apart. -/

namespace Sys2Proof.Machine

/-- The operation of each mnemonic that reads an operand value. -/
def readOp : Mnemonic → Option (Source → State → Out)
  | .lda => some opLda | .ldx => some opLdx | .ldy => some opLdy
  | .adc => some opAdc | .sbc => some opSbc | .and => some opAnd | .eor => some opEor | .ora => some opOra
  | .cmp => some opCmp | .cpx => some opCpx | .cpy => some opCpy | .bit => some opBit
  | _ => none

/-- The operation of each mnemonic that works on a location in place. -/
def modifyOp : Mnemonic → Option (Target → State → Out)
  | .asl => some opAsl | .lsr => some opLsr | .rol => some opRol | .ror => some opRor
  | .inc => some opInc | .dec => some opDec
  | _ => none

/-- The register each store writes to memory. -/
def storeOp : Mnemonic → Option (State → Byte)
  | .sta => some State.a | .stx => some State.x | .sty => some State.y
  | _ => none

/-- The instructions of no other shape: the implied ones, JMP and JSR. -/
def isPlain : Instr → Bool
  | .jmpAbs _ | .jmpInd _ | .jsr _ => true
  | i => i.form == .implied

theorem exec_read {i : Instr} {f : Source → State → Out} (h : readOp i.mnemonic = some f) :
    ∃ src, i.form.source = some src ∧ ∀ s, exec i s = f src s := by
  cases i <;> first | (cases h; done) | (cases h; exact ⟨_, rfl, fun _ => rfl⟩)

theorem exec_modify {i : Instr} {f : Target → State → Out} (h : modifyOp i.mnemonic = some f) :
    ∃ tgt, i.form.target = some tgt ∧ ∀ s, exec i s = f tgt s := by
  cases i <;> first | (cases h; done) | (cases h; exact ⟨_, rfl, fun _ => rfl⟩)

theorem exec_store {i : Instr} {f : State → Byte} (h : storeOp i.mnemonic = some f) :
    ∃ m, i.form = .mem m ∧ ∀ s, exec i s = storeAt m (f s) s := by
  cases i <;> first | (cases h; done) | (cases h; exact ⟨_, rfl, fun _ => rfl⟩)

theorem exec_branch {i : Instr} {f : Flag} {b : Bool} (h : branchTest i.mnemonic = some (f, b)) :
    ∃ d, i.form = .relative d ∧ ∀ s, exec i s = branchIf (s.getFlag f == b) d s := by
  cases i <;> first | (cases h; done) | (cases h; refine ⟨_, rfl, fun s => ?_⟩; simp [exec, execBcc, execBcs, execBeq, execBmi, execBne, execBpl, execBvc, execBvs])

/-- Every instruction has one of the five shapes. -/
theorem instr_shape (i : Instr) :
    (∃ f, readOp i.mnemonic = some f) ∨ (∃ f, modifyOp i.mnemonic = some f) ∨ (∃ f, storeOp i.mnemonic = some f) ∨
    (∃ f b, branchTest i.mnemonic = some (f, b)) ∨ isPlain i = true := by
  cases i <;> first
    | exact .inl ⟨_, rfl⟩
    | exact .inr (.inl ⟨_, rfl⟩)
    | exact .inr (.inr (.inl ⟨_, rfl⟩))
    | exact .inr (.inr (.inr (.inl ⟨_, _, rfl⟩)))
    | exact .inr (.inr (.inr (.inr rfl)))

/-! ### What the shared shapes leave -/

/-- A read instruction writes registers and flags only: memory, PC, SP and everything but A, X, Y, P is as before. -/
theorem readOp_frame {mn : Mnemonic} {f : Source → State → Out} {src : Source} {s t : State} (hf : readOp mn = some f)
    (h : f src s = .next t) : t = { s with a := t.a, x := t.x, y := t.y, p := t.p } ∧ t.p[5] = s.p[5] := by
  cases mn <;> first
    | (cases hf; done)
    | (cases hf
       simp only [opLda, opLdx, opLdy, opAdc, opSbc, opAnd, opEor, opOra, opCmp, opCpx, opCpy, opBit] at h
       obtain ⟨v, _, rfl⟩ := withSource_next h
       exact ⟨rfl, by simp⟩)

/-- A write-back instruction writes its location once and flags: everything else is as before. -/
theorem modifyOp_frame {mn : Mnemonic} {f : Target → State → Out} {tgt : Target} {s t : State} (hf : modifyOp mn = some f)
    (h : f tgt s = .next t) :
    ∃ l v, resolveLoc tgt s = .ok l ∧ t = { s.writeLoc l v with p := t.p } ∧ t.p[5] = s.p[5] := by
  cases mn <;> first
    | (cases hf; done)
    | (cases hf
       simp only [opAsl, opLsr, opRol, opRor, opInc, opDec, shiftInPlace, modifyInPlace] at h
       obtain ⟨l, hl, rfl⟩ := withLoc_next h
       cases l <;> exact ⟨_, _, hl, rfl, by simp⟩)

/-! ### Inversion of the stack instructions -/

theorem execJsr_next {s t : State} {w : Word} (h : execJsr w s = .next t) :
    AddressOk s ((s.pc.toNat : Int) - 1) ∧ PushOk s 2 ∧
    t = (((s.setSp (s.sp - 2)).writeByte (stackSlot s.sp) (highByte (s.pc - 1))).writeByte
      (stackSlot (s.sp - 1)) (lowByte (s.pc - 1))).setPc w := by
  obtain ⟨ret, hr, h⟩ := orFault_next.1 h
  obtain ⟨u, hu, h⟩ := orFault_next.1 h
  obtain ⟨hp, rfl⟩ := push16_next hu
  rcases addr16_cases s (s.pc.toNat - 1) with ⟨ha, he⟩ | ⟨_, he⟩
  · rw [he, ofInt16_pred] at hr
    cases hr
    exact ⟨ha, hp, (Host.Outcome.next.inj h).symm⟩
  · rw [he] at hr
    cases hr

theorem execRts_next {s t : State} (h : execRts s = .next t) :
    PullOk s 2 ∧ ∃ target,
      addr16 s.params ((word (s.readByte (stackSlot (s.sp + 1))) (s.readByte (stackSlot (s.sp + 2)))).toNat + 1) = .ok target ∧
      t = (s.setSp (s.sp + 2)).setPc target := by
  obtain ⟨r, hr, h⟩ := orFault_next.1 h
  obtain ⟨hp, rfl⟩ := pull16_next hr
  obtain ⟨target, ht, h⟩ := orFault_next.1 h
  exact ⟨hp, target, ht, (Host.Outcome.next.inj h).symm⟩

theorem pushOne_next {s t : State} {v : Byte} (h : pushOne v s = .next t) :
    t = (s.setSp (s.sp - 1)).writeByte (stackSlot s.sp) v := by
  obtain ⟨u, hu, h⟩ := orFault_next.1 h
  cases h
  exact push_next hu

theorem execPla_next {s t : State} (h : execPla s = .next t) :
    t = State.setZN ((s.setSp (s.sp + 1)).setA (s.readByte (stackSlot (s.sp + 1)))) (s.readByte (stackSlot (s.sp + 1))) := by
  obtain ⟨r, hr, h⟩ := orFault_next.1 h
  cases h
  obtain rfl := pull_next hr
  rfl

theorem execPlp_next {s t : State} (h : execPlp s = .next t) :
    t = (s.setSp (s.sp + 1)).writeP (s.readByte (stackSlot (s.sp + 1))) := by
  obtain ⟨r, hr, h⟩ := orFault_next.1 h
  cases h
  obtain rfl := pull_next hr
  rfl

theorem execJmpInd_next {s t : State} {ptr : Word} (h : execJmpInd ptr s = .next t) :
    ∃ target, indirectTarget ptr s = .ok target ∧ t = s.setPc target := by
  obtain ⟨target, hr, h⟩ := orFault_next.1 h
  exact ⟨target, hr, (Host.Outcome.next.inj h).symm⟩

/-- Inversion of the branch: unchanged when the condition fails, else PC at the accepted target (R270). -/
theorem branchIf_next {s t : State} {cond : Bool} {d : Byte} (h : branchIf cond d s = .next t) :
    (cond = false ∧ t = s) ∨
    (cond = true ∧ ∃ target, addr16 s.params (s.pc.toNat + d.toInt) = .ok target ∧ t = s.setPc target) := by
  unfold branchIf at h
  cases cond
  · exact .inl ⟨rfl, (Host.Outcome.next.inj h).symm⟩
  · obtain ⟨target, hr, h⟩ := orFault_next.1 h
    exact .inr ⟨rfl, target, hr, (Host.Outcome.next.inj h).symm⟩

/-- Inversion of a store (R330). -/
theorem storeAt_next {m : MemMode} {v : Byte} {s t : State} (h : storeAt m v s = .next t) :
    ∃ ea, effectiveAddress m s = .ok ea ∧ t = s.writeByte ea v := by
  obtain ⟨ea, he, h⟩ := orFault_next.1 h
  exact ⟨ea, he, (Host.Outcome.next.inj h).symm⟩

end Sys2Proof.Machine
end

