-- ==== Sys2Proof/Laws/Fetch.lean ====
section
/-! SUPPORT. The fetch: what one byte fetch answers, and everything the fetch of a step can end in. -/

namespace Sys2Proof.Machine

theorem fetchByte_ok {s : State} (h : AddressOk s (s.pc.toNat + 1 : Nat)) :
    fetchByte s = .ok (s.readByte s.pc, { s with pc := s.pc + 1 }) := by
  have ha := addr16_ok h
  push_cast at ha
  rw [ofInt16_succ] at ha
  rw [fetchByte, ha]

theorem fetchByte_error {s : State} (h : ¬ AddressOk s (s.pc.toNat + 1 : Nat)) :
    fetchByte s = .error (.memoryOutOfBounds 0x10000) := by
  have ha := addr16_error h
  rw [AddressOk_iff, not_or] at h
  have hpc : ((s.pc.toNat + 1 : Nat) : Int) = 65536 := by have := s.pc.isLt; omega
  rw [hpc] at ha
  push_cast at hpc
  rw [fetchByte, hpc, ha]

/-- A longer advance is accepted only if each shorter one is (R121). -/
theorem AddressOk_of_le {s : State} {j k : Nat} (hjk : j ≤ k) (h : AddressOk s (s.pc.toNat + k : Nat)) :
    AddressOk s (s.pc.toNat + j : Nat) := by
  rw [AddressOk_iff] at h ⊢
  exact h.imp_right fun h => by omega

/-- After `j` accepted fetches, one more is accepted exactly when the advance by `j + 1` is. -/
theorem AddressOk_advance {s t : State} {j : Nat} (hp : t.params = s.params) (hpc : t.pc = s.pc + BitVec.ofNat 16 j)
    (h : AddressOk s (s.pc.toNat + j : Nat)) (hj : j < 4) :
    AddressOk t (t.pc.toNat + 1 : Nat) ↔ AddressOk s (s.pc.toNat + (j + 1) : Nat) := by
  simp only [AddressOk_iff] at h ⊢
  rw [hp, hpc, BitVec.toNat_add, BitVec.toNat_ofNat]
  have := s.pc.isLt
  rcases h with h | h
  · simp [h]
  · exact or_congr_right ⟨fun _ => by omega, fun _ => by omega⟩

/-- The encoding of an instruction has its length (R93). -/
theorem encode_length (i : Instr) : (encode i).length = i.length := by cases i <;> rfl

/-- Everything the operand fetch can end in: the instruction the bytes decode to with PC past them, or the increment that
left the space (R121, R122). -/
theorem fetchOperand_cases {r : OpcodeRow} (hr : r ∈ opcodeRows) (s : State) :
    ∃ i rest, r.form.takeOperand (s.bytesFrom s.pc 2) = .ok (i, rest) ∧
      ((AddressOk s (s.pc.toNat + (i.length - 1) : Nat) ∧
        fetchOperand r.form s = .instr i { s with pc := s.pc + BitVec.ofNat 16 (i.length - 1) }) ∨
      (¬ AddressOk s (s.pc.toNat + (i.length - 1) : Nat) ∧
        fetchOperand r.form s = .raised (.memoryOutOfBounds 0x10000))) := by
  have hlen := fun bytes rest i h => congrArg List.length (row_takeOperand hr rest bytes i h).1
  cases hf : r.form with
  | none j =>
    refine ⟨j, s.bytesFrom s.pc 2, rfl, .inl ?_⟩
    have hl := hlen (s.bytesFrom s.pc 2) (s.bytesFrom s.pc 2) j (by rw [hf]; rfl)
    simp only [List.length_append, encode_length, List.length_cons] at hl
    rw [show j.length - 1 = 0 by omega]
    have := s.pc.isLt
    refine ⟨.inr (by omega), ?_⟩
    simp [fetchOperand]
  | byte mk =>
    refine ⟨mk (s.readByte s.pc), [s.readByte (s.pc + 1)], rfl, ?_⟩
    have hl := hlen [s.readByte s.pc, s.readByte (s.pc + 1)] [s.readByte (s.pc + 1)] (mk (s.readByte s.pc)) (by rw [hf]; rfl)
    simp only [List.length_append, encode_length, List.length_cons, List.length_nil] at hl
    rw [show (mk (s.readByte s.pc)).length - 1 = 1 by omega]
    by_cases h : AddressOk s (s.pc.toNat + 1 : Nat)
    · exact .inl ⟨h, by simp only [fetchOperand, fetchByte_ok h]; rfl⟩
    · exact .inr ⟨h, by simp only [fetchOperand, fetchByte_error h]⟩
  | word mk =>
    refine ⟨mk (word (s.readByte s.pc) (s.readByte (s.pc + 1))), [], rfl, ?_⟩
    have hl := hlen [s.readByte s.pc, s.readByte (s.pc + 1)] [] (mk (word (s.readByte s.pc) (s.readByte (s.pc + 1))))
      (by rw [hf]; rfl)
    simp only [List.length_append, encode_length, List.length_cons, List.length_nil] at hl
    rw [show (mk (word (s.readByte s.pc) (s.readByte (s.pc + 1)))).length - 1 = 2 by omega]
    by_cases h : AddressOk s (s.pc.toNat + 1 : Nat)
    · have h2 := AddressOk_advance (s := s) (t := { s with pc := s.pc + 1 }) (j := 1) rfl rfl h (by decide)
      by_cases hn : AddressOk s (s.pc.toNat + 2 : Nat)
      · refine .inl ⟨hn, ?_⟩
        simp only [fetchOperand, fetchByte_ok h, fetchByte_ok (h2.2 hn), BitVec.add_assoc]
        rfl
      · exact .inr ⟨hn, by simp only [fetchOperand, fetchByte_ok h, fetchByte_error (mt h2.1 hn)]⟩
    · refine .inr ⟨fun hn => h (AddressOk_of_le (by decide) hn), ?_⟩
      simp only [fetchOperand, fetchByte_error h]

/-- Everything the fetch of a step can end in (R121 to R123, R125): the first increment leaves the space; the opcode byte has
no entry; or the bytes at PC decode and PC has moved past them or left the space. -/
theorem fetchInstr_cases (s : State) :
    (¬ AddressOk s (s.pc.toNat + 1 : Nat) ∧ fetchInstr s = .raised (.memoryOutOfBounds 0x10000)) ∨
    (AddressOk s (s.pc.toNat + 1 : Nat) ∧ lookup s.params.unlistedOfficial (s.readByte s.pc) = none ∧
      fetchInstr s = .invalid (s.readByte s.pc) s.pc { s with pc := s.pc + 1 }) ∨
    (∃ i rest, decode s.params.unlistedOfficial (s.bytesFrom s.pc 3) = .ok (i, rest) ∧
      ((AddressOk s (s.pc.toNat + i.length : Nat) ∧
        fetchInstr s = .instr i { s with pc := s.pc + BitVec.ofNat 16 i.length }) ∨
      (¬ AddressOk s (s.pc.toNat + i.length : Nat) ∧ fetchInstr s = .raised (.memoryOutOfBounds 0x10000)))) := by
  by_cases h : AddressOk s (s.pc.toNat + 1 : Nat)
  · refine .inr ?_
    cases hl : lookup s.params.unlistedOfficial (s.readByte s.pc) with
    | none => exact .inl ⟨h, rfl, by simp only [fetchInstr, fetchByte_ok h, hl]⟩
    | some r =>
      obtain ⟨i, rest, hd, hc⟩ := fetchOperand_cases (lookup_some hl).1 { s with pc := s.pc + 1 }
      obtain ⟨n, hn⟩ : ∃ n, i.length = n + 1 := ⟨i.form.mode.width, Nat.add_comm _ _⟩
      have hn3 : n < 3 := by
        have : i.form.mode.width < 3 := by cases i.form.mode <;> decide
        have : i.length = 1 + i.form.mode.width := rfl
        omega
      have hadv : AddressOk { s with pc := s.pc + 1 } ((s.pc + 1).toNat + n : Nat) ↔
          AddressOk s (s.pc.toNat + (n + 1) : Nat) := by
        simp only [AddressOk_iff] at h ⊢
        have hpc : (s.pc + 1).toNat = (s.pc.toNat + 1) % 65536 := by simp
        rw [hpc]
        have := s.pc.isLt
        rcases h with h | h
        · simp [h]
        · exact or_congr_right ⟨fun _ => by omega, fun _ => by omega⟩
      refine .inr ⟨i, rest, ?_, ?_⟩
      · simp only [State.bytesFrom, decode, hl]
        exact hd
      · simp only [hn, Nat.add_sub_cancel] at hc ⊢
        refine Or.imp (And.imp hadv.1 ?_) (And.imp (mt hadv.2) ?_) hc
        · intro hf
          simp only [fetchInstr, fetchByte_ok h, hl, hf, BitVec.add_assoc]
          rw [BitVec.add_comm 1, show (BitVec.ofNat 16 n + 1) = BitVec.ofNat 16 (n + 1) from (BitVec.ofNat_add n 1).symm]
        · intro hf
          simp only [fetchInstr, fetchByte_ok h, hl, hf]
  · exact .inl ⟨h, by simp only [fetchInstr, fetchByte_error h]⟩

end Sys2Proof.Machine
end

