-- ==== Sys2Proof/Laws/PerInstr.lean ====
section
/-! SUPPORT. The per-instruction family EncodedLength: every instruction's encoding has the length its addressing mode
gives it (spec/30_encoding.md R93), one lemma per constructor. -/

namespace Sys2Proof.Laws.EncodedLength

/-- The encoding is `1 + width(mode)` bytes long (R93). -/
def Statement (i : Instr) : Prop := (encode i).length = i.length

theorem ldaImm (imm8 : Byte) : Statement (.ldaImm imm8) := rfl
theorem ldaZp (zp8 : Byte) : Statement (.ldaZp zp8) := rfl
theorem ldaZpX (zp8 : Byte) : Statement (.ldaZpX zp8) := rfl
theorem ldaAbs (addr : Word) : Statement (.ldaAbs addr) := rfl
theorem ldaAbsX (base : Word) : Statement (.ldaAbsX base) := rfl
theorem ldaAbsY (base : Word) : Statement (.ldaAbsY base) := rfl
theorem ldaIndX (zp8 : Byte) : Statement (.ldaIndX zp8) := rfl
theorem ldaIndY (zp8 : Byte) : Statement (.ldaIndY zp8) := rfl
theorem ldxImm (imm8 : Byte) : Statement (.ldxImm imm8) := rfl
theorem ldxZp (zp8 : Byte) : Statement (.ldxZp zp8) := rfl
theorem ldxZpY (zp8 : Byte) : Statement (.ldxZpY zp8) := rfl
theorem ldxAbs (addr : Word) : Statement (.ldxAbs addr) := rfl
theorem ldxAbsY (base : Word) : Statement (.ldxAbsY base) := rfl
theorem ldyImm (imm8 : Byte) : Statement (.ldyImm imm8) := rfl
theorem ldyZp (zp8 : Byte) : Statement (.ldyZp zp8) := rfl
theorem ldyZpX (zp8 : Byte) : Statement (.ldyZpX zp8) := rfl
theorem ldyAbs (addr : Word) : Statement (.ldyAbs addr) := rfl
theorem ldyAbsX (base : Word) : Statement (.ldyAbsX base) := rfl
theorem adcImm (imm8 : Byte) : Statement (.adcImm imm8) := rfl
theorem adcZp (zp8 : Byte) : Statement (.adcZp zp8) := rfl
theorem adcZpX (zp8 : Byte) : Statement (.adcZpX zp8) := rfl
theorem adcAbs (addr : Word) : Statement (.adcAbs addr) := rfl
theorem adcAbsX (base : Word) : Statement (.adcAbsX base) := rfl
theorem adcAbsY (base : Word) : Statement (.adcAbsY base) := rfl
theorem adcIndX (zp8 : Byte) : Statement (.adcIndX zp8) := rfl
theorem adcIndY (zp8 : Byte) : Statement (.adcIndY zp8) := rfl
theorem sbcImm (imm8 : Byte) : Statement (.sbcImm imm8) := rfl
theorem sbcZp (zp8 : Byte) : Statement (.sbcZp zp8) := rfl
theorem sbcZpX (zp8 : Byte) : Statement (.sbcZpX zp8) := rfl
theorem sbcAbs (addr : Word) : Statement (.sbcAbs addr) := rfl
theorem sbcAbsX (base : Word) : Statement (.sbcAbsX base) := rfl
theorem sbcAbsY (base : Word) : Statement (.sbcAbsY base) := rfl
theorem sbcIndX (zp8 : Byte) : Statement (.sbcIndX zp8) := rfl
theorem sbcIndY (zp8 : Byte) : Statement (.sbcIndY zp8) := rfl
theorem andImm (imm8 : Byte) : Statement (.andImm imm8) := rfl
theorem andZp (zp8 : Byte) : Statement (.andZp zp8) := rfl
theorem andZpX (zp8 : Byte) : Statement (.andZpX zp8) := rfl
theorem andAbs (addr : Word) : Statement (.andAbs addr) := rfl
theorem andAbsX (base : Word) : Statement (.andAbsX base) := rfl
theorem andAbsY (base : Word) : Statement (.andAbsY base) := rfl
theorem andIndX (zp8 : Byte) : Statement (.andIndX zp8) := rfl
theorem andIndY (zp8 : Byte) : Statement (.andIndY zp8) := rfl
theorem eorImm (imm8 : Byte) : Statement (.eorImm imm8) := rfl
theorem eorZp (zp8 : Byte) : Statement (.eorZp zp8) := rfl
theorem eorZpX (zp8 : Byte) : Statement (.eorZpX zp8) := rfl
theorem eorAbs (addr : Word) : Statement (.eorAbs addr) := rfl
theorem eorAbsX (base : Word) : Statement (.eorAbsX base) := rfl
theorem eorAbsY (base : Word) : Statement (.eorAbsY base) := rfl
theorem eorIndX (zp8 : Byte) : Statement (.eorIndX zp8) := rfl
theorem eorIndY (zp8 : Byte) : Statement (.eorIndY zp8) := rfl
theorem oraImm (imm8 : Byte) : Statement (.oraImm imm8) := rfl
theorem oraZp (zp8 : Byte) : Statement (.oraZp zp8) := rfl
theorem oraZpX (zp8 : Byte) : Statement (.oraZpX zp8) := rfl
theorem oraAbs (addr : Word) : Statement (.oraAbs addr) := rfl
theorem oraAbsX (base : Word) : Statement (.oraAbsX base) := rfl
theorem oraAbsY (base : Word) : Statement (.oraAbsY base) := rfl
theorem oraIndX (zp8 : Byte) : Statement (.oraIndX zp8) := rfl
theorem oraIndY (zp8 : Byte) : Statement (.oraIndY zp8) := rfl
theorem aslAcc : Statement (.aslAcc) := rfl
theorem aslZp (zp8 : Byte) : Statement (.aslZp zp8) := rfl
theorem aslZpX (zp8 : Byte) : Statement (.aslZpX zp8) := rfl
theorem aslAbs (addr : Word) : Statement (.aslAbs addr) := rfl
theorem aslAbsX (base : Word) : Statement (.aslAbsX base) := rfl
theorem lsrAcc : Statement (.lsrAcc) := rfl
theorem lsrZp (zp8 : Byte) : Statement (.lsrZp zp8) := rfl
theorem lsrZpX (zp8 : Byte) : Statement (.lsrZpX zp8) := rfl
theorem lsrAbs (addr : Word) : Statement (.lsrAbs addr) := rfl
theorem lsrAbsX (base : Word) : Statement (.lsrAbsX base) := rfl
theorem rolAcc : Statement (.rolAcc) := rfl
theorem rolZp (zp8 : Byte) : Statement (.rolZp zp8) := rfl
theorem rolZpX (zp8 : Byte) : Statement (.rolZpX zp8) := rfl
theorem rolAbs (addr : Word) : Statement (.rolAbs addr) := rfl
theorem rolAbsX (base : Word) : Statement (.rolAbsX base) := rfl
theorem rorAcc : Statement (.rorAcc) := rfl
theorem rorZp (zp8 : Byte) : Statement (.rorZp zp8) := rfl
theorem rorZpX (zp8 : Byte) : Statement (.rorZpX zp8) := rfl
theorem rorAbs (addr : Word) : Statement (.rorAbs addr) := rfl
theorem rorAbsX (base : Word) : Statement (.rorAbsX base) := rfl
theorem cmpImm (imm8 : Byte) : Statement (.cmpImm imm8) := rfl
theorem cmpZp (zp8 : Byte) : Statement (.cmpZp zp8) := rfl
theorem cmpZpX (zp8 : Byte) : Statement (.cmpZpX zp8) := rfl
theorem cmpAbs (addr : Word) : Statement (.cmpAbs addr) := rfl
theorem cmpAbsX (base : Word) : Statement (.cmpAbsX base) := rfl
theorem cmpAbsY (base : Word) : Statement (.cmpAbsY base) := rfl
theorem cmpIndX (zp8 : Byte) : Statement (.cmpIndX zp8) := rfl
theorem cmpIndY (zp8 : Byte) : Statement (.cmpIndY zp8) := rfl
theorem cpxImm (imm8 : Byte) : Statement (.cpxImm imm8) := rfl
theorem cpxZp (zp8 : Byte) : Statement (.cpxZp zp8) := rfl
theorem cpxAbs (addr : Word) : Statement (.cpxAbs addr) := rfl
theorem cpyImm (imm8 : Byte) : Statement (.cpyImm imm8) := rfl
theorem cpyZp (zp8 : Byte) : Statement (.cpyZp zp8) := rfl
theorem cpyAbs (addr : Word) : Statement (.cpyAbs addr) := rfl
theorem incZp (zp8 : Byte) : Statement (.incZp zp8) := rfl
theorem incZpX (zp8 : Byte) : Statement (.incZpX zp8) := rfl
theorem incAbs (addr : Word) : Statement (.incAbs addr) := rfl
theorem incAbsX (base : Word) : Statement (.incAbsX base) := rfl
theorem decZp (zp8 : Byte) : Statement (.decZp zp8) := rfl
theorem decZpX (zp8 : Byte) : Statement (.decZpX zp8) := rfl
theorem decAbs (addr : Word) : Statement (.decAbs addr) := rfl
theorem decAbsX (base : Word) : Statement (.decAbsX base) := rfl
theorem inx : Statement (.inx) := rfl
theorem iny : Statement (.iny) := rfl
theorem dex : Statement (.dex) := rfl
theorem dey : Statement (.dey) := rfl
theorem bcc (disp8 : Byte) : Statement (.bcc disp8) := rfl
theorem bcs (disp8 : Byte) : Statement (.bcs disp8) := rfl
theorem beq (disp8 : Byte) : Statement (.beq disp8) := rfl
theorem bmi (disp8 : Byte) : Statement (.bmi disp8) := rfl
theorem bne (disp8 : Byte) : Statement (.bne disp8) := rfl
theorem bpl (disp8 : Byte) : Statement (.bpl disp8) := rfl
theorem bvc (disp8 : Byte) : Statement (.bvc disp8) := rfl
theorem bvs (disp8 : Byte) : Statement (.bvs disp8) := rfl
theorem bitZp (zp8 : Byte) : Statement (.bitZp zp8) := rfl
theorem bitAbs (addr : Word) : Statement (.bitAbs addr) := rfl
theorem clc : Statement (.clc) := rfl
theorem cld : Statement (.cld) := rfl
theorem cli : Statement (.cli) := rfl
theorem clv : Statement (.clv) := rfl
theorem jmpAbs (addr : Word) : Statement (.jmpAbs addr) := rfl
theorem jmpInd (ptr : Word) : Statement (.jmpInd ptr) := rfl
theorem brk : Statement (.brk) := rfl
theorem pha : Statement (.pha) := rfl
theorem php : Statement (.php) := rfl
theorem pla : Statement (.pla) := rfl
theorem plp : Statement (.plp) := rfl
theorem jsr (addr : Word) : Statement (.jsr addr) := rfl
theorem rts : Statement (.rts) := rfl
theorem rti : Statement (.rti) := rfl
theorem staZp (zp8 : Byte) : Statement (.staZp zp8) := rfl
theorem staZpX (zp8 : Byte) : Statement (.staZpX zp8) := rfl
theorem staAbs (addr : Word) : Statement (.staAbs addr) := rfl
theorem staAbsX (base : Word) : Statement (.staAbsX base) := rfl
theorem staAbsY (base : Word) : Statement (.staAbsY base) := rfl
theorem staIndX (zp8 : Byte) : Statement (.staIndX zp8) := rfl
theorem staIndY (zp8 : Byte) : Statement (.staIndY zp8) := rfl
theorem stxZp (zp8 : Byte) : Statement (.stxZp zp8) := rfl
theorem stxZpY (zp8 : Byte) : Statement (.stxZpY zp8) := rfl
theorem stxAbs (addr : Word) : Statement (.stxAbs addr) := rfl
theorem styZp (zp8 : Byte) : Statement (.styZp zp8) := rfl
theorem styZpX (zp8 : Byte) : Statement (.styZpX zp8) := rfl
theorem styAbs (addr : Word) : Statement (.styAbs addr) := rfl
theorem tax : Statement (.tax) := rfl
theorem tay : Statement (.tay) := rfl
theorem txa : Statement (.txa) := rfl
theorem tya : Statement (.tya) := rfl
theorem tsx : Statement (.tsx) := rfl
theorem txs : Statement (.txs) := rfl
theorem sec : Statement (.sec) := rfl
theorem sed : Statement (.sed) := rfl
theorem sei : Statement (.sei) := rfl
theorem nop : Statement (.nop) := rfl

end Sys2Proof.Laws.EncodedLength
end

