-- ==== Sys2Proof/Laws/RunLoop.lean ====
section
/-! SUPPORT. What the host's step answers, and what the state after a fatal error keeps. -/

namespace Sys2Proof.Machine

/-! ### The state after a fatal error -/

@[simp] theorem State.afterFatal_params (s : State) : s.afterFatal.params = s.params := rfl
@[simp] theorem State.afterFatal_onInvalid (s : State) : s.afterFatal.onInvalid = s.onInvalid := rfl
@[simp] theorem State.afterFatal_steps (s : State) : s.afterFatal.steps = s.steps := rfl
@[simp] theorem State.afterFatal_stop (s : State) : s.afterFatal.stop = s.stop := rfl
@[simp] theorem State.afterFatal_draws (s : State) : s.afterFatal.draws = s.draws + 1 := rfl

/-- Whatever the free values are, the state they fill meets the invariant (R36, R60). -/
theorem State.afterFatal_Inv (s : State) : s.afterFatal.Inv :=
  ⟨Memory.wfFrom_ofCells _ (Nat.le_refl _), by simp [State.afterFatal]⟩

/-! ### The end of a run -/

@[simp] theorem State.endRun_reason (s : State) (r : StopReason) : (s.endRun r).reason = r := rfl
@[simp] theorem State.endRun_n (s : State) (r : StopReason) : (s.endRun r).n = s.steps := rfl
@[simp] theorem State.endRun_state (s : State) (r : StopReason) : (s.endRun r).state = { s with stop := some r } := rfl

/-- A run goes on only after an InvalidOpcode, and only under `skip` (R420). -/
theorem goesOnAfter_iff (o : OnInvalid) (e : Fault) :
    goesOnAfter o e = true ↔ o = .skip ∧ ∃ opcode address, e = .invalidOpcode opcode address := by
  cases e <;> simp [goesOnAfter]

/-! ### The host's step -/

/-- Everything the host's step can answer (R424): the InvalidOpcode with the exact state; the step's own next state; the
step's fatal error with the unspecified state; nothing, where the step refuses. -/
theorem hostStep_cases (s : State) :
    (lookup s.params.unlistedOfficial (s.readByte s.pc) = none ∧ AddressOk s (s.pc.toNat + 1 : Nat) ∧
      step s = afterInvalid (s.readByte s.pc) s.pc { s.beginStep with pc := s.pc + 1 } ∧
      s.hostStep = some ⟨.error (.invalidOpcode (s.readByte s.pc) s.pc), { s.beginStep with pc := s.pc + 1 }⟩) ∨
    (∃ t, step s = .next t ∧ s.hostStep = some ⟨if t.stop = some .haltedBrk then .halted else .completed, t⟩) ∨
    (∃ e, step s = .fault e ∧ s.hostStep = some ⟨.error e, s.beginStep.afterFatal⟩) ∨
    (∃ r, step s = .refused r ∧ s.hostStep = none) := by
  unfold step State.hostStep
  rcases fetchInstr_cases s.beginStep with ⟨_, hf⟩ | ⟨ha, hl, hf⟩ | ⟨i, _, _, ⟨_, hf⟩ | ⟨_, hf⟩⟩ <;> rw [hf]
  · exact .inr (.inr (.inl ⟨_, rfl, rfl⟩))
  · exact .inl ⟨hl, ha, rfl, rfl⟩
  · simp only
    cases exec i _ with
    | next t => exact .inr (.inl ⟨t, rfl, rfl⟩)
    | fault e => exact .inr (.inr (.inl ⟨e, rfl, rfl⟩))
    | refused r => exact .inr (.inr (.inr ⟨r, rfl, rfl⟩))
  · exact .inr (.inr (.inl ⟨_, rfl, rfl⟩))

end Sys2Proof.Machine
end

