-- ==== Sys2Proof/Tests/Slice0.lean ====
section
/-! SUPPORT. The model's own tests. Expected values come from spec/: the encodings of 30_encoding.md R94 and R102 and the
vectors V1 to V163 and H1 to H8 of 95_test_vectors.md. At the end, for each statement with hypotheses, a witness that meets
them. -/

namespace Sys2Proof.Tests

open Sys2Proof.Machine

-- The theorems are checked one after another: each kernel evaluation on a thread of its own needs its own stack.
set_option Elab.async false

/-- A state right after reset, PC set by the host. -/
def start (pc : Word) : State := { State.reset with pc := pc }

/-- Some bytes of memory set by the host. -/
def poke (s : State) (cells : List (Word × Byte)) : State := cells.foldl (fun s cell => s.writeByte cell.1 cell.2) s

/-- The start state of a vector: the instruction's bytes at PC, and some bytes of memory. -/
def load (bytes : List Byte) (cells : List (Word × Byte)) (s : State) : State := poke (s.placeBytes s.pc bytes) cells

/-- One step of `s` gives `s` changed by `f`, the step counted. -/
abbrev After (s : State) (f : State → State) : Prop :=
  nextState (step s) = some (f { s with steps := s.steps + 1, stop := none })

/-! ### WellFormed: an unlisted instruction is ill formed by default (R94, R99) -/

theorem test_wf_refuses_nop_by_default : Instr.wellFormed false .nop = false := by decide

theorem test_wf_refuses_sta_by_default : Instr.wellFormed false (.staAbs 0x0200) = false := by decide

theorem test_wf_accepts_unlisted_when_enabled : Instr.wellFormed true (.staAbs 0x0200) = true := by decide

theorem test_wf_accepts_listed : Instr.wellFormed false (.ldaImm 0x05) = true := by decide

/-! ### Decoding: words written out from R94, one or more per family -/

theorem test_decode_load : decode false [0xA9, 0x05] = .ok (.ldaImm 0x05, []) := by decide +kernel

theorem test_decode_load_indexed : decode false [0xBD, 0x00, 0x30] = .ok (.ldaAbsX 0x3000, []) := by decide +kernel

theorem test_decode_arith : decode false [0xF1, 0x20] = .ok (.sbcIndY 0x20, []) := by decide +kernel

theorem test_decode_logic : decode false [0x01, 0x10] = .ok (.oraIndX 0x10, []) := by decide +kernel

theorem test_decode_shift : decode false [0x1E, 0xFF, 0x12] = .ok (.aslAbsX 0x12FF, []) := by decide +kernel

theorem test_decode_shift_accumulator : decode false [0x6A] = .ok (.rorAcc, []) := by decide +kernel

theorem test_decode_compare : decode false [0xCC, 0x34, 0x12] = .ok (.cpyAbs 0x1234, []) := by decide +kernel

theorem test_decode_incdec : decode false [0xF6, 0xF8] = .ok (.incZpX 0xF8, []) := by decide +kernel

theorem test_decode_branch : decode false [0xD0, 0xFB] = .ok (.bne 0xFB, []) := by decide +kernel

theorem test_decode_bit : decode false [0x2C, 0x34, 0x12] = .ok (.bitAbs 0x1234, []) := by decide +kernel

theorem test_decode_flag : decode false [0xB8] = .ok (.clv, []) := by decide +kernel

theorem test_decode_jump : decode false [0x6C, 0xFF, 0x30] = .ok (.jmpInd 0x30FF, []) := by decide +kernel

theorem test_decode_stack : decode false [0x20, 0x06, 0x80] = .ok (.jsr 0x8006, []) := by decide +kernel

theorem test_decode_unlisted : decode true [0x96, 0xF0] = .ok (.stxZpY 0xF0, []) := by decide +kernel

theorem test_decode_unlisted_refused : decode false [0x96, 0xF0] = .error (.invalidOpcode 0x96) := by decide +kernel

theorem test_decode_unassigned_refused : decode true [0x02] = .error (.invalidOpcode 0x02) := by decide +kernel

theorem test_decode_truncated : decode false [0xAD, 0x34] = .error .truncated := by decide +kernel

theorem test_decodeTableWord : decodeTableWord 24 0x1234AD = some (.ldaAbs 0x1234) := by decide +kernel

theorem test_encode : encode (.jmpInd 0x30FF) = [0x6C, 0xFF, 0x30] := by decide

theorem test_every_row_decodes_to_its_encoding :
    opcodeRows.all (fun r => (encode r.form.sample).head? == some r.opcode) = true := by
  decide +kernel

/-! ### Assembly syntax (R102, R103) -/

theorem test_assembly_branch_target : Instr.assembly 0x8003 (.bne 0xFB) = "BNE $8000" := by decide +kernel

theorem test_assembly_indirect : Instr.assembly 0x8000 (.jmpInd 0x30FF) = "JMP ($30FF)" := by decide +kernel

theorem test_branch_displacement : branchDisplacement 0x8003 0x8000 = some 0xFB := by decide

/-! ### The adder (95_test_vectors.md L1.1, L1.2) -/

theorem test_addByte_both : addByte 0x80 0xFF false = ⟨0x7F, true, true⟩ := by decide

theorem test_addByte_carry_in : addByte 0x40 0x3F true = ⟨0x80, false, true⟩ := by decide

theorem test_subtractByte_borrow : subtractByte 0x00 0x00 false = ⟨0xFF, false, false⟩ := by decide

theorem test_subtractByte_overflow : subtractByte 0x7F 0xFF true = ⟨0x80, false, true⟩ := by decide

/-! ### One step: vectors of 95_test_vectors.md L2 -/

theorem test_lda_zeroPageX_wraps_V3 :
    After (load [0xB5, 0xF0] [(0x0010, 0x11), (0x0110, 0xEE)] { start 0x8000 with x := 0x20 })
      fun s => { s with a := 0x11, pc := 0x8002 } := by
  decide +kernel

theorem test_lda_indirectY_pointer_wraps_V12 :
    After (load [0xB1, 0xFF] [(0x00FF, 0x00), (0x0000, 0x30), (0x3010, 0x5A)] { start 0x8000 with y := 0x10 })
      fun s => { s with a := 0x5A, pc := 0x8002 } := by
  decide +kernel

theorem test_ldx_zeroPageY_wraps_V4 :
    After (load [0xB6, 0x10] [(0x0005, 0x22)] { start 0x8000 with y := 0xF5 })
      fun s => { s with x := 0x22, pc := 0x8002 } := by
  decide +kernel

theorem test_ldx_absoluteY_V27 :
    After (load [0xBE, 0x00, 0x10] [(0x10FF, 0x90)] { start 0x8000 with y := 0xFF })
      fun s => { s with x := 0x90, p := 0x80, pc := 0x8003 } := by
  decide +kernel

theorem test_ldy_zero_V26 :
    After (load [0xB4, 0x10] [(0x0012, 0x00)] { start 0x8000 with x := 0x02 })
      fun s => { s with p := 0x02, pc := 0x8002 } := by
  decide +kernel

theorem test_adc_overflow_and_carry_V31 :
    After (load [0x69, 0x80] [] { start 0x8000 with a := 0x80, p := 0x00 })
      fun s => { s with a := 0x00, p := 0x43, pc := 0x8002 } := by
  decide +kernel

theorem test_adc_decimal_is_binary_V35 :
    After (load [0x69, 0x01] [] { start 0x8000 with a := 0x09, p := 0x08 })
      fun s => { s with a := 0x0A, pc := 0x8002 } := by
  decide +kernel

theorem test_sbc_overflow_V37 :
    After (load [0xE9, 0xB0] [] { start 0x8000 with a := 0x50, p := 0x01 })
      fun s => { s with a := 0xA0, p := 0xC0, pc := 0x8002 } := by
  decide +kernel

theorem test_sbc_borrow_in_V40 :
    After (load [0xE9, 0x05] [] { start 0x8000 with a := 0x05, p := 0x00 })
      fun s => { s with a := 0xFF, p := 0x80, pc := 0x8002 } := by
  decide +kernel

theorem test_and_negative_V45 :
    After (load [0x29, 0xC3] [] { start 0x8000 with a := 0xFF, p := 0x41 })
      fun s => { s with a := 0xC3, p := 0xC1, pc := 0x8002 } := by
  decide +kernel

theorem test_eor_zero_V47 :
    After (load [0x45, 0x10] [(0x0010, 0xAA)] { start 0x8000 with a := 0xAA })
      fun s => { s with a := 0x00, p := 0x02, pc := 0x8002 } := by
  decide +kernel

theorem test_ora_indirectX_V49 :
    After (load [0x01, 0x10] [(0x0012, 0x00), (0x0013, 0x40), (0x4000, 0x80)]
        { start 0x8000 with a := 0x01, x := 0x02 })
      fun s => { s with a := 0x81, p := 0x80, pc := 0x8002 } := by
  decide +kernel

theorem test_asl_accumulator_V51 :
    After (load [0x0A] [] { start 0x8000 with a := 0x81, p := 0x40 })
      fun s => { s with a := 0x02, p := 0x41, pc := 0x8001 } := by
  decide +kernel

theorem test_asl_absoluteX_page_V61 :
    After (load [0x1E, 0xFF, 0x12] [(0x1300, 0xC0)] { start 0x8000 with x := 0x01 })
      fun s => { poke s [(0x1300, 0x80)] with p := 0x81, pc := 0x8003 } := by
  decide +kernel

theorem test_lsr_accumulator_V53 :
    After (load [0x4A] [] { start 0x8000 with a := 0x01, p := 0x80 })
      fun s => { s with a := 0x00, p := 0x03, pc := 0x8001 } := by
  decide +kernel

theorem test_lsr_out_of_bounds_V62 :
    raisedFault (step (load [0x5E, 0xFF, 0xFF] []
        { start 0x8000 with x := 0x01 })) = some (.memoryOutOfBounds 0x10000) := by
  decide +kernel

theorem test_rol_carry_in_V57 :
    After (load [0x2A] [] { start 0x8000 with a := 0x40, p := 0x01 })
      fun s => { s with a := 0x81, p := 0x80, pc := 0x8001 } := by
  decide +kernel

theorem test_ror_carry_in_V59 :
    After (load [0x6A] [] { start 0x8000 with a := 0x01, p := 0x01 })
      fun s => { s with a := 0x80, p := 0x81, pc := 0x8001 } := by
  decide +kernel

theorem test_ror_zeroPageX_V60 :
    After (load [0x76, 0x10] [(0x0011, 0x02)] { start 0x8000 with x := 0x01, p := 0x01 })
      fun s => { poke s [(0x0011, 0x81)] with p := 0x80, pc := 0x8002 } := by
  decide +kernel

theorem test_cmp_unsigned_V64 :
    After (load [0xC9, 0x01] [] { start 0x8000 with a := 0x80 })
      fun s => { s with p := 0x01, pc := 0x8002 } := by
  decide +kernel

theorem test_cmp_keeps_v_V67 :
    After (load [0xC9, 0x30] [] { start 0x8000 with a := 0x40, p := 0x40 })
      fun s => { s with p := 0x41, pc := 0x8002 } := by
  decide +kernel

theorem test_cpx_equal_V69 :
    After (load [0xE4, 0x10] [(0x0010, 0x05)] { start 0x8000 with x := 0x05 })
      fun s => { s with p := 0x03, pc := 0x8002 } := by
  decide +kernel

theorem test_cpy_below_V70 :
    After (load [0xC0, 0x04] [] { start 0x8000 with y := 0x03 })
      fun s => { s with p := 0x80, pc := 0x8002 } := by
  decide +kernel

theorem test_inc_wraps_V72 :
    After (load [0xE6, 0x10] [(0x0010, 0xFF)] { start 0x8000 with p := 0x01 })
      fun s => { poke s [(0x0010, 0x00)] with p := 0x03, pc := 0x8002 } := by
  decide +kernel

theorem test_inc_zeroPageX_wraps_V76 :
    After (load [0xF6, 0xF8] [(0x0008, 0x41)] { start 0x8000 with x := 0x10 })
      fun s => { poke s [(0x0008, 0x42)] with pc := 0x8002 } := by
  decide +kernel

theorem test_dec_zero_V75 :
    After (load [0xCE, 0x34, 0x12] [(0x1234, 0x01)] (start 0x8000))
      fun s => { poke s [(0x1234, 0x00)] with p := 0x02, pc := 0x8003 } := by
  decide +kernel

theorem test_inx_wraps_V78 :
    After (load [0xE8] [] { start 0x8000 with x := 0xFF })
      fun s => { s with x := 0x00, p := 0x02, pc := 0x8001 } := by
  decide +kernel

theorem test_iny_negative_V79 :
    After (load [0xC8] [] { start 0x8000 with y := 0x7F })
      fun s => { s with y := 0x80, p := 0x80, pc := 0x8001 } := by
  decide +kernel

theorem test_dex_wraps_V80 :
    After (load [0xCA] [] { start 0x8000 with x := 0x00 })
      fun s => { s with x := 0xFF, p := 0x80, pc := 0x8001 } := by
  decide +kernel

theorem test_dey_V81 :
    After (load [0x88] [] { start 0x8000 with y := 0x80 })
      fun s => { s with y := 0x7F, pc := 0x8001 } := by
  decide +kernel

theorem test_bcc_taken_V83 :
    After (load [0x90, 0x02] [] { start 0x8000 with p := 0x00 })
      fun s => { s with pc := 0x8004 } := by
  decide +kernel

theorem test_bcc_out_of_bounds_V96 :
    raisedFault (step (load [0x90, 0x7F] [] (start 0xFFF0))) = some (.memoryOutOfBounds 0x10071) := by
  decide +kernel

theorem test_bcs_not_taken_V98 :
    After (load [0xB0, 0x7F] [] (start 0xFFF0))
      fun s => { s with pc := 0xFFF2 } := by
  decide +kernel

theorem test_beq_to_itself_V86 :
    After (load [0xF0, 0xFE] [] { start 0x8000 with p := 0x02 })
      fun s => { s with pc := 0x8000 } := by
  decide +kernel

theorem test_bmi_forward_V89 :
    After (load [0x30, 0x7F] [] { start 0x8000 with p := 0x80 })
      fun s => { s with pc := 0x8081 } := by
  decide +kernel

theorem test_bne_back_V87 :
    After (load [0xD0, 0xFF] [] { start 0x8000 with p := 0x00 })
      fun s => { s with pc := 0x8001 } := by
  decide +kernel

theorem test_bne_not_taken_V88 :
    After (load [0xD0, 0xFF] [] { start 0x8000 with p := 0x02 })
      fun s => { s with pc := 0x8002 } := by
  decide +kernel

theorem test_bpl_back_V90 :
    After (load [0x10, 0x80] [] (start 0x8100))
      fun s => { s with pc := 0x8082 } := by
  decide +kernel

theorem test_bpl_negative_address_wraps_V95 :
    After (load [0x10, 0x80] [] { start 0x0000 with params := { Config.defaultParams with addressWrap := .wrap } })
      fun s => { s with pc := 0xFF82 } := by
  decide +kernel

theorem test_bvc_not_taken_V91 :
    After (load [0x50, 0x10] [] { start 0x8000 with p := 0x40 })
      fun s => { s with pc := 0x8002 } := by
  decide +kernel

theorem test_bvs_taken_V92 :
    After (load [0x70, 0x10] [] { start 0x8000 with p := 0x40 })
      fun s => { s with pc := 0x8012 } := by
  decide +kernel

theorem test_bit_flags_V99 :
    After (load [0x24, 0x10] [(0x0010, 0xC0)] { start 0x8000 with a := 0x00 })
      fun s => { s with p := 0xC2, pc := 0x8002 } := by
  decide +kernel

theorem test_bit_absolute_V101 :
    After (load [0x2C, 0x34, 0x12] [(0x1234, 0x4F)] { start 0x8000 with a := 0x0F })
      fun s => { s with p := 0x40, pc := 0x8003 } := by
  decide +kernel

theorem test_clc_V102 :
    After (load [0x18] [] { start 0x8000 with p := 0xDF })
      fun s => { s with p := 0xDE, pc := 0x8001 } := by
  decide +kernel

theorem test_cld_V103 :
    After (load [0xD8] [] { start 0x8000 with p := 0x08 })
      fun s => { s with p := 0x00, pc := 0x8001 } := by
  decide +kernel

theorem test_cli_V104 :
    After (load [0x58] [] { start 0x8000 with p := 0x04 })
      fun s => { s with p := 0x00, pc := 0x8001 } := by
  decide +kernel

theorem test_clv_V105 :
    After (load [0xB8] [] { start 0x8000 with p := 0xDF })
      fun s => { s with p := 0x9F, pc := 0x8001 } := by
  decide +kernel

theorem test_jmp_absolute_V106 :
    After (load [0x4C, 0x00, 0x90] [] (start 0x8000))
      fun s => { s with pc := 0x9000 } := by
  decide +kernel

theorem test_jmp_page_bug_V15 :
    After (load [0x6C, 0xFF, 0x30] [(0x30FF, 0x00), (0x3000, 0x90), (0x3100, 0xA0)] (start 0x8000))
      fun s => { s with pc := 0x9000 } := by
  decide +kernel

theorem test_jmp_fixed_V16 :
    After (load [0x6C, 0xFF, 0x30] [(0x30FF, 0x00), (0x3000, 0x90), (0x3100, 0xA0)]
        { start 0x8000 with params := { Config.defaultParams with jmpIndirectFixed := true } })
      fun s => { s with pc := 0xA000 } := by
  decide +kernel

theorem test_brk_V109 :
    After (load [0x00] [(0xFFFE, 0x00), (0xFFFF, 0x90)] { start 0x8000 with sp := 0xFF, p := 0x03 })
      fun s => { poke s [(0x01FD, 0x33), (0x01FE, 0x02), (0x01FF, 0x80)] with sp := 0xFC, p := 0x17, pc := 0x9000, stop := some .haltedBrk } := by
  decide +kernel

theorem test_brk_i_clear_goes_on_V111 :
    After (load [0x00] [(0xFFFE, 0x00), (0xFFFF, 0x90)]
        { start 0x8000 with sp := 0xFF, params := { Config.defaultParams with brkHalt := .whenISet } })
      fun s => { poke s [(0x01FD, 0x30), (0x01FE, 0x02), (0x01FF, 0x80)] with sp := 0xFC, p := 0x14, pc := 0x9000 } := by
  decide +kernel

theorem test_pha_wraps_V118 :
    After (load [0x48] [] { start 0x8000 with a := 0x42 })
      fun s => { poke s [(0x0100, 0x42)] with sp := 0xFF, pc := 0x8001 } := by
  decide +kernel

theorem test_pha_overflow_V119 :
    raisedFault (step (load [0x48] []
        { start 0x8000 with a := 0x42, params := { Config.defaultParams with stackWrap := .fault } })) = some (.stackOverflow 0x00) := by
  decide +kernel

theorem test_php_V120 :
    After (load [0x08] [] { start 0x8000 with p := 0x03, sp := 0xFF })
      fun s => { poke s [(0x01FF, 0x33)] with sp := 0xFE, pc := 0x8001 } := by
  decide +kernel

theorem test_pla_wraps_V124 :
    After (load [0x68] [(0x0100, 0x7E)] { start 0x8000 with sp := 0xFF })
      fun s => { s with a := 0x7E, sp := 0x00, pc := 0x8001 } := by
  decide +kernel

theorem test_pla_underflow_V125 :
    raisedFault (step (load [0x68] []
        { start 0x8000 with sp := 0xFF, params := { Config.defaultParams with stackWrap := .fault } })) = some (.stackUnderflow 0xFF) := by
  decide +kernel

theorem test_plp_bit5_V127 :
    After (load [0x28] [(0x01FF, 0xFF)] { start 0x8000 with sp := 0xFE })
      fun s => { s with sp := 0xFF, p := 0xDF, pc := 0x8001 } := by
  decide +kernel

theorem test_jsr_from_reset_V130 :
    After (load [0x20, 0x06, 0x80] [] (start 0x8000))
      fun s => { poke s [(0x0100, 0x80), (0x01FF, 0x02)] with sp := 0xFE, pc := 0x8006 } := by
  decide +kernel

theorem test_rts_V132 :
    After (load [0x60] [(0x01FE, 0x02), (0x01FF, 0x80)] { start 0x8000 with sp := 0xFD })
      fun s => { s with sp := 0xFF, pc := 0x8003 } := by
  decide +kernel

theorem test_rts_wraps_V134 :
    After (load [0x60] [(0x01FE, 0xFF), (0x01FF, 0xFF)]
        { start 0x8000 with sp := 0xFD, params := { Config.defaultParams with addressWrap := .wrap } })
      fun s => { s with sp := 0xFF, pc := 0x0000 } := by
  decide +kernel

theorem test_rti_V136 :
    After (load [0x40] [(0x01FD, 0x33), (0x01FE, 0x02), (0x01FF, 0x90)] { start 0x8000 with sp := 0xFC })
      fun s => { s with sp := 0xFF, p := 0x13, pc := 0x9002 } := by
  decide +kernel

theorem test_rti_underflow_V138 :
    raisedFault (step (load [0x40] [(0x01FE, 0x30), (0x01FF, 0x04), (0x0100, 0x80)]
        { start 0x8000 with sp := 0xFD, params := { Config.defaultParams with stackWrap := .fault } })) = some (.stackUnderflow 0xFF) := by
  decide +kernel

theorem test_sta_indirectY_V141 :
    After (load [0x91, 0x20] [(0x0020, 0x00), (0x0021, 0x30)]
        { start 0x8000 with a := 0x5A, y := 0x05, params := { Config.defaultParams with unlistedOfficial := true } })
      fun s => { poke s [(0x3005, 0x5A)] with pc := 0x8002 } := by
  decide +kernel

theorem test_sta_not_decoded_V140 :
    raisedFault (step (load [0x85, 0x10] []
        { start 0x8000 with a := 0x42 })) = some (.invalidOpcode 0x85 0x8000) := by
  decide +kernel

theorem test_stx_zeroPageY_V143 :
    After (load [0x96, 0xF0] []
        { start 0x8000 with x := 0x07, y := 0x20, params := { Config.defaultParams with unlistedOfficial := true } })
      fun s => { poke s [(0x0010, 0x07)] with pc := 0x8002 } := by
  decide +kernel

theorem test_sty_zeroPageX_V144 :
    After (load [0x94, 0xFF] []
        { start 0x8000 with y := 0x09, x := 0x01, params := { Config.defaultParams with unlistedOfficial := true } })
      fun s => { poke s [(0x0000, 0x09)] with pc := 0x8002 } := by
  decide +kernel

theorem test_tax_V145 :
    After (load [0xAA] []
        { start 0x8000 with a := 0x80, params := { Config.defaultParams with unlistedOfficial := true } })
      fun s => { s with x := 0x80, p := 0x80, pc := 0x8001 } := by
  decide +kernel

theorem test_tay_V146 :
    After (load [0xA8] []
        { start 0x8000 with a := 0x00, p := 0x80, params := { Config.defaultParams with unlistedOfficial := true } })
      fun s => { s with p := 0x02, pc := 0x8001 } := by
  decide +kernel

theorem test_txa_V147 :
    After (load [0x8A] []
        { start 0x8000 with x := 0x01, p := 0x02, params := { Config.defaultParams with unlistedOfficial := true } })
      fun s => { s with a := 0x01, p := 0x00, pc := 0x8001 } := by
  decide +kernel

theorem test_tya_V148 :
    After (load [0x98] []
        { start 0x8000 with y := 0xFF, params := { Config.defaultParams with unlistedOfficial := true } })
      fun s => { s with a := 0xFF, p := 0x80, pc := 0x8001 } := by
  decide +kernel

theorem test_tsx_V150 :
    After (load [0xBA] []
        { start 0x8000 with sp := 0xFD, params := { Config.defaultParams with unlistedOfficial := true } })
      fun s => { s with x := 0xFD, p := 0x80, pc := 0x8001 } := by
  decide +kernel

theorem test_txs_no_flags_V151 :
    After (load [0x9A] []
        { start 0x8000 with x := 0x00, p := 0x80, params := { Config.defaultParams with unlistedOfficial := true } })
      fun s => { s with pc := 0x8001 } := by
  decide +kernel

theorem test_sec_V152 :
    After (load [0x38] [] { start 0x8000 with params := { Config.defaultParams with unlistedOfficial := true } })
      fun s => { s with p := 0x01, pc := 0x8001 } := by
  decide +kernel

theorem test_sed_V153 :
    After (load [0xF8] [] { start 0x8000 with params := { Config.defaultParams with unlistedOfficial := true } })
      fun s => { s with p := 0x08, pc := 0x8001 } := by
  decide +kernel

theorem test_sei_V154 :
    After (load [0x78] [] { start 0x8000 with params := { Config.defaultParams with unlistedOfficial := true } })
      fun s => { s with p := 0x04, pc := 0x8001 } := by
  decide +kernel

theorem test_nop_V155 :
    After (load [0xEA] [] { start 0x8000 with params := { Config.defaultParams with unlistedOfficial := true } })
      fun s => { s with pc := 0x8001 } := by
  decide +kernel

theorem test_invalid_opcode_V158 :
    raisedFault (step (load [0x02] []
        { start 0x8000 with a := 0x11, p := 0x01 })) = some (.invalidOpcode 0x02 0x8000) := by
  decide +kernel

theorem test_fetch_past_the_space_V163 :
    raisedFault (step (load [0xAD, 0x34, 0x12] [] (start 0xFFFD))) = some (.memoryOutOfBounds 0x10000) := by
  decide +kernel

theorem test_invalid_opcode_skipped :
    After (load [0x02] [] { start 0x8000 with onInvalid := .skip, a := 0x11, p := 0x01 })
      fun s => { s with pc := 0x8001 } := by
  decide +kernel

/-! ### The host (H1 to H8, L1.5) and the fetch of a placed word -/

theorem test_reset_H1 :
    ({ poke (start 0x1234) [(0x0200, 0x55)] with sp := 0xFD, a := 0x11, x := 0x22, y := 0x33, p := 0xC3 } : State).hostReset
      = poke (start 0x0000) [(0x0200, 0x55)] := by
  decide +kernel

theorem test_host_writes_P_H2 : ((start 0).hostWrite (.p 0xFF)).p = 0xDF := by decide

theorem test_load_at_the_end : (State.reset.load [0x11, 0x22] 0xFFFE).map (fun s => s.readByte 0xFFFF) = .ok 0x22 := by
  decide +kernel

theorem test_load_too_large : State.reset.load [0x11, 0x22] 0xFFFF = .error (.romTooLarge 0xFFFF 2) := by decide +kernel

theorem test_host_step_answers_InvalidOpcode_after_a_skipping_run :
    ((run 1 .skip (load [0x02, 0x02] [] (start 0x8000))).bind fun e => e.state.hostStep).map
      (fun e => (e.result, e.state.pc)) = some (.error (.invalidOpcode 0x02 0x8001), 0x8002) := by
  decide +kernel

theorem test_launch_run_H5 :
    (State.reset.launch [0xA9, 0x05, 0x00] 0x8000).map (fun s => (run 1 .halt s).map fun e => (e.reason, e.n))
      = .ok (some (.stepLimit, 1)) := by
  decide +kernel

theorem test_withFetchWord_runs_an_unlisted_row :
    (nextState (step (State.reset.withFetchWord 16 0x1085))).map (fun s => s.pc) = some 2 := by
  decide +kernel


/-! ### Witnesses: for each statement with hypotheses, a state and operands that meet them together, one per clause -/

/-- The state just before the meaning runs: PC past the instruction at 0x8000, and some memory. -/
def ready (pc : Word) : State := poke (start pc) [(0x0010, 0x42), (0x00FF, 0xFF), (0xFFFF, 0x80)]

/-- The same with the parameters that wrap. -/
def wrapping (pc : Word) : State :=
  { ready pc with params := { Config.defaultParams with addressWrap := .wrap, stackWrap := .wrap } }

/-- The same with STACK_WRAP = fault and a given SP. -/
def stackFault (sp : Byte) : State :=
  { ready 0x8001 with sp := sp, params := { Config.defaultParams with stackWrap := .fault } }

theorem witness_DecodeInvertsEncode :
    Instr.wellFormed false (.ldaAbsX 0xFFFF) = true ∧ Instr.wellFormed true (.staIndY 0xFF) = true := by decide

theorem witness_EncodeInvertsDecode : decode false [0xBD, 0xFF, 0xFF, 0x00] = .ok (.ldaAbsX 0xFFFF, [0x00]) := by
  decide +kernel

theorem witness_AssembledBranchReachesItsTarget :
    branchDisplacement 0x8000 0x7F82 = some 0x80 ∧ (Instr.bpl 0x80).form = .relative 0x80 ∧
    branchTest (Instr.bpl 0x80).mnemonic = some (.n, false) ∧ (ready 0x8002).getFlag .n = false ∧
    (ready 0x8002).pc.toNat = (0x8000 : Word).toNat + 2 := by
  decide +kernel

theorem witness_StepRunsTheDecodedInstruction :
    decode false ((load [0xAD, 0x34, 0x12] [] (start 0xFFFC)).bytesFrom 0xFFFC 3) = .ok (.ldaAbs 0x1234, []) ∧
    AddressOk (load [0xAD, 0x34, 0x12] [] (start 0xFFFC)) ((0xFFFC : Word).toNat + (Instr.ldaAbs 0x1234).length : Nat) := by
  decide +kernel

theorem witness_FetchPastTheSpaceFaults_opcode :
    (start 0xFFFF).params.addressWrap = .fault ∧ (start 0xFFFF).pc = 0xFFFF := by decide

theorem witness_FetchPastTheSpaceFaults_operand :
    (load [0xAD, 0x34, 0x12] [] (start 0xFFFD)).params.addressWrap = .fault ∧
    decode false ((load [0xAD, 0x34, 0x12] [] (start 0xFFFD)).bytesFrom 0xFFFD 3) = .ok (.ldaAbs 0x1234, []) ∧
    65536 ≤ (0xFFFD : Word).toNat + (Instr.ldaAbs 0x1234).length := by
  decide +kernel

theorem witness_InvalidOpcodeIsPrecise_halt :
    (lookup false ((load [0x02] [] (start 0xFFFE)).readByte 0xFFFE)).isNone = true ∧
    AddressOk (load [0x02] [] (start 0xFFFE)) ((0xFFFE : Word).toNat + 1 : Nat) ∧
    (load [0x02] [] (start 0xFFFE)).onInvalid = .halt := by
  decide +kernel

theorem witness_InvalidOpcodeIsPrecise_skip :
    (lookup false ((load [0x02] [] { start 0xFFFE with onInvalid := .skip }).readByte 0xFFFE)).isNone = true ∧
    AddressOk (load [0x02] [] { start 0xFFFE with onInvalid := .skip }) ((0xFFFE : Word).toNat + 1 : Nat) ∧
    (load [0x02] [] { start 0xFFFE with onInvalid := .skip }).onInvalid = .skip := by
  decide +kernel

/-- The two clauses at the boundary of the address space. -/
theorem witness_EffectiveAddressIsTheExactSum :
    AddressOk { ready 0x8003 with x := 0x01 } (exactAddress (.absoluteX 0xFFFE) { ready 0x8003 with x := 0x01 }) ∧
    ¬ AddressOk { ready 0x8003 with x := 0x01 } (exactAddress (.absoluteX 0xFFFF) { ready 0x8003 with x := 0x01 }) := by
  decide +kernel

theorem witness_ResolverErrorEndsTheInstruction :
    (Instr.aslAbsX 0xFFFF).form = .mem (.absoluteX 0xFFFF) ∧
    ¬ AddressOk { ready 0x8003 with x := 0x01 } (exactAddress (.absoluteX 0xFFFF) { ready 0x8003 with x := 0x01 }) := by
  decide +kernel

/-- The operand of an absolute read at the last address of the space can be read. -/
theorem ready_source : SourceOk (.mem (.absolute 0xFFFF)) (ready 0x8003) := .inr (by decide)

theorem witness_LoadsCopyTheOperand :
    ((Instr.ldaAbs 0xFFFF).form.source = some (.mem (.absolute 0xFFFF)) ∧
      SourceOk (.mem (.absolute 0xFFFF)) (ready 0x8003) ∧ (Instr.ldaAbs 0xFFFF).mnemonic = .lda) ∧
    ((Instr.ldxAbs 0xFFFF).form.source = some (.mem (.absolute 0xFFFF)) ∧
      SourceOk (.mem (.absolute 0xFFFF)) (ready 0x8003) ∧ (Instr.ldxAbs 0xFFFF).mnemonic = .ldx) ∧
    ((Instr.ldyAbs 0xFFFF).form.source = some (.mem (.absolute 0xFFFF)) ∧
      SourceOk (.mem (.absolute 0xFFFF)) (ready 0x8003) ∧ (Instr.ldyAbs 0xFFFF).mnemonic = .ldy) :=
  ⟨⟨rfl, ready_source, rfl⟩, ⟨rfl, ready_source, rfl⟩, ⟨rfl, ready_source, rfl⟩⟩

theorem witness_AdcAddsOperandAndCarry :
    ((Instr.adcAbs 0xFFFF).form.source = some (.mem (.absolute 0xFFFF)) ∧
      SourceOk (.mem (.absolute 0xFFFF)) (ready 0x8003) ∧ (Instr.adcAbs 0xFFFF).mnemonic = .adc) :=
  ⟨rfl, ready_source, rfl⟩

theorem witness_SbcSubtractsOperandAndBorrow :
    ((Instr.sbcAbs 0xFFFF).form.source = some (.mem (.absolute 0xFFFF)) ∧
      SourceOk (.mem (.absolute 0xFFFF)) (ready 0x8003) ∧ (Instr.sbcAbs 0xFFFF).mnemonic = .sbc) :=
  ⟨rfl, ready_source, rfl⟩

theorem witness_LogicCombinesBitByBit :
    ((Instr.andAbs 0xFFFF).form.source = some (.mem (.absolute 0xFFFF)) ∧
      SourceOk (.mem (.absolute 0xFFFF)) (ready 0x8003) ∧ (Instr.andAbs 0xFFFF).mnemonic = .and) ∧
    ((Instr.eorAbs 0xFFFF).form.source = some (.mem (.absolute 0xFFFF)) ∧
      SourceOk (.mem (.absolute 0xFFFF)) (ready 0x8003) ∧ (Instr.eorAbs 0xFFFF).mnemonic = .eor) ∧
    ((Instr.oraAbs 0xFFFF).form.source = some (.mem (.absolute 0xFFFF)) ∧
      SourceOk (.mem (.absolute 0xFFFF)) (ready 0x8003) ∧ (Instr.oraAbs 0xFFFF).mnemonic = .ora) :=
  ⟨⟨rfl, ready_source, rfl⟩, ⟨rfl, ready_source, rfl⟩, ⟨rfl, ready_source, rfl⟩⟩

/-- Each shift in place: on the accumulator, and on the last address of the space. -/
theorem witness_ShiftsAndRotatesInPlace :
    (Instr.aslAcc.form.target = some .acc ∧ Instr.aslAcc.mnemonic = .asl ∧ TargetOk .acc (ready 0x8001)) ∧
    ((Instr.lsrAbs 0xFFFF).form.target = some (.mem (.absolute 0xFFFF)) ∧ (Instr.lsrAbs 0xFFFF).mnemonic = .lsr ∧
      TargetOk (.mem (.absolute 0xFFFF)) (ready 0x8003)) ∧
    (Instr.rolAcc.form.target = some .acc ∧ Instr.rolAcc.mnemonic = .rol) ∧
    ((Instr.rorAbs 0xFFFF).form.target = some (.mem (.absolute 0xFFFF)) ∧ (Instr.rorAbs 0xFFFF).mnemonic = .ror) :=
  ⟨⟨rfl, rfl, trivial⟩, ⟨rfl, rfl, .inr (by decide)⟩, ⟨rfl, rfl⟩, ⟨rfl, rfl⟩⟩

theorem witness_ComparesOrderUnsigned :
    ((Instr.cmpAbs 0xFFFF).form.source = some (.mem (.absolute 0xFFFF)) ∧
      SourceOk (.mem (.absolute 0xFFFF)) (ready 0x8003) ∧ (Instr.cmpAbs 0xFFFF).mnemonic = .cmp) ∧
    ((Instr.cpxAbs 0xFFFF).form.source = some (.mem (.absolute 0xFFFF)) ∧
      SourceOk (.mem (.absolute 0xFFFF)) (ready 0x8003) ∧ (Instr.cpxAbs 0xFFFF).mnemonic = .cpx) ∧
    ((Instr.cpyAbs 0xFFFF).form.source = some (.mem (.absolute 0xFFFF)) ∧
      SourceOk (.mem (.absolute 0xFFFF)) (ready 0x8003) ∧ (Instr.cpyAbs 0xFFFF).mnemonic = .cpy) :=
  ⟨⟨rfl, ready_source, rfl⟩, ⟨rfl, ready_source, rfl⟩, ⟨rfl, ready_source, rfl⟩⟩

theorem witness_IncDecWrapInMemory :
    ((Instr.incAbs 0xFFFF).form = .mem (.absolute 0xFFFF) ∧ (Instr.incAbs 0xFFFF).mnemonic = .inc) ∧
    ((Instr.decAbs 0xFFFF).form = .mem (.absolute 0xFFFF) ∧ (Instr.decAbs 0xFFFF).mnemonic = .dec) ∧
    AddressOk (ready 0x8003) (exactAddress (.absolute 0xFFFF) (ready 0x8003)) := by decide

/-- Not taken; taken to the last address; taken past it. -/
theorem witness_BranchesAddTheSignedDisplacement :
    ((Instr.bcs 0x7F).form = .relative 0x7F ∧ branchTest (Instr.bcs 0x7F).mnemonic = some (.c, true)) ∧
    (ready 0xFF80).getFlag .c ≠ true ∧
    ({ ready 0xFF80 with p := 0x01 }.getFlag .c = true ∧
      AddressOk { ready 0xFF80 with p := 0x01 } ((0xFF80 : Word).toNat + (0x7F : Byte).toInt)) ∧
    ({ ready 0xFF81 with p := 0x01 }.getFlag .c = true ∧
      ¬ AddressOk { ready 0xFF81 with p := 0x01 } ((0xFF81 : Word).toNat + (0x7F : Byte).toInt)) := by decide +kernel

theorem witness_BitTestsTheOperand :
    ((Instr.bitAbs 0xFFFF).form.source = some (.mem (.absolute 0xFFFF)) ∧
      SourceOk (.mem (.absolute 0xFFFF)) (ready 0x8003) ∧ (Instr.bitAbs 0xFFFF).mnemonic = .bit) :=
  ⟨rfl, ready_source, rfl⟩

/-- The bug; the fixed variant at the last pointer that fits, and past it. -/
theorem witness_JmpGoesToTheResolvedAddress :
    (ready 0x8003).params.jmpIndirectFixed = false ∧
    { ready 0x8003 with params := { Config.defaultParams with jmpIndirectFixed := true } }.params.jmpIndirectFixed = true ∧
    AddressOk { ready 0x8003 with params := { Config.defaultParams with jmpIndirectFixed := true } }
      ((0xFFFE : Word).toNat + 1 : Nat) ∧
    ¬ AddressOk { ready 0x8003 with params := { Config.defaultParams with jmpIndirectFixed := true } }
      ((0xFFFF : Word).toNat + 1 : Nat) := by decide +kernel

theorem witness_BrkTakesTheTrap :
    AddressOk { stackFault 0x03 with pc := 0xFFFE } ((0xFFFE : Word).toNat + 1 : Nat) ∧
    PushOk { stackFault 0x03 with pc := 0xFFFE } 3 := by decide +kernel

/-- Each clause at its boundary value of SP or PC. -/
theorem witness_StackErrorsAreRaisedInOrder :
    ¬ AddressOk (ready 0xFFFF) ((ready 0xFFFF).pc.toNat + 1 : Nat) ∧
    (AddressOk (stackFault 0x02) ((stackFault 0x02).pc.toNat + 1 : Nat) ∧ ¬ PushOk (stackFault 0x02) 3) ∧
    ¬ PushOk (stackFault 0x00) 1 ∧
    (AddressOk (stackFault 0x01) (((stackFault 0x01).pc.toNat : Int) - 1) ∧ ¬ PushOk (stackFault 0x01) 2) ∧
    ¬ PullOk (stackFault 0xFF) 1 ∧ ¬ PullOk (stackFault 0xFE) 2 ∧ ¬ PullOk (stackFault 0xFD) 3 := by decide +kernel

theorem witness_PushesStoreAndDecrement : PushOk (stackFault 0x01) 1 ∧ PushOk (ready 0x8001) 1 := by decide +kernel

theorem witness_PullsLoadAndIncrement : PullOk (stackFault 0xFE) 1 ∧ PullOk (ready 0x8001) 1 := by decide +kernel

theorem witness_JsrPushesItsLastByteAddress :
    AddressOk (stackFault 0x02) (((stackFault 0x02).pc.toNat : Int) - 1) ∧ PushOk (stackFault 0x02) 2 := by decide +kernel

/-- RTS with a pulled address that fits, and with a pulled 0xFFFF. -/
theorem witness_RtsGoesPastThePulledAddress :
    (PullOk (stackFault 0xFD) 2 ∧ AddressOk (stackFault 0xFD)
      ((slotAbove (stackFault 0xFD) (stackFault 0xFD) 1).toNat
        + 256 * (slotAbove (stackFault 0xFD) (stackFault 0xFD) 2).toNat + 1 : Nat)) ∧
    (PullOk (poke (stackFault 0xFD) [(0x01FE, 0xFF), (0x01FF, 0xFF)]) 2 ∧
      ¬ AddressOk (poke (stackFault 0xFD) [(0x01FE, 0xFF), (0x01FF, 0xFF)])
        ((slotAbove (stackFault 0xFD) (poke (stackFault 0xFD) [(0x01FE, 0xFF), (0x01FF, 0xFF)]) 1).toNat
          + 256 * (slotAbove (stackFault 0xFD) (poke (stackFault 0xFD) [(0x01FE, 0xFF), (0x01FF, 0xFF)]) 2).toNat
          + 1 : Nat)) := by decide +kernel

theorem witness_RtiRestoresStatusAndPc : PullOk (stackFault 0xFC) 3 := by decide +kernel

theorem witness_StoresWriteTheRegister :
    ((Instr.staAbs 0xFFFF).form = .mem (.absolute 0xFFFF) ∧ (Instr.staAbs 0xFFFF).mnemonic = .sta) ∧
    ((Instr.stxAbs 0xFFFF).form = .mem (.absolute 0xFFFF) ∧ (Instr.stxAbs 0xFFFF).mnemonic = .stx) ∧
    ((Instr.styAbs 0xFFFF).form = .mem (.absolute 0xFFFF) ∧ (Instr.styAbs 0xFFFF).mnemonic = .sty) ∧
    AddressOk (ready 0x8003) (exactAddress (.absolute 0xFFFF) (ready 0x8003)) := by decide

theorem witness_RtsReturnsAfterJsr : ∃ t, exec (.jsr 0x9000) (stackFault 0x02) = .next t := ⟨_, rfl⟩

theorem witness_RtiReturnsAfterBrk : ∃ t, exec .brk (stackFault 0x03) = .next t := ⟨_, rfl⟩

theorem witness_PullUndoesPush :
    (∃ t, exec .pha (stackFault 0x01) = .next t) ∧ ∃ t, exec .php (stackFault 0x01) = .next t := ⟨⟨_, rfl⟩, ⟨_, rfl⟩⟩

/-- One instruction outside every list of writers: NOP for A, X, Y, SP and the flags; TXS for A. -/
theorem witness_RegistersChangeOnlyWhereNamed :
    (∃ t, exec .nop (ready 0x8001) = .next t) ∧
    Instr.nop.mnemonic ∉ [.lda, .adc, .sbc, .and, .eor, .ora, .pla, .txa, .tya] ∧ Instr.nop.form ≠ .accumulator ∧
    Instr.nop.mnemonic ∉ [.ldx, .inx, .dex, .tax, .tsx] ∧ Instr.nop.mnemonic ∉ [.ldy, .iny, .dey, .tay] ∧
    Instr.nop.mnemonic ∉ [.pha, .php, .pla, .plp, .jsr, .rts, .brk, .rti, .txs] :=
  ⟨⟨_, rfl⟩, by decide, by decide, by decide, by decide, by decide⟩

theorem witness_FlagsChangeOnlyWhereNamed :
    (∃ t, exec (.adcImm 0x80) (ready 0x8002) = .next t) ∧ Flag.d ∉ flagsWritten (Instr.adcImm 0x80).mnemonic ∧
    (Instr.adcImm 0x80).mnemonic ∉ [.plp, .rti] := ⟨⟨_, rfl⟩, by decide, by decide⟩

theorem witness_MemoryUnchangedWithoutAStore :
    (∃ t, exec .aslAcc (ready 0x8001) = .next t) ∧ Instr.aslAcc.form = .accumulator ∧
    (∃ t, exec .pla (ready 0x8001) = .next t) ∧ Instr.pla.mnemonic ∉ storingMnemonics ++ pushingMnemonics :=
  ⟨⟨_, rfl⟩, rfl, ⟨_, rfl⟩, by decide⟩

theorem witness_StoreChangesOnlyItsCell :
    (∃ t, exec (.incAbs 0xFFFF) (ready 0x8003) = .next t) ∧ (Instr.incAbs 0xFFFF).mnemonic ∈ storingMnemonics ∧
    (Instr.incAbs 0xFFFF).form = .mem (.absolute 0xFFFF) ∧
    effectiveAddress (.absolute 0xFFFF) (ready 0x8003) = .ok 0xFFFF ∧ (0x0000 : Word) ≠ 0xFFFF :=
  ⟨⟨_, rfl⟩, by decide, rfl, rfl, by decide⟩

theorem witness_PushChangesOnlyItsSlots :
    ((∃ t, exec .pha (stackFault 0x01) = .next t) ∧ Instr.pha.mnemonic = .pha ∧ (0x0100 : Word) ≠ stackSlot 0x01) ∧
    ((∃ t, exec (.jsr 0x9000) (stackFault 0x02) = .next t) ∧ (Instr.jsr 0x9000).mnemonic = .jsr ∧
      (0x0100 : Word) ≠ stackSlot 0x02 ∧ (0x0100 : Word) ≠ stackSlot (0x02 - 1)) ∧
    ((∃ t, exec .brk (stackFault 0x03) = .next t) ∧ Instr.brk.mnemonic = .brk ∧ (0x0100 : Word) ≠ stackSlot 0x03 ∧
      (0x0100 : Word) ≠ stackSlot (0x03 - 1) ∧ (0x0100 : Word) ≠ stackSlot (0x03 - 2)) :=
  ⟨⟨⟨_, rfl⟩, by decide⟩, ⟨⟨_, rfl⟩, by decide⟩, ⟨⟨_, rfl⟩, by decide⟩⟩

/-- Each point of the sequencer is reached: the fetch, a sequential instruction, a branch not taken and taken, JMP, JSR, JMP
indirect, RTS, BRK, RTI. -/
theorem witness_PcChangesOnlyAtTheSequencersPoints :
    (∃ b t, fetchByte (ready 0xFFFE) = .ok (b, t)) ∧
    (∃ t, exec .nop (ready 0x8001) = .next t) ∧ (∃ t, exec (.bcs 0x7F) (ready 0xFF80) = .next t) ∧
    (∃ t, exec (.bcc 0x7F) (ready 0xFF80) = .next t) ∧ (∃ t, exec (.jmpAbs 0xFFFF) (ready 0x8003) = .next t) ∧
    (∃ t, exec (.jsr 0xFFFF) (ready 0x8003) = .next t) ∧ (∃ t, exec (.jmpInd 0xFFFF) (ready 0x8003) = .next t) ∧
    (∃ t, exec .rts (ready 0x8001) = .next t) ∧ (∃ t, exec .brk (ready 0xFFFE) = .next t) ∧
    (∃ t, exec .rti (ready 0x8001) = .next t) :=
  ⟨⟨_, _, rfl⟩, ⟨_, rfl⟩, ⟨_, rfl⟩, ⟨_, rfl⟩, ⟨_, rfl⟩, ⟨_, rfl⟩, ⟨_, rfl⟩, ⟨_, rfl⟩, ⟨_, rfl⟩, ⟨_, rfl⟩⟩

theorem witness_StepKeepsParametersAndCounts : (nextState (step (load [0xA9, 0x05] [] (start 0x8000)))).isSome = true := by
  decide +kernel

theorem witness_DecimalFlagHasNoEffect :
    (∃ t, exec (.adcImm 0x09) { ready 0x8002 with a := 0x09, p := 0x08 } = .next t) ∧
    (Instr.adcImm 0x09).mnemonic ∉ [.php, .brk] := ⟨⟨_, rfl⟩, by decide⟩

theorem witness_StepKeepsInv :
    (load [0x85, 0x10] [] { start 0x8000 with a := 0x42, params := { Config.defaultParams with unlistedOfficial := true } }).Inv ∧
    (nextState (step (load [0x85, 0x10] []
      { start 0x8000 with a := 0x42, params := { Config.defaultParams with unlistedOfficial := true } }))).isSome = true := by
  decide +kernel

theorem witness_HostOperationsKeepInv :
    (ready 0x8000).Inv ∧ ((ready 0x8000).load [0x11, 0x22] 0xFFFE).isOk = true ∧
    ((ready 0x8000).memWrite 0xFFFF 0x00).isOk = true := by decide +kernel

/-- Each error a step can raise is raised. -/
theorem witness_StepErrorsHaveTheirCondition :
    raisedFault (step (load [0x02] [] (start 0x8000))) = some (.invalidOpcode 0x02 0x8000) ∧
    raisedFault (step (start 0xFFFF)) = some (.memoryOutOfBounds 0x10000) ∧
    raisedFault (step (load [0x48] [] { stackFault 0x00 with pc := 0x8000 })) = some (.stackOverflow 0x00) ∧
    raisedFault (step (load [0x68] [] { stackFault 0xFF with pc := 0x8000 })) = some (.stackUnderflow 0xFF) := by
  decide +kernel

theorem witness_EveryInstructionCompletesUnderWrap :
    (wrapping 0xFFFF).params.addressWrap = .wrap ∧ (wrapping 0xFFFF).params.stackWrap = .wrap := by decide

/-- The last load that fits, and the first that does not. -/
theorem witness_LoadCopiesExactlyItsRange :
    0xFFFE + [(0x11 : Byte), 0x22].length ≤ 65536 ∧ 65536 < 0xFFFF + [(0x11 : Byte), 0x22].length := by decide

theorem witness_MemoryReadsTheLastWrite : 65536 ≤ 65536 ∧ 65535 < 65536 := by decide

theorem witness_RunContinuesAfterTheLimit :
    (runSteps 1 (load [0xA9, 0x05, 0x00] [] (start 0x8000))).map (fun e => (e.reason, e.n)) = some (.stepLimit, 1) := by
  decide +kernel

/-- A byte without an entry after a run that skipped; a step that completes and one that halts; a step that errs. -/
theorem witness_HostStepAnswersTheOutcome :
    ((lookup false ((load [0x02] [] { start 0xFFFE with onInvalid := .skip }).readByte 0xFFFE)).isNone = true ∧
      AddressOk (load [0x02] [] { start 0xFFFE with onInvalid := .skip }) ((0xFFFE : Word).toNat + 1 : Nat)) ∧
    ((lookup false ((load [0xA9, 0x05] [] (start 0x8000)).readByte 0x8000)).isNone = false ∧
      (nextState (step (load [0xA9, 0x05] [] (start 0x8000)))).map State.stop = some none) ∧
    ((lookup false ((load [0x00] [] (start 0x8000)).readByte 0x8000)).isNone = false ∧
      (nextState (step (load [0x00] [] (start 0x8000)))).map State.stop = some (some .haltedBrk)) ∧
    raisedFault (step (start 0xFFFF)) = some (.memoryOutOfBounds 0x10000) := by
  decide +kernel

/-- A run that ended in a fatal error, and the longest ROM. -/
theorem witness_LaunchAfterAnyStop :
    (∃ e, run 1 .halt (start 0xFFFF) = some e ∧ e.reason = .error (.memoryOutOfBounds 0x10000)) ∧
    (List.replicate 32768 (0xEA : Byte)).length ≤ 32768 :=
  ⟨⟨_, rfl, rfl⟩, by rw [List.length_replicate]⟩

end Sys2Proof.Tests
end

section
/-! Proofs for 10_state.md: the flag operations. -/

namespace Sys2Proof.Machine

/-- Frame of SetZN (R40): P is the only field it assigns. -/
theorem State.setZN_eq_update_p (s : State) (v : Byte) : s.setZN v = { s with p := (s.setZN v).p } := rfl

/-- Settles O15: the flag-by-flag law of SetZN gives Z, N and the other flags; the frame says that only P is assigned. -/
theorem setZNAssignsBothFlags : Obligations.SetZNAssignsBothFlags := by
  intro s v
  refine ⟨?zero, ?negative, ?otherFlags, s.setZN_eq_update_p v⟩
  case zero => simp
  case negative => simp [BitVec.msb_eq_getLsbD_last]
  case otherFlags =>
    intro f hz hn
    simp [hz, hn]

end Sys2Proof.Machine
end

section
/-! Proofs for 42_alu.md: the byte adder. -/

namespace Sys2Proof.Machine

/-- The result of R170: the exact sum truncated to 8 bits. -/
theorem addByte_result_toNat (a b : Byte) (c : Bool) :
    (addByte a b c).result.toNat = (a.toNat + b.toNat + c.toNat) % 256 :=
  BitVec.toNat_ofNat _ 8

/-- The carry out of R170: the exact sum does not fit a byte. -/
theorem addByte_carry_iff (a b : Byte) (c : Bool) :
    (addByte a b c).carry = true ↔ 255 < a.toNat + b.toNat + c.toNat :=
  decide_eq_true_iff

/-- The overflow of R170, in sign bits: the operands agree and the result differs from them. -/
theorem addByte_overflow_iff_msb (a b : Byte) (c : Bool) :
    (addByte a b c).overflow = true ↔ a.msb = b.msb ∧ (addByte a b c).result.msb ≠ a.msb := by
  simp [addByte]

/-- Settles O11: result, carry and overflow each have their own law; the sign bit of a byte is its bit 7. -/
theorem addByteIsTheFullAdderSum : Obligations.AddByteIsTheFullAdderSum := by
  intro a b c
  refine ⟨addByte_result_toNat a b c, addByte_carry_iff a b c, ?overflow⟩
  case overflow => simpa [BitVec.msb_eq_getLsbD_last] using addByte_overflow_iff_msb a b c

end Sys2Proof.Machine
end

section
/-! Proofs for 30_encoding.md: the decoder and the encoder. -/

namespace Sys2Proof

theorem Instr.length_pos (i : Instr) : 1 ≤ i.length := Nat.le_add_right 1 _

/-- Settles O1: the instruction has a row, the row is found under its opcode, and it reads the operand back. -/
theorem decodeInvertsEncode : Obligations.DecodeInvertsEncode := by
  intro unlisted i rest hw
  obtain ⟨r, hr, hm, tail, henc, htake⟩ := encode_row i rest
  have hl : lookup unlisted r.opcode = some r := lookup_row (List.mem_of_getElem? hr) (by rwa [hm])
  rw [henc]
  simpa only [decode, hl] using htake

/-- What decodes was read by the row its first byte finds (R97). -/
theorem decode_ok {unlisted : Bool} {bytes rest : List Byte} {i : Instr} (h : decode unlisted bytes = .ok (i, rest)) :
    ∃ r tail, bytes = r.opcode :: tail ∧ lookup unlisted r.opcode = some r ∧ r.form.takeOperand tail = .ok (i, rest) := by
  cases bytes with
  | nil => cases h
  | cons b tail =>
    simp only [decode] at h
    cases hl : lookup unlisted b with
    | none => simp [hl] at h
    | some r =>
      obtain rfl := (lookup_some hl).2.1
      exact ⟨r, tail, rfl, hl, by simpa only [hl] using h⟩

/-- Settles O2: the row that read the bytes gives them back, and its mnemonic is of a set that is decoded. -/
theorem encodeInvertsDecode : Obligations.EncodeInvertsDecode := by
  intro unlisted bytes rest i h
  obtain ⟨r, tail, rfl, hl, htake⟩ := decode_ok h
  obtain ⟨hrow, -, hset⟩ := lookup_some hl
  obtain ⟨henc, hm⟩ := row_takeOperand hrow rest tail i htake
  exact ⟨henc, by rwa [Instr.wellFormed, hm]⟩

/-- Settles O3: the ten words are fixed, so the decoder runs on them. -/
theorem wordsOfTheSpecDecode : Obligations.WordsOfTheSpecDecode :=
  ⟨rfl, rfl, rfl, rfl, rfl, rfl, rfl, rfl, rfl, rfl⟩

/-- Whether the table decodes an opcode byte, as a test on numbers that the kernel evaluates quickly over all bytes. -/
def decodesOpcode (unlisted : Bool) (n : Nat) : Bool :=
  opcodeRows.any fun r => Nat.beq r.opcode.toNat n && (unlisted || r.mnemonic.listed)

/-- Whether a list of bytes holds a byte, as the same kind of test. -/
def listsByte (bytes : List Byte) (n : Nat) : Bool := bytes.any fun b => Nat.beq b.toNat n

theorem lookup_eq_none_iff (unlisted : Bool) (b : Byte) :
    lookup unlisted b = none ↔ decodesOpcode unlisted b.toNat = false := by
  simp [lookup, decodesOpcode, Nat.beq_eq, BitVec.toNat_inj]

theorem listsByte_iff (bytes : List Byte) (b : Byte) : listsByte bytes b.toNat = true ↔ b ∈ bytes := by
  simp [listsByte, Nat.beq_eq, BitVec.toNat_inj]

theorem decodesOpcode_true : ∀ n < 256, decodesOpcode true n = !listsByte Machine.unassignedOpcodes n := by decide +kernel

theorem decodesOpcode_false : ∀ n < 256, decodesOpcode false n =
    !(listsByte Machine.unassignedOpcodes n || listsByte Machine.unlistedOpcodes n) := by decide +kernel

/-- The bytes the whole table has no row for are the 105 of R98. -/
theorem lookup_true_eq_none_iff (b : Byte) : lookup true b = none ↔ b ∈ Machine.unassignedOpcodes := by
  rw [lookup_eq_none_iff, decodesOpcode_true _ b.isLt, Bool.not_eq_false', listsByte_iff]

/-- The bytes the listed rows leave out are those of R98 and R99 together. -/
theorem lookup_false_eq_none_iff (b : Byte) :
    lookup false b = none ↔ b ∈ Machine.unassignedOpcodes ∨ b ∈ Machine.unlistedOpcodes := by
  rw [lookup_eq_none_iff, decodesOpcode_false _ b.isLt, Bool.not_eq_false', Bool.or_eq_true, listsByte_iff, listsByte_iff]

/-- Settles O4: the bytes that raise InvalidOpcode are those without a row, which are the spec's two lists. -/
theorem invalidOpcodesAreTheSpecsLists : Obligations.InvalidOpcodesAreTheSpecsLists :=
  fun b _ => ⟨decode_invalid_iff.trans (lookup_true_eq_none_iff b),
    decode_invalid_iff.trans (lookup_false_eq_none_iff b)⟩

end Sys2Proof
end

section
/-! Proofs for 40_dispatch.md: the fetch and the step. -/

namespace Sys2Proof.Machine

@[simp] theorem State.readByte_beginStep (s : State) (a : Word) : s.beginStep.readByte a = s.readByte a := rfl

/-- The fetch of bytes that decode (R121, R122): the instruction with PC past it, or the increment that left the space. -/
theorem fetchInstr_of_decode {s : State} {i : Instr} {rest : List Byte}
    (hd : decode s.params.unlistedOfficial (s.bytesFrom s.pc 3) = .ok (i, rest)) :
    (AddressOk s (s.pc.toNat + i.length : Nat) ∧
      fetchInstr s = .instr i { s with pc := s.pc + BitVec.ofNat 16 i.length }) ∨
    (¬ AddressOk s (s.pc.toNat + i.length : Nat) ∧ fetchInstr s = .raised (.memoryOutOfBounds 0x10000)) := by
  rcases fetchInstr_cases s with ⟨ha, hf⟩ | ⟨-, hl, -⟩ | ⟨j, rest', hd', hc⟩
  · exact .inr ⟨mt (AddressOk_of_le i.length_pos) ha, hf⟩
  · rw [State.bytesFrom, decode_invalid_iff.2 hl] at hd
    cases hd
  · rw [hd] at hd'
    obtain ⟨rfl, rfl⟩ := Prod.mk.inj (Except.ok.inj hd')
    exact hc

/-- The fetch of an opcode byte without an entry (R123). -/
theorem fetchInstr_of_lookup_none {s : State} (hl : lookup s.params.unlistedOfficial (s.readByte s.pc) = none)
    (ha : AddressOk s (s.pc.toNat + 1 : Nat)) :
    fetchInstr s = .invalid (s.readByte s.pc) s.pc { s with pc := s.pc + 1 } := by
  simp only [fetchInstr, fetchByte_ok ha, hl]

/-- Settles O6: the fetch of the bytes at PC answers the decoded instruction. -/
theorem stepRunsTheDecodedInstruction : Obligations.StepRunsTheDecodedInstruction := by
  intro s i rest hd ha
  rcases fetchInstr_of_decode (s := s.beginStep) hd with ⟨-, hf⟩ | ⟨hn, -⟩
  · simp only [step, hf]
    rfl
  · exact absurd ha hn

/-- A fetch increment past the space ends the step (R121, R408). -/
theorem step_of_raised {s : State} {e : Fault} (h : fetchInstr s.beginStep = .raised e) : step s = .fault e := by
  rw [step, h]

/-- Settles O7: the opcode's increment fails before the lookup, an operand's before the handler. -/
theorem fetchPastTheSpaceFaults : Obligations.FetchPastTheSpaceFaults := by
  intro s hw
  have hfault {n : Nat} (hn : 65536 ≤ n) : ¬ AddressOk s.beginStep n := by
    rw [AddressOk_iff]
    simp [hw, hn]
  refine ⟨fun hpc => step_of_raised ?opcode, fun i rest hd hlen => step_of_raised ?operand⟩
  case opcode =>
    simp only [fetchInstr, fetchByte_error (hfault (n := s.beginStep.pc.toNat + 1) (by simp [hpc]))]
  case operand =>
    rcases fetchInstr_of_decode (s := s.beginStep) hd with ⟨ha, -⟩ | ⟨-, hf⟩
    · exact absurd ha (hfault hlen)
    · exact hf

/-- The step on an opcode byte without an entry (R123, R400). -/
theorem step_of_lookup_none {s : State} (hl : lookup s.params.unlistedOfficial (s.readByte s.pc) = none)
    (ha : AddressOk s (s.pc.toNat + 1 : Nat)) :
    step s = afterInvalid (s.readByte s.pc) s.pc { s.beginStep with pc := s.pc + 1 } := by
  rw [step, fetchInstr_of_lookup_none (s := s.beginStep) hl ha]
  rfl

/-- The host's step on an opcode byte without an entry: the error and the exact state (R424, R400). -/
theorem hostStep_of_lookup_none {s : State} (hl : lookup s.params.unlistedOfficial (s.readByte s.pc) = none)
    (ha : AddressOk s (s.pc.toNat + 1 : Nat)) :
    s.hostStep = some ⟨.error (.invalidOpcode (s.readByte s.pc) s.pc), { s.beginStep with pc := s.pc + 1 }⟩ := by
  rw [State.hostStep, fetchInstr_of_lookup_none (s := s.beginStep) hl ha]
  rfl

/-- Settles O8: the fetch leaves the exact state, which the step answers under `skip` and the run keeps under `halt`. -/
theorem invalidOpcodeIsPrecise : Obligations.InvalidOpcodeIsPrecise := by
  intro s hl ha
  refine ⟨fun hskip => ?skip, fun hhalt => ⟨?fault, fun left => ?run⟩⟩
  case skip => simp [step_of_lookup_none hl ha, afterInvalid, hskip, State.beginStep]
  case fault => simp [step_of_lookup_none hl ha, afterInvalid, hhalt]
  case run => simp [runSteps, hostStep_of_lookup_none hl ha, goesOnAfter, hhalt, State.endRun, State.beginStep]

end Sys2Proof.Machine
end

section
/-! Proofs for 42_alu.md: signed overflow, the ripple of full adders, subtraction, and the shifts as arithmetic. -/

namespace Sys2Proof.Machine

/-- Settles O12: in sign bits, overflow is the operands' agreeing and the result's differing (R171). -/
theorem addByteOverflowIsSignedOverflow : Obligations.AddByteOverflowIsSignedOverflow := by
  intro a b c
  have ha := a.isLt
  have hb := b.isLt
  have hc := c.toNat_lt
  rw [addByte_overflow_iff_msb]
  simp only [BitVec.msb_eq_decide, addByte_result_toNat, BitVec.toInt_eq_toNat_cond, decide_eq_decide, ne_eq]
  omega

/-- The adder's result as a sum of bit vectors. -/
theorem addByte_result (a b : Byte) (c : Bool) :
    (addByte a b c).result = a + b + (BitVec.ofBool c).setWidth 8 := by
  apply BitVec.eq_of_toNat_eq
  cases c <;> simp [addByte_result_toNat, BitVec.toNat_add]

/-- The ripple's carry into a bit is the carry of the sum of the bits below (R174). -/
theorem rippleCarry_eq_carry (a b : Byte) (c : Bool) (i : Nat) : rippleCarry a b c i = BitVec.carry i a b c := by
  induction i with
  | zero => simp [rippleCarry]
  | succ i ih =>
    rw [rippleCarry, ih, BitVec.carry_succ]
    simp [fullAdder, Bool.atLeastTwo]

/-- The bits of the adder's result are the sum bits of the full adders (R174). -/
theorem addByte_getLsbD (a b : Byte) (c : Bool) {i : Nat} (hi : i < 8) :
    (addByte a b c).result.getLsbD i = (fullAdder (a.getLsbD i) (b.getLsbD i) (rippleCarry a b c i)).1 := by
  rw [addByte_result, BitVec.getLsbD_add_add_bool hi, rippleCarry_eq_carry]
  simp [fullAdder]

theorem addByte_carry_eq (a b : Byte) (c : Bool) : (addByte a b c).carry = rippleCarry a b c 8 := by
  rw [rippleCarry_eq_carry, BitVec.carry, Nat.mod_eq_of_lt a.isLt, Nat.mod_eq_of_lt b.isLt]
  rfl

theorem addByte_overflow_eq (a b : Byte) (c : Bool) :
    (addByte a b c).overflow = (rippleCarry a b c 7 != rippleCarry a b c 8) := by
  have hbit := addByte_getLsbD a b c (i := 7) (by decide)
  rw [Bool.eq_iff_iff, addByte_overflow_iff_msb]
  have hcarry : rippleCarry a b c 8 = (fullAdder (a.getLsbD 7) (b.getLsbD 7) (rippleCarry a b c 7)).2 := rfl
  simp only [BitVec.msb_eq_getLsbD_last, hbit, hcarry]
  generalize a.getLsbD 7 = x, b.getLsbD 7 = y, rippleCarry a b c 7 = z
  revert x y z
  decide

/-- Settles O13: result, carry and overflow of the adder are those of the ripple. -/
theorem addByteEqualsTheRippleAdder : Obligations.AddByteEqualsTheRippleAdder := by
  intro a b c
  have hresult : (addByte a b c).result = (rippleAdd a b c).result := by
    apply BitVec.eq_of_getLsbD_eq
    intro i hi
    rw [addByte_getLsbD a b c hi, rippleAdd, BitVec.getLsbD_ofFnLE, dif_pos hi]
  calc addByte a b c = ⟨(addByte a b c).result, (addByte a b c).carry, (addByte a b c).overflow⟩ := rfl
    _ = rippleAdd a b c := by rw [hresult, addByte_carry_eq, addByte_overflow_eq]; rfl

theorem subtractByte_result_toNat (m x : Byte) (c : Bool) :
    (subtractByte m x c).result.toNat = (m.toNat + (255 - x.toNat) + c.toNat) % 256 := by
  rw [subtractByte, addByte_result_toNat, BitVec.toNat_not]

/-- The carry out of a subtraction: no borrow occurred (R173). -/
theorem subtractByte_carry_iff (m x : Byte) (c : Bool) :
    (subtractByte m x c).carry = true ↔ x.toNat + (1 - c.toNat) ≤ m.toNat := by
  have := x.isLt
  have := c.toNat_le
  rw [subtractByte, addByte_carry_iff, BitVec.toNat_not]
  omega

/-- The complement as a signed number. -/
theorem toInt_not_byte (x : Byte) : (~~~x).toInt = -1 - x.toInt := by
  have := x.isLt
  simp only [BitVec.toInt_eq_toNat_cond, BitVec.toNat_not]
  omega

/-- Settles O14: the complement is 255 minus the byte, or minus 1 minus it as a signed number (R173). -/
theorem subtractByteClosedForms : Obligations.SubtractByteClosedForms := by
  intro m x c
  have := x.isLt
  have := c.toNat_le
  refine ⟨?result, subtractByte_carry_iff m x c, ?overflow⟩
  case result =>
    rw [subtractByte_result_toNat]
    omega
  case overflow =>
    rw [subtractByte, addByteOverflowIsSignedOverflow, toInt_not_byte]
    omega

/-! ### The shifts (R179) -/

theorem getLsbD_seven_iff (v : Byte) : v.getLsbD 7 = true ↔ 128 ≤ v.toNat := by
  rw [← msb_iff_ge, BitVec.msb_eq_getLsbD_last]

theorem getLsbD_zero_iff (v : Byte) : v.getLsbD 0 = true ↔ v.toNat % 2 = 1 := by
  simp [BitVec.getLsbD, Nat.testBit_zero]

theorem shiftLeft_toNat (v : Byte) (c : Bool) : (shiftLeft v c).result.toNat = 2 * v.toNat % 256 := by
  simp [shiftLeft, Nat.shiftLeft_eq, Nat.mul_comm]

theorem shiftRight_toNat (v : Byte) (c : Bool) : (shiftRight v c).result.toNat = v.toNat / 2 := by
  simp [shiftRight, Nat.shiftRight_eq_div_pow]

theorem rotateLeft_toNat (v : Byte) (c : Bool) :
    (rotateLeft v c).result.toNat = (2 * v.toNat + c.toNat) % 256 := by
  revert v c
  decide +kernel

theorem rotateRight_toNat (v : Byte) (c : Bool) :
    (rotateRight v c).result.toNat = v.toNat / 2 + 128 * c.toNat := by
  revert v c
  decide +kernel

end Sys2Proof.Machine
end

section
/-! The shapes of Laws/Exec.lean met from an instruction's form: which operation an instruction with a given operand runs,
and which function of its operand value or its location each operation applies. -/

namespace Sys2Proof.Machine

variable {i : Instr} {s : State}

theorem exec_eq_readOp {f : Source → State → Out} {src : Source} (hf : readOp i.mnemonic = some f)
    (hsrc : i.form.source = some src) (s : State) : exec i s = f src s := by
  obtain ⟨src', h, he⟩ := exec_read hf
  obtain rfl : src = src' := Option.some.inj (hsrc.symm.trans h)
  exact he s

theorem exec_eq_modifyOp {f : Target → State → Out} {tgt : Target} (hf : modifyOp i.mnemonic = some f)
    (htgt : i.form.target = some tgt) (s : State) : exec i s = f tgt s := by
  obtain ⟨tgt', h, he⟩ := exec_modify hf
  obtain rfl : tgt = tgt' := Option.some.inj (htgt.symm.trans h)
  exact he s

theorem exec_eq_storeAt {r : State → Byte} {m : MemMode} (hr : storeOp i.mnemonic = some r) (hm : i.form = .mem m)
    (s : State) : exec i s = storeAt m (r s) s := by
  obtain ⟨m', h, he⟩ := exec_store hr
  obtain rfl : m = m' := AddrForm.mem.inj (hm.symm.trans h)
  exact he s

theorem exec_eq_branchIf {f : Flag} {b : Bool} {d : Byte} (hb : branchTest i.mnemonic = some (f, b))
    (hd : i.form = .relative d) (s : State) : exec i s = branchIf (s.getFlag f == b) d s := by
  obtain ⟨d', h, he⟩ := exec_branch hb
  obtain rfl : d = d' := AddrForm.relative.inj (hd.symm.trans h)
  exact he s

/-- Every read operation is one function of the state and the operand value. -/
theorem readOp_eq_withSource {mn : Mnemonic} {f : Source → State → Out} (hf : readOp mn = some f) :
    ∃ g : State → Byte → State, ∀ src s, f src s = withSource src s (g s) := by
  cases mn <;> cases hf <;> exact ⟨_, fun _ _ => rfl⟩

/-- Every write-back operation is one function of the state and the location. -/
theorem modifyOp_eq_withLoc {mn : Mnemonic} {f : Target → State → Out} (hf : modifyOp mn = some f) :
    ∃ g : State → Loc → State, ∀ tgt s, f tgt s = withLoc tgt s (g s) := by
  cases mn <;> cases hf <;> exact ⟨_, fun _ _ => rfl⟩

theorem storeAt_ok {m : MemMode} (v : Byte) (h : AddressOk s (exactAddress m s)) :
    storeAt m v s = .next (s.writeByte (cellOf m s) v) := by
  rw [storeAt, effectiveAddress_ok h, orFault_ok]

/-- A plain instruction with a memory operand is JMP or JSR, which take the address as it is written (R145). -/
theorem isPlain_mem {m : MemMode} (hp : isPlain i = true) (hm : i.form = .mem m) : ∃ w, m = .absolute w := by
  cases i <;> first | (cases hp; done) | (cases hm; done) | (cases hm; exact ⟨_, rfl⟩)

/-- An address past the space ends a read, a write-back and a store alike, before anything is read or written. -/
theorem exec_of_effectiveAddress_error {m : MemMode} {e : Fault} (hp : isPlain i = false) (hm : i.form = .mem m)
    (h : effectiveAddress m s = .error e) : exec i s = .fault e := by
  rcases instr_shape i with ⟨f, hf⟩ | ⟨f, hf⟩ | ⟨r, hr⟩ | ⟨f, b, hb⟩ | hplain
  case inl =>
    obtain ⟨g, hg⟩ := readOp_eq_withSource hf
    rw [exec_eq_readOp (src := .mem m) hf (by rw [hm]; rfl), hg, withSource, sourceValue, h, orFault_error]
  case inr.inl =>
    obtain ⟨g, hg⟩ := modifyOp_eq_withLoc hf
    rw [exec_eq_modifyOp (tgt := .mem m) hf (by rw [hm]; rfl), hg, withLoc, resolveLoc, h, orFault_error]
  case inr.inr.inl => rw [exec_eq_storeAt hr hm, storeAt, h, orFault_error]
  case inr.inr.inr.inl =>
    obtain ⟨d, hd, -⟩ := exec_branch hb
    cases hm.symm.trans hd
  case inr.inr.inr.inr => simp [hp] at hplain

end Sys2Proof.Machine
end

section
/-! Proofs for 41_addressing.md: the effective address and its error. -/

namespace Sys2Proof.Machine

/-- Settles O9: each mode's address is `addr16` of the exact sum. -/
theorem effectiveAddressIsTheExactSum : Obligations.EffectiveAddressIsTheExactSum :=
  fun _ _ => ⟨effectiveAddress_ok, effectiveAddress_error⟩

/-- Settles O10: only JMP and JSR do not resolve a memory operand, and their written address always lies in the space. -/
theorem resolverErrorEndsTheInstruction : Obligations.ResolverErrorEndsTheInstruction := by
  intro i m s hm h
  cases hp : isPlain i with
  | false => exact exec_of_effectiveAddress_error hp hm (effectiveAddress_error h)
  | true =>
    obtain ⟨w, rfl⟩ := isPlain_mem hp hm
    exact absurd ((AddressOk_iff s w.toNat).2 (.inr w.isLt)) h

end Sys2Proof.Machine
end

section
/-! Proofs for 43_load.md to 46_compare_incdec.md: what the instructions with an operand complete with. -/

namespace Sys2Proof.Machine

/-- A read instruction whose operand can be read completes with its function of the operand value. -/
theorem exec_read_ok {i : Instr} {s : State} {f : Source → State → Out} {src : Source} (hf : readOp i.mnemonic = some f)
    (hsrc : i.form.source = some src) {g : Byte → State} (hg : f src s = withSource src s g) (hok : SourceOk src s) :
    exec i s = .next (g (sourceByte src s)) := by
  rw [exec_eq_readOp hf hsrc, hg, withSource_ok _ hok]

/-- Settles O16: each load is one copy and SetZN of the byte copied. -/
theorem loadsCopyTheOperand : Obligations.LoadsCopyTheOperand := by
  intro i src s hsrc hok
  refine ⟨fun h => ?lda, fun h => ?ldx, fun h => ?ldy⟩
  case lda => exact ⟨_, exec_read_ok (f := opLda) (by rw [h]; rfl) hsrc rfl hok, rfl, znOf_setZN _ _⟩
  case ldx => exact ⟨_, exec_read_ok (f := opLdx) (by rw [h]; rfl) hsrc rfl hok, rfl, znOf_setZN _ _⟩
  case ldy => exact ⟨_, exec_read_ok (f := opLdy) (by rw [h]; rfl) hsrc rfl hok, rfl, znOf_setZN _ _⟩

/-- SetArith gives C, V, Z and N the values of its result (R210, R211). -/
theorem setArith_flags (s : State) (r : AddResult) :
    (s.setArith r).getFlag .c = r.carry ∧ (s.setArith r).getFlag .v = r.overflow ∧ ZNOf r.result (s.setArith r) :=
  ⟨by simp, by simp, znOf_setZN _ _⟩

/-- Settles O17: the adder's exact sum, carry and signed overflow, on A, the operand and C. -/
theorem adcAddsOperandAndCarry : Obligations.AdcAddsOperandAndCarry := by
  intro i src s hsrc hok h
  obtain ⟨hc, hv, hzn⟩ := setArith_flags (s.setA (addByte s.a (sourceByte src s) (s.getFlag .c)).result)
    (addByte s.a (sourceByte src s) (s.getFlag .c))
  refine ⟨_, exec_read_ok (f := opAdc) (by rw [h]; rfl) hsrc rfl hok, addByte_result_toNat _ _ _, ?carry, ?overflow, hzn⟩
  case carry => rw [hc, addByte_carry_iff]
  case overflow => rw [hv, addByteOverflowIsSignedOverflow]

/-- Settles O18: the closed forms of the subtraction, on A, the operand and C. -/
theorem sbcSubtractsOperandAndBorrow : Obligations.SbcSubtractsOperandAndBorrow := by
  intro i src s hsrc hok h
  obtain ⟨hresult, hcarry, hoverflow⟩ := subtractByteClosedForms s.a (sourceByte src s) (s.getFlag .c)
  obtain ⟨hc, hv, hzn⟩ := setArith_flags (s.setA (subtractByte s.a (sourceByte src s) (s.getFlag .c)).result)
    (subtractByte s.a (sourceByte src s) (s.getFlag .c))
  exact ⟨_, exec_read_ok (f := opSbc) (by rw [h]; rfl) hsrc rfl hok, hresult, by rw [hc, hcarry],
    by rw [hv, hoverflow], hzn⟩

/-- Settles O19: each operation is the bit-vector operation on A and the operand, with SetZN of the result. -/
theorem logicCombinesBitByBit : Obligations.LogicCombinesBitByBit := by
  intro i src s hsrc hok
  refine ⟨fun h => ?and, fun h => ?eor, fun h => ?ora⟩
  case and =>
    exact ⟨_, exec_read_ok (f := opAnd) (by rw [h]; rfl) hsrc rfl hok, znOf_setZN _ _, fun k => BitVec.getLsbD_and⟩
  case eor =>
    exact ⟨_, exec_read_ok (f := opEor) (by rw [h]; rfl) hsrc rfl hok, znOf_setZN _ _, fun k => BitVec.getLsbD_xor⟩
  case ora =>
    exact ⟨_, exec_read_ok (f := opOra) (by rw [h]; rfl) hsrc rfl hok, znOf_setZN _ _, fun k => BitVec.getLsbD_or⟩

/-- The location just written holds the byte written. -/
theorem byteAt_setZN_writeLoc (tgt : Target) (s u : State) (v : Byte) :
    byteAt tgt s ((u.writeLoc (locOf tgt s) v).setZN v) = v := by
  cases tgt with
  | acc => rfl
  | mem m => simp [byteAt, locOf]

/-- A shift in place: the location holds the result, Z and N are its, and C is the bit shifted out (R230 to R233). -/
theorem shiftInPlace_ok (f : Byte → Bool → ShiftResult) {tgt : Target} {s : State} (hok : TargetOk tgt s) :
    ∃ t, shiftInPlace f tgt s = .next t ∧ ZNOf (byteAt tgt s t) t ∧
      byteAt tgt s t = (f (byteAt tgt s s) (s.getFlag .c)).result ∧
      t.getFlag .c = (f (byteAt tgt s s) (s.getFlag .c)).carry := by
  refine ⟨_, withLoc_ok _ hok, ?_⟩
  rw [readLoc_locOf, byteAt_setZN_writeLoc]
  exact ⟨znOf_setZN _ _, rfl, by simp⟩

/-- A byte function in place: the location holds the result, and Z and N are its (R253, R254). -/
theorem modifyInPlace_ok (f : Byte → Byte) {tgt : Target} {s : State} (hok : TargetOk tgt s) :
    ∃ t, modifyInPlace f tgt s = .next t ∧ ZNOf (byteAt tgt s t) t ∧ byteAt tgt s t = f (byteAt tgt s s) := by
  refine ⟨_, withLoc_ok _ hok, ?_⟩
  rw [readLoc_locOf, byteAt_setZN_writeLoc]
  exact ⟨znOf_setZN _ _, rfl⟩

/-- Settles O20: each shift in place, with the arithmetic of its byte function. -/
theorem shiftsAndRotatesInPlace : Obligations.ShiftsAndRotatesInPlace := by
  intro i tgt s htgt hok
  refine ⟨fun h => ?asl, fun h => ?lsr, fun h => ?rol, fun h => ?ror⟩
  case asl =>
    obtain ⟨t, ht, hzn, hr, hc⟩ := shiftInPlace_ok shiftLeft hok
    exact ⟨t, (exec_eq_modifyOp (by rw [h]; rfl) htgt s).trans ht, hzn, by rw [hr, shiftLeft_toNat],
      by rw [hc, shiftLeft, getLsbD_seven_iff]⟩
  case lsr =>
    obtain ⟨t, ht, hzn, hr, hc⟩ := shiftInPlace_ok shiftRight hok
    exact ⟨t, (exec_eq_modifyOp (by rw [h]; rfl) htgt s).trans ht, hzn, by rw [hr, shiftRight_toNat],
      by rw [hc, shiftRight, getLsbD_zero_iff]⟩
  case rol =>
    obtain ⟨t, ht, hzn, hr, hc⟩ := shiftInPlace_ok rotateLeft hok
    exact ⟨t, (exec_eq_modifyOp (by rw [h]; rfl) htgt s).trans ht, hzn, by rw [hr, rotateLeft_toNat],
      by rw [hc, rotateLeft, getLsbD_seven_iff]⟩
  case ror =>
    obtain ⟨t, ht, hzn, hr, hc⟩ := shiftInPlace_ok rotateRight hok
    exact ⟨t, (exec_eq_modifyOp (by rw [h]; rfl) htgt s).trans ht, hzn, by rw [hr, rotateRight_toNat],
      by rw [hc, rotateRight, getLsbD_zero_iff]⟩

/-- The flags of a comparison, in unsigned order (R180). -/
theorem setCompare_flags (s : State) (r m : Byte) :
    ((s.setCompare r m).getFlag .c = true ↔ m.toNat ≤ r.toNat) ∧ ((s.setCompare r m).getFlag .z = true ↔ r = m) ∧
    ((s.setCompare r m).getFlag .n = true ↔ 128 ≤ (r.toNat + 256 - m.toNat) % 256) := by
  refine ⟨by simp [subtractByte_carry_iff], by simp, ?negative⟩
  case negative =>
    have hm := m.isLt
    rw [State.getFlag_setCompare, if_pos rfl, msb_iff_ge, subtractByte_result_toNat, Bool.toNat_true,
      show r.toNat + (255 - m.toNat) + 1 = r.toNat + 256 - m.toNat by omega]

/-- Settles O21: each comparison sets the flags of its register against the operand. -/
theorem comparesOrderUnsigned : Obligations.ComparesOrderUnsigned := by
  rintro i src s r hsrc hok (⟨h, rfl⟩ | ⟨h, rfl⟩ | ⟨h, rfl⟩)
  · exact ⟨_, exec_read_ok (f := opCmp) (by rw [h]; rfl) hsrc rfl hok, setCompare_flags _ _ _⟩
  · exact ⟨_, exec_read_ok (f := opCpx) (by rw [h]; rfl) hsrc rfl hok, setCompare_flags _ _ _⟩
  · exact ⟨_, exec_read_ok (f := opCpy) (by rw [h]; rfl) hsrc rfl hok, setCompare_flags _ _ _⟩

theorem inc8_toNat (v : Byte) : (inc8 v).toNat = (v.toNat + 1) % 256 := BitVec.toNat_add v 1

theorem dec8_toNat (v : Byte) : (dec8 v).toNat = (v.toNat + 255) % 256 := by
  rw [dec8, BitVec.toNat_sub, Nat.add_comm]
  rfl

/-- Settles O22: each is its byte function in place. -/
theorem incDecWrapInMemory : Obligations.IncDecWrapInMemory := by
  intro i m s hm hok
  have htgt : i.form.target = some (.mem m) := by rw [hm]; rfl
  refine ⟨fun h => ?inc, fun h => ?dec⟩
  case inc =>
    obtain ⟨t, ht, hzn, hr⟩ := modifyInPlace_ok inc8 (tgt := .mem m) hok
    exact ⟨t, (exec_eq_modifyOp (by rw [h]; rfl) htgt s).trans ht, hzn, (congrArg BitVec.toNat hr).trans (inc8_toNat _)⟩
  case dec =>
    obtain ⟨t, ht, hzn, hr⟩ := modifyInPlace_ok dec8 (tgt := .mem m) hok
    exact ⟨t, (exec_eq_modifyOp (by rw [h]; rfl) htgt s).trans ht, hzn, (congrArg BitVec.toNat hr).trans (dec8_toNat _)⟩

/-- Settles O23: each counts its register and sets Z and N of the result. -/
theorem indexRegistersCountModulo256 : Obligations.IndexRegistersCountModulo256 := by
  intro s
  refine ⟨?inx, ?iny, ?dex, ?dey⟩
  case inx => exact ⟨_, rfl, inc8_toNat _, znOf_setZN _ _⟩
  case iny => exact ⟨_, rfl, inc8_toNat _, znOf_setZN _ _⟩
  case dex => exact ⟨_, rfl, dec8_toNat _, znOf_setZN _ _⟩
  case dey => exact ⟨_, rfl, dec8_toNat _, znOf_setZN _ _⟩

/-- Settles O36: each copies its register; all but TXS set Z and N of the byte copied. -/
theorem transfersCopyRegisters : Obligations.TransfersCopyRegisters := by
  intro s
  refine ⟨?tax, ?tay, ?txa, ?tya, ?tsx, rfl⟩
  case tax => exact ⟨_, rfl, rfl, znOf_setZN _ _⟩
  case tay => exact ⟨_, rfl, rfl, znOf_setZN _ _⟩
  case txa => exact ⟨_, rfl, rfl, znOf_setZN _ _⟩
  case tya => exact ⟨_, rfl, rfl, znOf_setZN _ _⟩
  case tsx => exact ⟨_, rfl, rfl, znOf_setZN _ _⟩

/-- Settles O35: a store whose address is accepted writes its register at the cell. -/
theorem storesWriteTheRegister : Obligations.StoresWriteTheRegister := by
  intro i m s hm hok
  refine ⟨fun h => ?sta, fun h => ?stx, fun h => ?sty⟩
  case sta => exact (exec_eq_storeAt (r := State.a) (by rw [h]; rfl) hm s).trans (storeAt_ok _ hok)
  case stx => exact (exec_eq_storeAt (r := State.x) (by rw [h]; rfl) hm s).trans (storeAt_ok _ hok)
  case sty => exact (exec_eq_storeAt (r := State.y) (by rw [h]; rfl) hm s).trans (storeAt_ok _ hok)

/-- Settles O37: NOP's meaning is the state itself. -/
theorem nopOnlyAdvances : Obligations.NopOnlyAdvances := fun _ => rfl

end Sys2Proof.Machine
end

section
/-! Proofs for 47_branch_bit_flags.md and 30_encoding.md R103: branches, BIT and the flag instructions. -/

namespace Sys2Proof.Machine

/-- A branch that is taken to an accepted target (R270). -/
theorem branchIf_taken {s : State} {d : Byte} (h : AddressOk s (s.pc.toNat + d.toInt)) :
    branchIf true d s = .next { s with pc := BitVec.ofInt 16 (s.pc.toNat + d.toInt) } := by
  rw [branchIf, if_pos rfl, addr16_ok h, orFault_ok]
  rfl

/-- Settles O24: the branch's test holds or not, and its exact target is accepted or not. -/
theorem branchesAddTheSignedDisplacement : Obligations.BranchesAddTheSignedDisplacement := by
  intro i d s f b hd hb
  simp only [exec_eq_branchIf hb hd]
  refine ⟨fun hne => ?notTaken, fun heq hok => ?taken, fun heq hn => ?outOfBounds⟩
  case notTaken => rw [beq_false_of_ne hne]; rfl
  case taken => rw [beq_iff_eq.2 heq, branchIf_taken hok]
  case outOfBounds => rw [beq_iff_eq.2 heq, branchIf, if_pos rfl, addr16_error hn, orFault_error]

/-- The assembled displacement, as a signed number, is the distance from the next instruction (R103). -/
theorem branchDisplacement_eq_some {a target : Word} {d : Byte} (h : branchDisplacement a target = some d) :
    d.toInt = target.toNat - (a.toNat + 2) := by
  simp only [branchDisplacement] at h
  split at h
  · next hrange =>
    obtain rfl := Option.some.inj h
    rw [BitVec.toInt_ofInt, Int.bmod_eq_of_le] <;> omega
  · cases h

/-- Settles O5: the displacement and PC, which is past the branch, add up to the target. -/
theorem assembledBranchReachesItsTarget : Obligations.AssembledBranchReachesItsTarget := by
  intro i d a target s f b hdisp hd hb hf hpc
  have hdist := branchDisplacement_eq_some hdisp
  have hsum : (s.pc.toNat : Int) + d.toInt = target.toNat := by omega
  have hlt := target.isLt
  constructor
  · rw [exec_eq_branchIf hb hd, beq_iff_eq.2 hf, branchIf_taken (.inr (by omega)), hsum]
    simp
  · apply BitVec.eq_of_toInt_eq
    rw [branchTarget, BitVec.toInt_add, BitVec.toInt_add, BitVec.toInt_signExtend_of_le (by decide), hdist,
      BitVec.toInt_eq_toNat_bmod, BitVec.toInt_eq_toNat_bmod]
    simpa using (BitVec.toInt_eq_toNat_bmod target).symm

theorem and_eq_zero_iff (v w : Byte) : v &&& w = 0 ↔ ∀ k, (v.getLsbD k && w.getLsbD k) = false := by
  constructor
  · intro h k
    rw [← BitVec.getLsbD_and, h]
    exact BitVec.getLsbD_zero
  · intro h
    exact BitVec.eq_of_getLsbD_eq fun k _ => BitVec.getLsbD_and.trans ((h k).trans BitVec.getLsbD_zero.symm)

theorem getLsbD_six_iff (v : Byte) : v.getLsbD 6 = true ↔ 64 ≤ v.toNat % 128 := by
  rw [BitVec.getLsbD, Nat.testBit_eq_decide_div_mod_eq, decide_eq_true_iff]
  omega

/-- Settles O25: Z from the AND, N and V from bits 7 and 6 of the operand. -/
theorem bitTestsTheOperand : Obligations.BitTestsTheOperand := by
  intro i src s hsrc hok h
  refine ⟨_, exec_read_ok (f := opBit) (by rw [h]; rfl) hsrc rfl hok, ?zero, ?negative, ?overflow⟩
  case zero =>
    rw [← and_eq_zero_iff]
    simp
  case negative => simpa using getLsbD_seven_iff (sourceByte src s)
  case overflow => simpa using getLsbD_six_iff (sourceByte src s)

/-- Settles O26: each ANDs or ORs one bit of P. -/
theorem flagInstructionsChangeOneBit : Obligations.FlagInstructionsChangeOneBit :=
  fun _ => ⟨rfl, rfl, rfl, rfl, rfl, rfl, rfl⟩

end Sys2Proof.Machine
end

section
/-! The stack and the jumps of 48_control_stack.md where they complete and where they fail. -/

namespace Sys2Proof.Machine

/-! ### The meaning of each instruction of the chapter -/

theorem exec_jmpInd (ptr : Word) (s : State) : exec (.jmpInd ptr) s = execJmpInd ptr s := rfl
theorem exec_brk (s : State) : exec .brk s = takeTrap s := rfl
theorem exec_pha (s : State) : exec .pha s = pushOne s.a s := rfl
theorem exec_php (s : State) : exec .php s = pushOne (pushedStatus s.p) s := rfl
theorem exec_pla (s : State) : exec .pla s = execPla s := rfl
theorem exec_plp (s : State) : exec .plp s = execPlp s := rfl
theorem exec_jsr (w : Word) (s : State) : exec (.jsr w) s = execJsr w s := rfl
theorem exec_rts (s : State) : exec .rts s = execRts s := rfl
theorem exec_rti (s : State) : exec .rti s = returnFromTrap s := rfl

variable {s : State}

/-! ### Addresses one past a word -/

theorem addr16_succ_ok {w : Word} (h : AddressOk s (w.toNat + 1 : Nat)) :
    addr16 s.params (w.toNat + 1) = .ok (w + 1) := by
  have ha := addr16_ok h
  push_cast at ha
  rwa [ofInt16_succ] at ha

/-- Only 0xFFFF has no address past it, so the exact sum is 0x10000. -/
theorem addr16_succ_error {w : Word} (h : ¬ AddressOk s (w.toNat + 1 : Nat)) :
    addr16 s.params (w.toNat + 1) = .error (.memoryOutOfBounds 0x10000) := by
  have ha := addr16_error h
  rw [AddressOk_iff, not_or] at h
  have hw := w.isLt
  have hsum : (w.toNat : Int) + 1 = 0x10000 := by omega
  push_cast at ha
  rwa [hsum] at ha ⊢

/-! ### JMP -/

/-- The page-boundary bug: the high byte of the pointer comes from the pointer's own page (R147). -/
theorem word_lowByte_succ (w : Word) :
    word (lowByte w + 1) (highByte w) = if w.toNat % 256 = 255 then w - 255 else w + 1 := by
  have hw := w.isLt
  apply BitVec.eq_of_toNat_eq
  rw [word_toNat, BitVec.toNat_add, lowByte_toNat, highByte_toNat]
  split <;> simp only [BitVec.toNat_add, BitVec.toNat_sub] <;> simp <;> omega

theorem exec_jmpInd_ok {ptr hi : Word} (h : pointerHighAddress ptr s = .ok hi) :
    exec (.jmpInd ptr) s = .next { s with
      pc := BitVec.ofNat 16 ((s.readByte ptr).toNat + 256 * (s.readByte hi).toNat) } := by
  rw [exec_jmpInd, execJmpInd, indirectTarget, h, ofNat_word]
  rfl

/-! ### Pushes and pulls -/

/-- A slot below SP is not the one SP names. -/
@[simp] theorem sp_eq_sub_iff {sp k : Byte} : sp = sp - k ↔ k = 0 := by
  rw [eq_comm, sub_eq_self]

theorem exec_pha_ok (h : PushOk s 1) : exec .pha s = .next ((s.setSp (s.sp - 1)).writeByte (stackSlot s.sp) s.a) := by
  rw [exec_pha, pushOne, push_ok _ h, orFault_ok]

theorem exec_php_ok (h : PushOk s 1) :
    exec .php s = .next ((s.setSp (s.sp - 1)).writeByte (stackSlot s.sp) (pushedStatus s.p)) := by
  rw [exec_php, pushOne, push_ok _ h, orFault_ok]

theorem exec_pla_ok (h : PullOk s 1) : exec .pla s =
    .next (((s.setSp (s.sp + 1)).setA (s.readByte (stackSlot (s.sp + 1)))).setZN (s.readByte (stackSlot (s.sp + 1)))) := by
  rw [exec_pla, execPla, pull_ok h, orFault_ok]

theorem exec_plp_ok (h : PullOk s 1) :
    exec .plp s = .next ((s.setSp (s.sp + 1)).writeP (s.readByte (stackSlot (s.sp + 1)))) := by
  rw [exec_plp, execPlp, pull_ok h, orFault_ok]

theorem exec_jsr_ok {w : Word} (ha : AddressOk s ((s.pc.toNat : Int) - 1)) (h : PushOk s 2) :
    exec (.jsr w) s = .next ((((s.setSp (s.sp - 2)).writeByte (stackSlot s.sp) (highByte (s.pc - 1))).writeByte
      (stackSlot (s.sp - 1)) (lowByte (s.pc - 1))).setPc w) := by
  rw [exec_jsr, execJsr, addr16_ok ha, ofInt16_pred, orFault_ok, push16_ok _ h, orFault_ok]

/-- The return address two pulls give (R73). -/
def pulledWord (s : State) : Word := word (s.readByte (stackSlot (s.sp + 1))) (s.readByte (stackSlot (s.sp + 2)))

theorem pulledWord_toNat (s : State) :
    (pulledWord s).toNat = (slotAbove s s 1).toNat + 256 * (slotAbove s s 2).toNat := by
  rw [pulledWord, word_toNat, slotAbove_eq, slotAbove_eq]
  rfl

theorem exec_rts_ok (h : PullOk s 2) (ha : AddressOk s ((pulledWord s).toNat + 1 : Nat)) :
    exec .rts s = .next { s with sp := s.sp + 2, pc := pulledWord s + 1 } := by
  rw [exec_rts, execRts, pull16_ok h, orFault_ok]
  exact congrArg (orFault · _) (addr16_succ_ok ha)

theorem exec_rts_outOfBounds (h : PullOk s 2) (ha : ¬ AddressOk s ((pulledWord s).toNat + 1 : Nat)) :
    exec .rts s = .fault (.memoryOutOfBounds 0x10000) := by
  rw [exec_rts, execRts, pull16_ok h, orFault_ok]
  exact congrArg (orFault · _) (addr16_succ_error ha)

theorem returnFromTrap_error (h : ¬ PullOk s 3) : returnFromTrap s = .fault (.stackUnderflow 0xFF) := by
  unfold returnFromTrap
  rcases pull_cases s with ⟨h1, hp⟩ | ⟨-, hp⟩
  · have h2 : ¬ PullOk ((s.setSp (s.sp + 1)).writeP (s.readByte (stackSlot (s.sp + 1)))) 2 :=
      mt (PullOk_succ_iff s ((s.setSp (s.sp + 1)).writeP (s.readByte (stackSlot (s.sp + 1)))) rfl rfl h1).2 h
    rw [hp, orFault_ok, pull16_error h2, orFault_error]
  · rw [hp, orFault_error]

end Sys2Proof.Machine
end

section
/-! Proofs for 48_control_stack.md. -/

namespace Sys2Proof.Machine

/-- Settles O27: the operand is the target, or the pointer is read with its high byte where the variant says. -/
theorem jmpGoesToTheResolvedAddress : Obligations.JmpGoesToTheResolvedAddress := by
  intro s w
  refine ⟨rfl, fun hbug => ?bug, fun hfix hok => ?fixed, fun hfix hn => ?outOfBounds⟩
  case bug => exact exec_jmpInd_ok (by rw [pointerHighAddress, if_neg (by simp [hbug]), word_lowByte_succ])
  case fixed => exact exec_jmpInd_ok (by rw [pointerHighAddress, if_pos hfix, addr16_succ_ok hok])
  case outOfBounds =>
    rw [exec_jmpInd, execJmpInd, indirectTarget, pointerHighAddress, if_pos hfix, addr16_succ_error hn, orFault_error]

/-- Settles O28: the three pushes lie in distinct slots, none of them in the vector. -/
theorem brkTakesTheTrap : Obligations.BrkTakesTheTrap := by
  intro s ha hp
  refine ⟨_, takeTrap_ok ha hp, ?high, ?low, ?status, ?sp, ?p, ?pc, ?stop⟩
  case high => rw [slotBelow_eq _ _ (by decide)]; simp [highByte]
  case low => rw [slotBelow_eq _ _ (by decide)]; simp [lowByte]
  case status => rw [slotBelow_eq _ _ (by decide)]; simp [pushedStatus]
  case sp => rfl
  case p => exact BitVec.or_assoc s.p 0x10 0x04
  case pc =>
    simp [State.readWord, vector_ne_stackSlot]
    rfl
  case stop => simp [brkHalts_iff]

/-- Settles O29: each answer of the stack operations, in the order the meaning reaches them. -/
theorem stackErrorsAreRaisedInOrder : Obligations.StackErrorsAreRaisedInOrder := by
  intro s w
  refine ⟨fun ha => ?address, fun ha hp => takeTrap_error ha hp, fun hp => ⟨?pha, ?php⟩, fun ha hp => ?jsr,
    fun hp => ⟨?pla, ?plp⟩, fun hp => ?rts, fun hp => returnFromTrap_error hp⟩
  case address => rw [exec_brk, takeTrap, addr16_succ_error ha, orFault_error]
  case pha => rw [exec_pha, pushOne, push_error _ hp, orFault_error]
  case php => rw [exec_php, pushOne, push_error _ hp, orFault_error]
  case jsr => rw [exec_jsr, execJsr, addr16_ok ha, orFault_ok, push16_error _ hp, orFault_error]
  case pla => rw [exec_pla, execPla, pull_error hp, orFault_error]
  case plp => rw [exec_plp, execPlp, pull_error hp, orFault_error]
  case rts => rw [exec_rts, execRts, pull16_error hp, orFault_error]

/-- Settles O30: the byte lies in the slot SP named, and SP is one lower. -/
theorem pushesStoreAndDecrement : Obligations.PushesStoreAndDecrement := by
  intro s hp
  have hsp : (s.sp - 1).toNat = (s.sp.toNat + 255) % 256 := dec8_toNat s.sp
  refine ⟨⟨_, exec_pha_ok hp, ?pha, hsp⟩, ⟨_, exec_php_ok hp, ?php, hsp⟩⟩
  case pha => rw [slotBelow_eq _ _ (by decide)]; simp
  case php => rw [slotBelow_eq _ _ (by decide)]; simp [pushedStatus]

/-- Settles O31: the pulled byte is the one above SP. -/
theorem pullsLoadAndIncrement : Obligations.PullsLoadAndIncrement := by
  intro s hp
  have hsp : (s.sp + 1).toNat = (s.sp.toNat + 1) % 256 := inc8_toNat s.sp
  rw [slotAbove_eq]
  exact ⟨⟨_, exec_pla_ok hp, rfl, hsp, znOf_setZN _ _⟩, ⟨_, exec_plp_ok hp, hsp, writeP_bit5 _, State.getFlag_writeP _ _⟩⟩

/-- Settles O32: the two bytes of a + 2 lie in the slot SP named and the one below. -/
theorem jsrPushesItsLastByteAddress : Obligations.JsrPushesItsLastByteAddress := by
  intro s w ha hp
  refine ⟨_, exec_jsr_ok ha hp, rfl, rfl, ?high, ?low⟩
  case high => rw [slotBelow_eq _ _ (by decide)]; simp [highByte]
  case low => rw [slotBelow_eq _ _ (by decide)]; simp [lowByte]

/-- Settles O33: the pulled address plus one is accepted or out of bounds. -/
theorem rtsGoesPastThePulledAddress : Obligations.RtsGoesPastThePulledAddress := by
  intro s hp
  rw [← pulledWord_toNat]
  refine ⟨fun ha => ?completes, exec_rts_outOfBounds hp⟩
  case completes =>
    rw [exec_rts_ok hp ha, BitVec.ofNat_add]
    simp

/-- Settles O34: the status lies above SP, the return address above it. -/
theorem rtiRestoresStatusAndPc : Obligations.RtiRestoresStatusAndPc := by
  intro s hp
  rw [ofNat_word, slotAbove_eq, slotAbove_eq, slotAbove_eq]
  exact returnFromTrap_ok hp

/-- Settles O38: RTS pulls the two bytes JSR pushed and adds the one JSR had taken off. -/
theorem rtsReturnsAfterJsr : Obligations.RtsReturnsAfterJsr := by
  intro s t w h
  obtain ⟨ha, hp, ht⟩ := execJsr_next (t := t) h
  have hsp : t.sp = s.sp - 2 := by rw [ht]; rfl
  have hparams : t.params = s.params := by rw [ht]; rfl
  have hword : pulledWord t = s.pc - 1 := by
    rw [pulledWord, hsp, show s.sp - 2 + 1 = s.sp - 1 by bv_omega, ht]
    simp
  have hok : AddressOk t ((s.pc - 1).toNat + 1 : Nat) := by
    have hpc := s.pc.isLt
    rw [AddressOk_iff, hparams, BitVec.toNat_sub]
    refine ha.imp_right fun h => ?_
    rw [show (1 : Word).toNat = 1 from rfl]
    omega
  rw [exec_rts_ok (PullOk_of_pushes hp hparams hsp) (by rwa [hword]), hword, hsp]
  simp

/-- PHP and BRK set bits 4 and 5 of the byte they push, and the pull clears bit 5 (R36, R74). -/
theorem pushedStatus_pulled : ∀ p : Byte, pushedStatus p &&& 0xDF = (p ||| 0x10) &&& 0xDF := by decide

/-- Settles O39: RTI pulls the three bytes BRK pushed. -/
theorem rtiReturnsAfterBrk : Obligations.RtiReturnsAfterBrk := by
  intro s t h
  obtain ⟨-, hp, ht⟩ := takeTrap_next (t := t) h
  have hsp : t.sp = s.sp - 3 := by rw [ht]; rfl
  have hparams : t.params = s.params := by rw [ht]; rfl
  have hstatus : t.readByte (stackSlot (t.sp + 1)) = pushedStatus s.p := by
    rw [hsp, show s.sp - 3 + 1 = s.sp - 2 by bv_omega, ht]
    simp
  have hret : word (t.readByte (stackSlot (t.sp + 2))) (t.readByte (stackSlot (t.sp + 3))) = s.pc + 1 := by
    rw [hsp, show s.sp - 3 + 2 = s.sp - 1 by bv_omega, BitVec.sub_add_cancel, ht]
    simp
  have hpull : PullOk t 3 := PullOk_of_pushes hp hparams hsp
  rw [exec_rti, returnFromTrap_ok hpull, hstatus, hret, hsp, BitVec.sub_add_cancel, pushedStatus_pulled]

/-- What a pull finds in the state a push of one byte left (R71, R72). -/
theorem pull_after_pushOne {s t : State} {v : Byte} (h : pushOne v s = .next t) :
    PullOk t 1 ∧ t.readByte (stackSlot (t.sp + 1)) = v ∧ t.sp + 1 = s.sp := by
  have hp : PushOk s 1 := by
    rcases push_cases s v with ⟨hp, -⟩ | ⟨-, he⟩
    · exact hp
    · rw [pushOne, he, orFault_error] at h
      cases h
  have ht := pushOne_next h
  exact ⟨PullOk_of_pushes hp (by rw [ht]; rfl) (by rw [ht]; rfl), by simp [ht], by simp [ht]⟩

/-- Settles O40: a pull reads the slot the push wrote. -/
theorem pullUndoesPush : Obligations.PullUndoesPush := by
  intro s t
  refine ⟨fun h => ?accumulator, fun h => ?status⟩
  case accumulator =>
    obtain ⟨hp, hv, hsp⟩ := pull_after_pushOne (v := s.a) h
    rw [exec_pla_ok hp, hv, hsp]
    exact ⟨_, rfl, rfl, rfl, znOf_setZN _ _⟩
  case status =>
    obtain ⟨hp, hv, hsp⟩ := pull_after_pushOne (v := pushedStatus s.p) h
    rw [exec_plp_ok hp, hv, hsp, State.writeP, pushedStatus_pulled]
    rfl

end Sys2Proof.Machine
end

section
/-! What a completed instruction leaves, said once over all instructions (`exec_next`), and the frames of 10_state.md R31 to
R47, 20_memory.md R70 to R81 and 70_reset_and_hazards.md R447 that follow from it. -/

namespace Sys2Proof.Machine

/-- The effect of each mnemonic that uses registers and flags only; it completes in every state. -/
def registerOp : Mnemonic → Option (State → State)
  | .inx => some fun s => (s.setX (inc8 s.x)).setZN (inc8 s.x)
  | .iny => some fun s => (s.setY (inc8 s.y)).setZN (inc8 s.y)
  | .dex => some fun s => (s.setX (dec8 s.x)).setZN (dec8 s.x)
  | .dey => some fun s => (s.setY (dec8 s.y)).setZN (dec8 s.y)
  | .tax => some fun s => (s.setX s.a).setZN s.a
  | .tay => some fun s => (s.setY s.a).setZN s.a
  | .txa => some fun s => (s.setA s.x).setZN s.x
  | .tya => some fun s => (s.setA s.y).setZN s.y
  | .tsx => some fun s => (s.setX s.sp).setZN s.sp
  | .txs => some fun s => s.setSp s.x
  | .clc => some fun s => s.setFlag .c false
  | .cld => some fun s => s.setFlag .d false
  | .cli => some fun s => s.setFlag .i false
  | .clv => some fun s => s.setFlag .v false
  | .sec => some fun s => s.setFlag .c true
  | .sed => some fun s => s.setFlag .d true
  | .sei => some fun s => s.setFlag .i true
  | .nop => some fun s => s
  | _ => none

theorem exec_register {i : Instr} {g : State → State} (h : registerOp i.mnemonic = some g) (s : State) :
    exec i s = .next (g s) := by
  cases i <;> first | (cases h; done) | (cases h; rfl)

/-- A plain instruction is one on registers and flags, a jump, or one of the eight that use the stack. -/
theorem plain_cases {i : Instr} (h : isPlain i = true) :
    (∃ g, registerOp i.mnemonic = some g) ∨ (∃ w, i = .jmpAbs w) ∨ (∃ w, i = .jmpInd w) ∨ (∃ w, i = .jsr w) ∨
    i ∈ [.brk, .pha, .php, .pla, .plp, .rts, .rti] := by
  cases i <;> first
    | (cases h; done)
    | exact .inl ⟨_, rfl⟩
    | exact .inr (.inl ⟨_, rfl⟩)
    | exact .inr (.inr (.inl ⟨_, rfl⟩))
    | exact .inr (.inr (.inr (.inl ⟨_, rfl⟩)))
    | exact .inr (.inr (.inr (.inr (by simp))))

/-- What an instruction leaves where it completes, and when it does: one case per shape of instruction, and one for each
jump and each instruction of the stack. -/
inductive Completes : Instr → State → State → Prop
  | read {i f src s t} (hf : readOp i.mnemonic = some f) (hsrc : i.form.source = some src) (h : f src s = .next t) :
      Completes i s t
  | modify {i f tgt s t} (hf : modifyOp i.mnemonic = some f) (htgt : i.form.target = some tgt) (h : f tgt s = .next t) :
      Completes i s t
  | store {i r m s ea} (hr : storeOp i.mnemonic = some r) (hm : i.form = .mem m) (hea : effectiveAddress m s = .ok ea) :
      Completes i s (s.writeByte ea (r s))
  | notTaken {i f b s} (hb : branchTest i.mnemonic = some (f, b)) (hne : s.getFlag f ≠ b) : Completes i s s
  | taken {i d f b s target} (hb : branchTest i.mnemonic = some (f, b)) (hd : i.form = .relative d)
      (heq : s.getFlag f = b) (ha : addr16 s.params (s.pc.toNat + d.toInt) = .ok target) : Completes i s (s.setPc target)
  | register {i g s} (hg : registerOp i.mnemonic = some g) : Completes i s (g s)
  | jmpAbs {w s} : Completes (.jmpAbs w) s (s.setPc w)
  | jmpInd {w s target} (hw : indirectTarget w s = .ok target) : Completes (.jmpInd w) s (s.setPc target)
  | brk {s} (ha : AddressOk s (s.pc.toNat + 1 : Nat)) (hp : PushOk s 3) : Completes .brk s (enterHandler (s.getFlag .i)
      ((((s.setSp (s.sp - 3)).writeByte (stackSlot s.sp) (highByte (s.pc + 1))).writeByte (stackSlot (s.sp - 1))
        (lowByte (s.pc + 1))).writeByte (stackSlot (s.sp - 2)) (pushedStatus s.p)))
  | pha {s} : Completes .pha s ((s.setSp (s.sp - 1)).writeByte (stackSlot s.sp) s.a)
  | php {s} : Completes .php s ((s.setSp (s.sp - 1)).writeByte (stackSlot s.sp) (pushedStatus s.p))
  | pla {s} : Completes .pla s
      (((s.setSp (s.sp + 1)).setA (s.readByte (stackSlot (s.sp + 1)))).setZN (s.readByte (stackSlot (s.sp + 1))))
  | plp {s} : Completes .plp s ((s.setSp (s.sp + 1)).writeP (s.readByte (stackSlot (s.sp + 1))))
  | jsr {w s} (ha : AddressOk s ((s.pc.toNat : Int) - 1)) (hp : PushOk s 2) : Completes (.jsr w) s
      ((((s.setSp (s.sp - 2)).writeByte (stackSlot s.sp) (highByte (s.pc - 1))).writeByte (stackSlot (s.sp - 1))
        (lowByte (s.pc - 1))).setPc w)
  | rts {s target} (hp : PullOk s 2) (ha : addr16 s.params ((pulledWord s).toNat + 1) = .ok target) :
      Completes .rts s ((s.setSp (s.sp + 2)).setPc target)
  | rti {s} (hp : PullOk s 3) : Completes .rti s (((s.setSp (s.sp + 3)).writeP (s.readByte (stackSlot (s.sp + 1)))).setPc
      (word (s.readByte (stackSlot (s.sp + 2))) (s.readByte (stackSlot (s.sp + 3)))))

/-- Everything an instruction that answers a next state can have done. -/
theorem exec_next {i : Instr} {s t : State} (h : exec i s = .next t) : Completes i s t := by
  rcases instr_shape i with ⟨f, hf⟩ | ⟨f, hf⟩ | ⟨r, hr⟩ | ⟨f, b, hb⟩ | hp
  · obtain ⟨src, hsrc, he⟩ := exec_read hf
    exact .read hf hsrc ((he s).symm.trans h)
  · obtain ⟨tgt, htgt, he⟩ := exec_modify hf
    exact .modify hf htgt ((he s).symm.trans h)
  · obtain ⟨m, hm, he⟩ := exec_store hr
    obtain ⟨ea, hea, rfl⟩ := storeAt_next ((he s).symm.trans h)
    exact .store hr hm hea
  · obtain ⟨d, hd, he⟩ := exec_branch hb
    rcases branchIf_next ((he s).symm.trans h) with ⟨hc, rfl⟩ | ⟨hc, target, ha, rfl⟩
    · exact .notTaken hb (beq_eq_false_iff_ne.1 hc)
    · exact .taken hb hd (beq_iff_eq.1 hc) ha
  · rcases plain_cases hp with ⟨g, hg⟩ | ⟨w, rfl⟩ | ⟨w, rfl⟩ | ⟨w, rfl⟩ | hi
    · cases (exec_register hg s).symm.trans h
      exact .register hg
    · cases h
      exact .jmpAbs
    · obtain ⟨target, hw, rfl⟩ := execJmpInd_next h
      exact .jmpInd hw
    · obtain ⟨ha, hp, rfl⟩ := execJsr_next h
      exact .jsr ha hp
    · simp only [List.mem_cons, List.not_mem_nil, or_false] at hi
      rcases hi with rfl | rfl | rfl | rfl | rfl | rfl | rfl
      · obtain ⟨ha, hp, rfl⟩ := takeTrap_next h
        exact .brk ha hp
      · rw [pushOne_next h]
        exact .pha
      · rw [pushOne_next h]
        exact .php
      · rw [execPla_next h]
        exact .pla
      · rw [execPlp_next h]
        exact .plp
      · obtain ⟨hp, target, ha, rfl⟩ := execRts_next h
        exact .rts hp ha
      · obtain ⟨hp, rfl⟩ := returnFromTrap_next h
        exact .rti hp

/-! ### Registers (R31 to R33) -/

/-- A, X, Y and SP are as before but where R31 to R33 name the mnemonic as writing them. -/
abbrev RegistersKept (mn : Mnemonic) (s t : State) : Prop :=
  (mn ∉ [.lda, .adc, .sbc, .and, .eor, .ora, .pla, .txa, .tya] → t.a = s.a) ∧
  (mn ∉ [.ldx, .inx, .dex, .tax, .tsx] → t.x = s.x) ∧
  (mn ∉ [.ldy, .iny, .dey, .tay] → t.y = s.y) ∧
  (mn ∉ [.pha, .php, .pla, .plp, .jsr, .rts, .brk, .rti, .txs] → t.sp = s.sp)

theorem readOp_registers {mn : Mnemonic} {f : Source → State → Out} {src : Source} {s t : State}
    (hf : readOp mn = some f) (h : f src s = .next t) : RegistersKept mn s t := by
  cases mn <;> cases hf
  all_goals
    obtain ⟨v, -, rfl⟩ := withSource_next h
    simp [RegistersKept]

theorem registerOp_registers {mn : Mnemonic} {g : State → State} (hg : registerOp mn = some g) (s : State) :
    RegistersKept mn s (g s) := by
  cases mn <;> cases hg <;> simp [RegistersKept]

/-- The location a write-back instruction resolves: the accumulator under its form, else the cell at the effective
address. -/
theorem resolveLoc_of_form {i : Instr} {tgt : Target} {l : Loc} {s : State} (htgt : i.form.target = some tgt)
    (hl : resolveLoc tgt s = .ok l) :
    (i.form = .accumulator ∧ l = .acc) ∨
    (∃ m ea, i.form = .mem m ∧ effectiveAddress m s = .ok ea ∧ l = .mem ea) := by
  cases hform : i.form <;> rw [hform] at htgt <;> cases htgt
  case accumulator =>
    cases hl
    exact .inl ⟨rfl, rfl⟩
  case mem m =>
    simp only [resolveLoc] at hl
    cases hea : effectiveAddress m s with
    | error e => simp [hea] at hl
    | ok ea =>
      rw [hea] at hl
      cases hl
      exact .inr ⟨m, ea, rfl, hea, rfl⟩

theorem modifyOp_registers {i : Instr} {f : Target → State → Out} {tgt : Target} {s t : State}
    (hf : modifyOp i.mnemonic = some f) (htgt : i.form.target = some tgt) (h : f tgt s = .next t) :
    (i.form ≠ .accumulator → t.a = s.a) ∧ t.x = s.x ∧ t.y = s.y ∧ t.sp = s.sp := by
  obtain ⟨l, v, hl, ht, -⟩ := modifyOp_frame hf h
  rw [ht]
  refine ⟨fun hform => ?_, by simp, by simp, by simp⟩
  rcases resolveLoc_of_form htgt hl with ⟨hacc, -⟩ | ⟨m, ea, -, -, rfl⟩
  · exact absurd hacc hform
  · rfl

/-- Settles O41: case by case, the registers are those of the start but where the mnemonic is named. -/
theorem registersChangeOnlyWhereNamed : Obligations.RegistersChangeOnlyWhereNamed := by
  intro i s t h
  cases exec_next h
  case read hf _ h =>
    obtain ⟨ha, hx, hy, hsp⟩ := readOp_registers hf h
    exact ⟨fun hn _ => ha hn, hx, hy, hsp⟩
  case modify hf htgt h =>
    obtain ⟨ha, hx, hy, hsp⟩ := modifyOp_registers hf htgt h
    exact ⟨fun _ => ha, fun _ => hx, fun _ => hy, fun _ => hsp⟩
  case register hg =>
    obtain ⟨ha, hx, hy, hsp⟩ := registerOp_registers hg s
    exact ⟨fun hn _ => ha hn, hx, hy, hsp⟩
  case store | notTaken | taken | jmpAbs | jmpInd =>
    exact ⟨fun _ _ => rfl, fun _ => rfl, fun _ => rfl, fun _ => rfl⟩
  case brk | pha | php | plp | jsr | rts | rti =>
    exact ⟨fun _ _ => rfl, fun _ => rfl, fun _ => rfl, fun hn => by simp [Instr.mnemonic, Instr.info] at hn⟩
  case pla => exact ⟨fun hn => absurd (by decide) hn, fun _ => rfl, fun _ => rfl, fun hn => absurd (by decide) hn⟩

/-! ### Flags (R45, R36) -/

/-- The flags that the mnemonic's row of R45 does not name, and bit 5 of P, are as before. -/
abbrev FlagsKept (mn : Mnemonic) (s t : State) : Prop :=
  (∀ f, f ∉ flagsWritten mn → t.getFlag f = s.getFlag f) ∧ t.p[5] = s.p[5]

/-- An instruction that leaves P leaves every flag. -/
theorem flagsKept_of_p_eq {mn : Mnemonic} {s t : State} (h : t.p = s.p) : FlagsKept mn s t :=
  ⟨fun f _ => State.getFlag_congr h f, by rw [h]⟩

theorem readOp_flags {mn : Mnemonic} {f : Source → State → Out} {src : Source} {s t : State}
    (hf : readOp mn = some f) (h : f src s = .next t) : FlagsKept mn s t := by
  refine ⟨?_, (readOp_frame hf h).2⟩
  cases mn <;> cases hf
  all_goals
    obtain ⟨v, -, rfl⟩ := withSource_next h
    simp +contextual [flagsWritten]

theorem modifyOp_flags {mn : Mnemonic} {f : Target → State → Out} {tgt : Target} {s t : State}
    (hf : modifyOp mn = some f) (h : f tgt s = .next t) : FlagsKept mn s t := by
  obtain ⟨_, _, _, _, hbit5⟩ := modifyOp_frame hf h
  refine ⟨?_, hbit5⟩
  cases mn <;> cases hf
  all_goals
    obtain ⟨l, -, rfl⟩ := withLoc_next h
    simp +contextual [flagsWritten]

theorem registerOp_flags {mn : Mnemonic} {g : State → State} (hg : registerOp mn = some g) (s : State) :
    FlagsKept mn s (g s) := by
  cases mn <;> cases hg <;> simp +contextual [FlagsKept, flagsWritten]

/-- The flags an instruction leaves; PLP and RTI, which load P whole, are the only ones to write bit 5, and clear it. -/
theorem exec_flags {i : Instr} {s t : State} (h : exec i s = .next t) :
    (i.mnemonic ∈ [.plp, .rti] ∧ t.p[5] = false) ∨ FlagsKept i.mnemonic s t := by
  cases exec_next h
  case plp | rti => exact .inl ⟨by decide, writeP_bit5 _⟩
  case read hf _ h => exact .inr (readOp_flags hf h)
  case modify hf _ h => exact .inr (modifyOp_flags hf h)
  case register hg => exact .inr (registerOp_flags hg s)
  case store | notTaken | taken | jmpAbs | jmpInd | pha | php | jsr | rts => exact .inr (flagsKept_of_p_eq rfl)
  case brk =>
    refine .inr ⟨fun f hf => ?_, enterHandler_bit5 _ _⟩
    have hne : f ≠ .b ∧ f ≠ .i := by simpa [flagsWritten, Instr.mnemonic, Instr.info] using hf
    simp [hne]
  case pla =>
    refine .inr ⟨fun f hf => ?_, State.setZN_bit5 _ _⟩
    have hne : f ≠ .n ∧ f ≠ .z := by simpa [flagsWritten, Instr.mnemonic, Instr.info] using hf
    simp [hne]

/-- Settles O42: PLP and RTI name every flag, and every other instruction leaves what its row does not name. -/
theorem flagsChangeOnlyWhereNamed : Obligations.FlagsChangeOnlyWhereNamed := by
  intro i s t h
  rcases exec_flags h with ⟨hi, -⟩ | ⟨hflags, hbit5⟩
  · refine ⟨fun f hf => absurd ?named hf, fun hn => absurd hi hn⟩
    case named =>
      have hall : ∀ mn ∈ [Mnemonic.plp, .rti], f ∈ flagsWritten mn := by cases f <;> decide
      exact hall _ hi
  · exact ⟨hflags, fun _ => hbit5⟩

/-! ### Memory (R447, R71, R73) -/

/-- A mnemonic that works in place is one of those that store. -/
theorem storing_of_modifyOp {mn : Mnemonic} {f : Target → State → Out} (hf : modifyOp mn = some f) :
    mn ∈ storingMnemonics := by
  cases mn <;> cases hf <;> decide

theorem storing_of_storeOp {mn : Mnemonic} {r : State → Byte} (hr : storeOp mn = some r) : mn ∈ storingMnemonics := by
  cases mn <;> cases hr <;> decide

theorem storing_cases {mn : Mnemonic} (h : mn ∈ storingMnemonics) :
    (∃ f, modifyOp mn = some f) ∨ (∃ r, storeOp mn = some r) := by
  cases mn <;> first | exact .inl ⟨_, rfl⟩ | exact .inr ⟨_, rfl⟩ | exact absurd h (by decide)

/-- A register operation writes SP, A, X, Y and P only. -/
theorem registerOp_frame {mn : Mnemonic} {g : State → State} (hg : registerOp mn = some g) (s : State) :
    g s = { s with sp := (g s).sp, a := (g s).a, x := (g s).x, y := (g s).y, p := (g s).p } := by
  cases mn <;> cases hg <;> rfl

/-- Settles O43: only write-backs on memory, stores and pushes write a cell. -/
theorem memoryUnchangedWithoutAStore : Obligations.MemoryUnchangedWithoutAStore := by
  intro i s t h hi
  suffices hmem : t.mem = s.mem from fun a => State.readByte_congr hmem a
  cases exec_next h
  case read hf _ h => rw [(readOp_frame hf h).1]
  case register hg => rw [registerOp_frame hg s]
  case notTaken | taken | jmpAbs | jmpInd | pla | plp | rts | rti => rfl
  case modify hf htgt h =>
    obtain ⟨l, v, hl, ht, -⟩ := modifyOp_frame hf h
    rcases resolveLoc_of_form htgt hl with ⟨-, rfl⟩ | ⟨m, ea, hform, -, -⟩
    · rw [ht]; rfl
    · simp [storing_of_modifyOp hf, hform] at hi
  case store hr hform _ => simp [storing_of_storeOp hr, hform] at hi
  case brk | pha | php | jsr =>
    simp [Instr.mnemonic, Instr.form, Instr.info, storingMnemonics, pushingMnemonics] at hi

/-- Settles O44: a write-back writes its location once, a store its cell. -/
theorem storeChangesOnlyItsCell : Obligations.StoreChangesOnlyItsCell := by
  intro i m s t h hi hm ea hea a ha
  rcases storing_cases hi with ⟨f, hf⟩ | ⟨r, hr⟩
  · rw [exec_eq_modifyOp (tgt := .mem m) hf (by rw [hm]; rfl)] at h
    obtain ⟨l, v, hl, ht, -⟩ := modifyOp_frame hf h
    obtain rfl : l = .mem ea := by simpa [resolveLoc, hea] using hl.symm
    calc t.readByte a = (s.writeByte ea v).readByte a := State.readByte_congr (by rw [ht]; rfl) a
      _ = s.readByte a := by simp [ha]
  · rw [exec_eq_storeAt hr hm] at h
    obtain ⟨ea', hea', rfl⟩ := storeAt_next h
    obtain rfl : ea = ea' := by simpa [hea] using hea'
    simp [ha]

theorem pushing_cases {i : Instr} (h : i.mnemonic ∈ pushingMnemonics) :
    i = .pha ∨ i = .php ∨ (∃ w, i = .jsr w) ∨ i = .brk := by
  cases i <;> simp [Instr.mnemonic, Instr.info, pushingMnemonics] at h ⊢

/-- Settles O45: the pushes write one, two and three slots from SP down. -/
theorem pushChangesOnlyItsSlots : Obligations.PushChangesOnlyItsSlots := by
  intro i s t h a h0
  by_cases hi : i.mnemonic ∈ pushingMnemonics
  · rcases pushing_cases hi with rfl | rfl | ⟨w, rfl⟩ | rfl
    · exact ⟨fun _ => by simp [pushOne_next (v := s.a) h, h0], nofun, nofun⟩
    · exact ⟨fun _ => by simp [pushOne_next (v := pushedStatus s.p) h, h0], nofun, nofun⟩
    · obtain ⟨-, -, rfl⟩ := execJsr_next h
      exact ⟨nofun, fun _ h1 => by simp only [State.readByte_setPc, State.readByte_writeByte, State.readByte_setSp,
        if_neg h0, if_neg h1], nofun⟩
    · obtain ⟨-, -, rfl⟩ := takeTrap_next h
      exact ⟨nofun, nofun, fun _ h1 h2 => by simp only [readByte_enterHandler, State.readByte_writeByte,
        State.readByte_setSp, if_neg h0, if_neg h1, if_neg h2]⟩
  · have hne : ∀ mn ∈ pushingMnemonics, i.mnemonic ≠ mn := fun mn hmn he => hi (he ▸ hmn)
    exact ⟨fun hm => hm.elim (absurd · (hne _ (by decide))) (absurd · (hne _ (by decide))),
      fun hm => absurd hm (hne _ (by decide)), fun hm => absurd hm (hne _ (by decide))⟩

end Sys2Proof.Machine
end

section
/-! Proofs for 40_dispatch.md R127: the points at which PC changes. -/

namespace Sys2Proof.Machine

/-- PC moves only under a branch, a jump, a return or the trap. -/
theorem exec_pc {i : Instr} {s t : State} (h : exec i s = .next t) (hb : branchTest i.mnemonic = none)
    (hi : i.mnemonic ∉ [.jmp, .jsr, .rts, .brk, .rti]) : t.pc = s.pc := by
  cases exec_next h
  case read hf _ h => rw [(readOp_frame hf h).1]
  case modify hf _ h =>
    obtain ⟨l, v, -, ht, -⟩ := modifyOp_frame hf h
    rw [ht]
    exact State.writeLoc_pc s l v
  case register hg => rw [registerOp_frame hg s]
  case store | notTaken | pha | php | pla | plp => rfl
  case taken hb' _ _ _ => simp [hb] at hb'
  case jmpAbs | jmpInd | jsr | brk | rts | rti => simp [Instr.mnemonic, Instr.info] at hi

/-- The byte fetch moves PC to the address past it (R121). -/
theorem fetchByte_pc {s t : State} {b : Byte} (h : fetchByte s = .ok (b, t)) :
    addr16 s.params (s.pc.toNat + 1) = .ok t.pc := by
  unfold fetchByte at h
  cases ha : addr16 s.params (s.pc.toNat + 1) with
  | error e => simp [ha] at h
  | ok next =>
    rw [ha] at h
    cases h
    rfl

/-- Settles O46: the fetch, and each point of the table by the inversion of its instruction. -/
theorem pcChangesOnlyAtTheSequencersPoints : Obligations.PcChangesOnlyAtTheSequencersPoints := by
  refine ⟨fun s t b => fetchByte_pc, fun i s t h =>
    ⟨exec_pc h, ?notTaken, ?taken, ?absolute, ?indirect, ?rts, ?brk, ?rti⟩⟩
  case notTaken =>
    intro d f b hd hb hne
    rw [exec_eq_branchIf hb hd, beq_false_of_ne hne] at h
    cases h
    rfl
  case taken =>
    intro d f b hd hb heq
    rw [exec_eq_branchIf hb hd, beq_iff_eq.2 heq] at h
    rcases branchIf_next h with ⟨hc, -⟩ | ⟨-, target, ha, rfl⟩
    · cases hc
    · exact ha
  case absolute =>
    rintro w (rfl | rfl)
    · cases h
      rfl
    · obtain ⟨-, -, rfl⟩ := execJsr_next h
      rfl
  case indirect =>
    rintro w rfl
    obtain ⟨target, ht, rfl⟩ := execJmpInd_next h
    exact ht
  case rts =>
    rintro rfl
    obtain ⟨-, target, ht, rfl⟩ := execRts_next h
    rw [← pulledWord_toNat]
    exact ht
  case brk =>
    rintro rfl
    obtain ⟨-, -, rfl⟩ := takeTrap_next h
    rw [enterHandler_pc, State.readWord, word_toNat]
    simp [vector_ne_stackSlot]
    rfl
  case rti =>
    rintro rfl
    obtain ⟨-, rfl⟩ := returnFromTrap_next h
    rw [slotAbove_eq, slotAbove_eq, ← word_toNat]
    rfl

end Sys2Proof.Machine
end

section
/-! Proofs for 10_state.md and 20_memory.md: what every step keeps, and the invariant. -/

namespace Sys2Proof.Machine

/-- What no instruction writes: the parameters, the run argument, the counts; and the stop reason but for a halting
BRK. -/
abbrev UnwrittenKept (s t : State) : Prop :=
  t.params = s.params ∧ t.onInvalid = s.onInvalid ∧ t.draws = s.draws ∧ t.steps = s.steps ∧
  (t.stop = s.stop ∨ (t.stop = some .haltedBrk ∧ s.params.brkHalt ≠ .never))

theorem enterHandler_stop_cases (iOld : Bool) (s : State) :
    (enterHandler iOld s).stop = s.stop ∨
    ((enterHandler iOld s).stop = some .haltedBrk ∧ s.params.brkHalt ≠ .never) := by
  rw [enterHandler_stop]
  by_cases hh : brkHalts s.params.brkHalt iOld = true
  · refine .inr ⟨if_pos hh, fun hn => ?_⟩
    simp [hn, brkHalts] at hh
  · exact .inl (if_neg hh)

theorem exec_unwrittenKept {i : Instr} {s t : State} (h : exec i s = .next t) : UnwrittenKept s t := by
  cases exec_next h
  case read hf _ h =>
    rw [(readOp_frame hf h).1]
    exact ⟨rfl, rfl, rfl, rfl, .inl rfl⟩
  case modify hf _ h =>
    obtain ⟨l, v, -, ht, -⟩ := modifyOp_frame hf h
    rw [ht]
    exact ⟨State.writeLoc_params s l v, State.writeLoc_onInvalid s l v, State.writeLoc_draws s l v,
      State.writeLoc_steps s l v, .inl (State.writeLoc_stop s l v)⟩
  case register hg =>
    rw [registerOp_frame hg s]
    exact ⟨rfl, rfl, rfl, rfl, .inl rfl⟩
  case brk => exact ⟨rfl, rfl, rfl, rfl, enterHandler_stop_cases _ _⟩
  case store | notTaken | taken | jmpAbs | jmpInd | pha | php | pla | plp | jsr | rts | rti =>
    exact ⟨rfl, rfl, rfl, rfl, .inl rfl⟩

/-- The part of the invariant about memory is kept: every write lies inside the space. -/
theorem exec_wf {i : Instr} {s t : State} (h : exec i s = .next t) (hwf : Memory.wf s.mem = true) :
    Memory.wf t.mem = true := by
  cases exec_next h
  case read hf _ h =>
    rw [(readOp_frame hf h).1]
    exact hwf
  case modify hf _ h =>
    obtain ⟨l, v, -, ht, -⟩ := modifyOp_frame hf h
    rw [ht]
    cases l with
    | mem ea => exact State.wf_writeByte ea v hwf
    | acc => exact hwf
  case register hg =>
    rw [registerOp_frame hg s]
    exact hwf
  case store | pha | php => exact State.wf_writeByte _ _ hwf
  case jsr => exact State.wf_writeByte _ _ (State.wf_writeByte _ _ hwf)
  case brk => exact State.wf_writeByte _ _ (State.wf_writeByte _ _ (State.wf_writeByte _ _ hwf))
  case notTaken | taken | jmpAbs | jmpInd | pla | plp | rts | rti => exact hwf

/-- The part of the invariant about P is kept: PLP and RTI clear bit 5, and nothing else writes it. -/
theorem exec_bit5 {i : Instr} {s t : State} (h : exec i s = .next t) (h5 : s.p[5] = false) : t.p[5] = false := by
  rcases exec_flags h with ⟨-, hclear⟩ | ⟨-, hkept⟩
  · exact hclear
  · exact hkept.trans h5

theorem exec_inv {i : Instr} {s t : State} (h : exec i s = .next t) (hs : s.Inv) : t.Inv :=
  ⟨exec_wf h hs.1, exec_bit5 h hs.2⟩

/-- What a step that answers a next state did: it went past an opcode byte without an entry, or ran an instruction. -/
theorem step_next {s t : State} (h : step s = .next t) :
    t = { s.beginStep with pc := s.pc + 1 } ∨ ∃ i pc, exec i { s.beginStep with pc := pc } = .next t := by
  unfold step at h
  rcases fetchInstr_cases s.beginStep with ⟨_, hf⟩ | ⟨_, _, hf⟩ | ⟨i, _, _, ⟨_, hf⟩ | ⟨_, hf⟩⟩ <;> rw [hf] at h
  · cases h
  · refine .inl ?_
    simp only [afterInvalid] at h
    split at h
    · exact (Host.Outcome.next.inj h).symm
    · cases h
  · exact .inr ⟨i, _, h⟩
  · cases h

/-- Settles O49: past the fetch, which leaves memory and P, every instruction keeps both parts of the invariant. -/
theorem stepKeepsInv : Obligations.StepKeepsInv := by
  intro s t hs h
  rcases step_next h with rfl | ⟨i, pc, h⟩
  · exact hs
  · exact exec_inv h hs

/-- Settles O47: the fetch counts the step and clears the stop reason; no instruction writes the rest. -/
theorem stepKeepsParametersAndCounts : Obligations.StepKeepsParametersAndCounts := by
  intro s t h
  rcases step_next h with rfl | ⟨i, pc, h⟩
  · exact ⟨rfl, rfl, rfl, rfl, .inl rfl⟩
  · exact exec_unwrittenKept h

/-- Settles O50: no byte of memory and no bit of P is set. -/
theorem resetMeetsInv : Obligations.ResetMeetsInv := ⟨Memory.wf_nil, rfl⟩

/-- A load that succeeds fits the space, and copies its bytes into memory (R64). -/
theorem load_ok {s t : State} {bytes : List Byte} {o : Nat} (h : s.load bytes o = .ok t) :
    o + bytes.length ≤ Config.memSize ∧ t = { s with mem := Memory.copy s.mem o bytes } := by
  unfold State.load at h
  split at h
  · cases h
  · next hfit => exact ⟨Nat.le_of_not_lt hfit, (Except.ok.inj h).symm⟩

theorem load_inv {s t : State} {bytes : List Byte} {o : Nat} (h : s.load bytes o = .ok t) (hs : s.Inv) : t.Inv := by
  obtain ⟨hfit, rfl⟩ := load_ok h
  exact ⟨Memory.wf_copy bytes hs.1 hfit, hs.2⟩

theorem hostReset_inv {s : State} (hs : s.Inv) : s.hostReset.Inv := ⟨hs.1, resetMeetsInv.2⟩

theorem hostWrite_inv {s : State} (w : RegWrite) (hs : s.Inv) : (s.hostWrite w).Inv := by
  cases w with
  | p v => exact ⟨hs.1, writeP_bit5 v⟩
  | pc _ | sp _ | a _ | x _ | y _ => exact hs

/-- A memory write inside the space stores the byte; outside it fails (R62, R63). -/
theorem memWrite_eq (s : State) (a : Nat) (v : Byte) : s.memWrite a v =
    if a < 65536 then .ok { s with mem := Memory.write s.mem a v } else .error (.memoryOutOfBounds a) := by
  simp only [State.memWrite, Config.memSize, ← not_lt, ite_not]

theorem memRead_eq (s : State) (a : Nat) : s.memRead a =
    if a < 65536 then .ok (Memory.read s.mem a) else .error (.memoryOutOfBounds a) := by
  simp only [State.memRead, Config.memSize, ← not_lt, ite_not]

theorem memWrite_inv {s t : State} {a : Nat} {v : Byte} (h : s.memWrite a v = .ok t) (hs : s.Inv) : t.Inv := by
  rw [memWrite_eq] at h
  split at h
  · next ha =>
    cases h
    exact ⟨Memory.wf_write v hs.1 ha, hs.2⟩
  · cases h

/-- Settles O51: each operation of the host writes inside the space, and P with bit 5 clear. -/
theorem hostOperationsKeepInv : Obligations.HostOperationsKeepInv :=
  fun _ hs => ⟨fun _ => resetMeetsInv, hostReset_inv hs, fun w => hostWrite_inv w hs,
    fun _ _ _ h => load_inv h hs, fun _ _ _ h => memWrite_inv h hs⟩

end Sys2Proof.Machine
end

section
/-! Proofs for 60_exceptions.md R400 to R408: the condition of every error. -/

namespace Sys2Proof.Machine

/-- The condition R401, R403 and R404 give an error an instruction can raise; no instruction raises the other two. -/
def FaultCondition (prm : Params) : Fault → Prop
  | .memoryOutOfBounds v => prm.addressWrap = .fault ∧ (v < 0 ∨ 65536 ≤ v)
  | .stackOverflow sp => prm.stackWrap = .fault ∧ sp = 0x00
  | .stackUnderflow sp => prm.stackWrap = .fault ∧ sp = 0xFF
  | .invalidOpcode _ _ => False
  | .romTooLarge _ _ => False

/-- An outcome that is no refusal, and an error only under its condition. -/
def OutcomeJustified (prm : Params) : Out → Prop
  | .next _ => True
  | .fault e => FaultCondition prm e
  | .refused _ => False

theorem orFault_justified {prm : Params} {α : Type} {r : Except Fault α} {k : α → Out}
    (hr : ∀ e, r = .error e → FaultCondition prm e) (hk : ∀ v, OutcomeJustified prm (k v)) :
    OutcomeJustified prm (orFault r k) := by
  cases r with
  | ok v => exact hk v
  | error e => exact hr e rfl

theorem outOfBounds_of_not_addressOk {s : State} {v : Int} (h : ¬ AddressOk s v) :
    s.params.addressWrap = .fault ∧ (v < 0 ∨ 65536 ≤ v) := by
  obtain ⟨hw, hv⟩ := not_or.1 h
  exact ⟨by cases hp : s.params.addressWrap <;> simp_all, by omega⟩

theorem stackWrap_eq_fault_iff (prm : Params) : prm.stackWrap = .fault ↔ prm.stackWrap ≠ .wrap := by
  cases prm.stackWrap <;> decide

theorem stackWrap_of_not_pushOk {s : State} {k : Nat} (h : ¬ PushOk s k) : s.params.stackWrap = .fault :=
  (stackWrap_eq_fault_iff _).2 fun hw => h (.inl hw)

theorem stackWrap_of_not_pullOk {s : State} {k : Nat} (h : ¬ PullOk s k) : s.params.stackWrap = .fault :=
  (stackWrap_eq_fault_iff _).2 fun hw => h (.inl hw)

theorem addr16_error_condition {s : State} {v : Int} {e : Fault} (h : addr16 s.params v = .error e) :
    FaultCondition s.params e := by
  rcases addr16_cases s v with ⟨-, he⟩ | ⟨hn, he⟩ <;> rw [he] at h <;> cases h
  exact outOfBounds_of_not_addressOk hn

theorem effectiveAddress_error_condition {m : MemMode} {s : State} {e : Fault} (h : effectiveAddress m s = .error e) :
    FaultCondition s.params e :=
  addr16_error_condition (effectiveAddress_eq m s ▸ h)

theorem sourceValue_error_condition {src : Source} {s : State} {e : Fault} (h : sourceValue src s = .error e) :
    FaultCondition s.params e := by
  cases src with
  | imm v => cases h
  | mem m =>
    simp only [sourceValue] at h
    cases hea : effectiveAddress m s <;> rw [hea] at h <;> cases h
    exact effectiveAddress_error_condition hea

theorem resolveLoc_error_condition {tgt : Target} {s : State} {e : Fault} (h : resolveLoc tgt s = .error e) :
    FaultCondition s.params e := by
  cases tgt with
  | acc => cases h
  | mem m =>
    simp only [resolveLoc] at h
    cases hea : effectiveAddress m s <;> rw [hea] at h <;> cases h
    exact effectiveAddress_error_condition hea

theorem indirectTarget_error_condition {ptr : Word} {s : State} {e : Fault} (h : indirectTarget ptr s = .error e) :
    FaultCondition s.params e := by
  simp only [indirectTarget] at h
  cases hhi : pointerHighAddress ptr s <;> rw [hhi] at h <;> cases h
  simp only [pointerHighAddress] at hhi
  split at hhi
  · exact addr16_error_condition hhi
  · cases hhi

theorem justified_of_next {prm : Params} {o : Out} {t : State} (h : o = .next t) : OutcomeJustified prm o := by
  rw [h]
  trivial

theorem justified_of_fault {prm : Params} {o : Out} {e : Fault} (h : o = .fault e) (hc : FaultCondition prm e) :
    OutcomeJustified prm o := by
  rwa [h]

theorem exec_brk_justified (s : State) : OutcomeJustified s.params (exec .brk s) := by
  obtain ⟨haddr, hstack, -⟩ := stackErrorsAreRaisedInOrder s 0
  by_cases ha : AddressOk s (s.pc.toNat + 1 : Nat)
  · by_cases hp : PushOk s 3
    · exact justified_of_next (takeTrap_ok ha hp)
    · exact justified_of_fault (hstack ha hp) ⟨stackWrap_of_not_pushOk hp, rfl⟩
  · exact justified_of_fault (haddr ha) ⟨(outOfBounds_of_not_addressOk ha).1, .inr (by decide)⟩

theorem exec_jsr_justified (w : Word) (s : State) : OutcomeJustified s.params (exec (.jsr w) s) := by
  obtain ⟨-, -, -, hstack, -⟩ := stackErrorsAreRaisedInOrder s w
  by_cases ha : AddressOk s ((s.pc.toNat : Int) - 1)
  · by_cases hp : PushOk s 2
    · exact justified_of_next (exec_jsr_ok ha hp)
    · exact justified_of_fault (hstack ha hp) ⟨stackWrap_of_not_pushOk hp, rfl⟩
  · have hf : exec (.jsr w) s = .fault (.memoryOutOfBounds ((s.pc.toNat : Int) - 1)) := by
      rw [exec_jsr, execJsr, addr16_error ha, orFault_error]
    exact justified_of_fault hf (outOfBounds_of_not_addressOk ha)

theorem exec_rts_justified (s : State) : OutcomeJustified s.params (exec .rts s) := by
  obtain ⟨-, -, -, -, -, hstack, -⟩ := stackErrorsAreRaisedInOrder s 0
  by_cases hp : PullOk s 2
  · by_cases ha : AddressOk s ((pulledWord s).toNat + 1 : Nat)
    · exact justified_of_next (exec_rts_ok hp ha)
    · exact justified_of_fault (exec_rts_outOfBounds hp ha) ⟨(outOfBounds_of_not_addressOk ha).1, .inr (by decide)⟩
  · exact justified_of_fault (hstack hp) ⟨stackWrap_of_not_pullOk hp, rfl⟩

/-- The pushes and pulls of one instruction complete, or raise the stack's error under STACK_WRAP = fault. -/
theorem exec_pushPull_justified (s : State) : ∀ i ∈ [Instr.pha, .php, .pla, .plp, .rti],
    OutcomeJustified s.params (exec i s) := by
  obtain ⟨-, -, hpush, -, hpull, -, hrti⟩ := stackErrorsAreRaisedInOrder s 0
  have push {i : Instr} {t : State} (hok : PushOk s 1 → exec i s = .next t)
      (herr : ¬ PushOk s 1 → exec i s = .fault (.stackOverflow 0x00)) : OutcomeJustified s.params (exec i s) := by
    by_cases hp : PushOk s 1
    · exact justified_of_next (hok hp)
    · exact justified_of_fault (herr hp) ⟨stackWrap_of_not_pushOk hp, rfl⟩
  have pull {k : Nat} {i : Instr} {t : State} (hok : PullOk s k → exec i s = .next t)
      (herr : ¬ PullOk s k → exec i s = .fault (.stackUnderflow 0xFF)) : OutcomeJustified s.params (exec i s) := by
    by_cases hp : PullOk s k
    · exact justified_of_next (hok hp)
    · exact justified_of_fault (herr hp) ⟨stackWrap_of_not_pullOk hp, rfl⟩
  simp only [List.forall_mem_cons]
  exact ⟨push exec_pha_ok fun hp => (hpush hp).1, push exec_php_ok fun hp => (hpush hp).2,
    pull exec_pla_ok fun hp => (hpull hp).1, pull exec_plp_ok fun hp => (hpull hp).2,
    pull returnFromTrap_ok hrti, nofun⟩

/-- No instruction refuses, and each error it raises has its condition. -/
theorem exec_justified (i : Instr) (s : State) : OutcomeJustified s.params (exec i s) := by
  rcases instr_shape i with ⟨f, hf⟩ | ⟨f, hf⟩ | ⟨r, hr⟩ | ⟨f, b, hb⟩ | hp
  case inl =>
    obtain ⟨src, -, he⟩ := exec_read hf
    obtain ⟨g, hg⟩ := readOp_eq_withSource hf
    rw [he, hg]
    exact orFault_justified (fun _ => sourceValue_error_condition) fun _ => trivial
  case inr.inl =>
    obtain ⟨tgt, -, he⟩ := exec_modify hf
    obtain ⟨g, hg⟩ := modifyOp_eq_withLoc hf
    rw [he, hg]
    exact orFault_justified (fun _ => resolveLoc_error_condition) fun _ => trivial
  case inr.inr.inl =>
    obtain ⟨m, -, he⟩ := exec_store hr
    rw [he]
    exact orFault_justified (fun _ => effectiveAddress_error_condition) fun _ => trivial
  case inr.inr.inr.inl =>
    obtain ⟨d, -, he⟩ := exec_branch hb
    rw [he, branchIf]
    split
    · exact orFault_justified (fun _ => addr16_error_condition) fun _ => trivial
    · trivial
  case inr.inr.inr.inr =>
    rcases plain_cases hp with ⟨g, hg⟩ | ⟨w, rfl⟩ | ⟨w, rfl⟩ | ⟨w, rfl⟩ | hi
    · exact justified_of_next (exec_register hg s)
    · trivial
    · exact orFault_justified (fun _ => indirectTarget_error_condition) fun _ => trivial
    · exact exec_jsr_justified w s
    · simp only [List.mem_cons, List.not_mem_nil, or_false] at hi
      rcases hi with rfl | rfl | rfl | rfl | rfl | rfl | rfl
      · exact exec_brk_justified s
      · exact exec_pushPull_justified s _ (by decide)
      · exact exec_pushPull_justified s _ (by decide)
      · exact exec_pushPull_justified s _ (by decide)
      · exact exec_pushPull_justified s _ (by decide)
      · exact exec_rts_justified s
      · exact exec_pushPull_justified s _ (by decide)

/-- Settles O53: under both wraps no error has its condition, and no instruction refuses. -/
theorem everyInstructionCompletesUnderWrap : Obligations.EveryInstructionCompletesUnderWrap := by
  intro i s haddr hstack
  have h := exec_justified i s
  cases hout : exec i s with
  | next t => exact ⟨t, rfl⟩
  | refused r => simp [hout, OutcomeJustified] at h
  | fault e => cases e <;> simp [hout, OutcomeJustified, FaultCondition, haddr, hstack] at h

/-- A step that does not end in InvalidOpcode under `halt` answers a next state or an error under its condition. -/
theorem step_cases (s : State) :
    (lookup s.params.unlistedOfficial (s.readByte s.pc) = none ∧ s.onInvalid = .halt ∧
      step s = .fault (.invalidOpcode (s.readByte s.pc) s.pc)) ∨ OutcomeJustified s.params (step s) := by
  unfold step
  rcases fetchInstr_cases s.beginStep with ⟨hn, hf⟩ | ⟨-, hl, hf⟩ | ⟨i, _, _, ⟨_, hf⟩ | ⟨hn, hf⟩⟩ <;> rw [hf]
  · exact .inr ⟨(outOfBounds_of_not_addressOk hn).1, .inr (by decide)⟩
  · cases ho : s.onInvalid with
    | skip => exact .inr (justified_of_next (t := { s.beginStep with pc := s.pc + 1 }) (by simp [afterInvalid, ho]))
    | halt => exact .inl ⟨hl, rfl, by simp [afterInvalid, ho]⟩
  · exact .inr (exec_justified i _)
  · exact .inr ⟨(outOfBounds_of_not_addressOk hn).1, .inr (by decide)⟩

/-- Settles O52: an InvalidOpcode comes from the fetch under `halt`; every other error has its condition. -/
theorem stepErrorsHaveTheirCondition : Obligations.StepErrorsHaveTheirCondition := by
  intro s
  rcases step_cases s with ⟨hl, ho, hs⟩ | hj
  · refine ⟨fun r => by simp [hs], fun e he => ?_⟩
    obtain rfl := Host.Outcome.fault.inj (hs.symm.trans he)
    exact ⟨rfl, rfl, hl, ho⟩
  · refine ⟨fun r he => by simp [he, OutcomeJustified] at hj, fun e he => ?_⟩
    rw [he] at hj
    cases e with
    | memoryOutOfBounds v => exact hj
    | stackOverflow sp => exact hj
    | stackUnderflow sp => exact hj
    | invalidOpcode o a => exact hj.elim
    | romTooLarge o n => exact hj

end Sys2Proof.Machine
end

section
/-! Proofs for 20_memory.md, 60_exceptions.md R420 to R424 and 70_reset_and_hazards.md: the host's operations and the run
loop. -/

namespace Sys2Proof.Machine

/-! ### Memory from the host -/

/-- Settles O54: Reset writes the six registers, the values a created machine holds already. -/
theorem resetZeroesTheRegisters : Obligations.ResetZeroesTheRegisters :=
  fun _ => ⟨rfl, rfl, rfl, rfl, rfl, rfl, rfl, rfl, rfl, fun _ => rfl⟩

/-- Settles O55: the check comes first, and a copy writes its range alone. -/
theorem loadCopiesExactlyItsRange : Obligations.LoadCopiesExactlyItsRange := by
  intro s bytes o
  refine ⟨fun hbig => if_pos hbig, fun hfit =>
    ⟨_, if_neg (Nat.not_lt.2 hfit), rfl, fun k hk => ?inside, fun a ha => ?outside⟩⟩
  case inside => simp [Memory.read_copy, hk]
  case outside =>
    simp only [Memory.read_copy]
    split
    · rw [List.getElem?_eq_none (by omega), Option.getD_none]
    · rfl

/-- Settles O56: a write stores one byte, and both accesses check the address. -/
theorem memoryReadsTheLastWrite : Obligations.MemoryReadsTheLastWrite := by
  intro s addr v
  refine ⟨fun hout => ?outside, fun hin =>
    ⟨{ s with mem := Memory.write s.mem addr v }, ?write, rfl, ?read, fun b hb => ?frame⟩⟩
  case outside => simp [memRead_eq, memWrite_eq, Nat.not_lt.2 hout]
  case write => rw [memWrite_eq, if_pos hin]
  case read => rw [memRead_eq, if_pos hin, Memory.read_write, if_pos rfl]
  case frame => simp only [memRead_eq, Memory.read_write, if_neg hb]

/-! ### The host's step -/

/-- Settles O59: of the answers of the host's step, each clause picks those its hypothesis leaves. -/
theorem hostStepAnswersTheOutcome : Obligations.HostStepAnswersTheOutcome := by
  intro s
  refine ⟨fun hl ha => hostStep_of_lookup_none hl ha, fun hl t ht => ?next, fun e he => ?fault⟩
  case next =>
    rcases hostStep_cases s with ⟨hnone, -⟩ | ⟨u, hu, hh⟩ | ⟨e, he, -⟩ | ⟨r, hr, -⟩
    · exact absurd hnone hl
    · obtain rfl := Host.Outcome.next.inj (ht.symm.trans hu)
      exact hh
    · cases ht.symm.trans he
    · cases ht.symm.trans hr
  case fault =>
    rcases hostStep_cases s with ⟨-, -, hs, hh⟩ | ⟨u, hu, -⟩ | ⟨e', he', hh⟩ | ⟨r, hr, -⟩
    · simp only [he, afterInvalid] at hs
      split at hs
      · cases hs
      · obtain rfl := Host.Outcome.fault.inj hs
        exact ⟨_, hh, rfl, rfl⟩
    · cases he.symm.trans hu
    · obtain rfl := Host.Outcome.fault.inj (he.symm.trans he')
      exact ⟨_, hh, rfl, rfl⟩
    · cases he.symm.trans hr

/-- The host's step always answers, one step further on, with the parameters and the invariant kept (R424, R450). -/
theorem hostStep_some (s : State) : ∃ r t, s.hostStep = some ⟨r, t⟩ ∧
    t.steps = s.steps + 1 ∧ t.params = s.params ∧ (s.Inv → t.Inv) := by
  rcases hostStep_cases s with ⟨-, -, -, hh⟩ | ⟨t, ht, hh⟩ | ⟨e, -, hh⟩ | ⟨r, hr, -⟩
  · exact ⟨_, _, hh, rfl, rfl, id⟩
  · obtain ⟨hparams, -, -, hsteps, -⟩ := stepKeepsParametersAndCounts s t ht
    exact ⟨_, t, hh, hsteps, hparams, fun hs => stepKeepsInv s t hs ht⟩
  · exact ⟨_, _, hh, rfl, rfl, fun _ => State.afterFatal_Inv _⟩
  · exact absurd hr ((stepErrorsHaveTheirCondition s).1 r)

/-- The host's step starts by clearing the stop reason, so it does not read the one it finds (R421). -/
theorem hostStep_stop (s : State) (r : Option StopReason) : { s with stop := r }.hostStep = s.hostStep := rfl

/-! ### The run loop -/

/-- One round of the loop (R420): whatever is left before the limit, the run goes on from the state of the host's step, or
ends there with a reason that is not the limit. -/
theorem runSteps_round (s : State) : ∃ t, (t.steps = s.steps + 1 ∧ t.params = s.params ∧ (s.Inv → t.Inv)) ∧
    ((∀ left, runSteps (left + 1) s = runSteps left t) ∨
      ∃ reason, reason ≠ .stepLimit ∧ ∀ left, runSteps (left + 1) s = some (t.endRun reason)) := by
  obtain ⟨r, t, hstep, ht⟩ := hostStep_some s
  refine ⟨t, ht, ?_⟩
  cases r with
  | completed => exact .inl fun left => by simp only [runSteps, hstep]
  | halted => exact .inr ⟨.haltedBrk, nofun, fun left => by simp only [runSteps, hstep]⟩
  | error e =>
    by_cases hgo : goesOnAfter t.onInvalid e = true
    · exact .inl fun left => by simp only [runSteps, hstep, if_pos hgo]
    · exact .inr ⟨.error e, nofun, fun left => by simp only [runSteps, hstep, if_neg hgo]⟩

/-- A run ends, within the steps left; at the limit with all of them begun, otherwise with at least one. -/
theorem runSteps_ends (left : Nat) (s : State) : ∃ e, runSteps left s = some e ∧ e.n ≤ s.steps + left ∧
    (e.reason = .stepLimit → e.n = s.steps + left) ∧ (e.reason ≠ .stepLimit → s.steps < e.n) := by
  induction left generalizing s with
  | zero => exact ⟨_, rfl, Nat.le_refl _, fun _ => rfl, fun hne => absurd rfl hne⟩
  | succ left ih =>
    obtain ⟨t, ⟨hsteps, -, -⟩, hgo | ⟨reason, hreason, hend⟩⟩ := runSteps_round s
    · obtain ⟨e, he, hle, hlimit, hother⟩ := ih t
      rw [hgo left]
      exact ⟨e, he, by omega, fun hr => by have := hlimit hr; omega, fun hr => by have := hother hr; omega⟩
    · rw [hend left]
      exact ⟨_, rfl, by simp [hsteps], fun hr => absurd hr hreason, fun _ => by simp [hsteps]⟩

/-- Settles O57: a run begins with no step counted. -/
theorem runEndsWithinItsLimit : Obligations.RunEndsWithinItsLimit := by
  intro limit o s
  refine ⟨?ends, rfl⟩
  case ends => simpa [run, State.beginRun] using runSteps_ends limit (s.beginRun o)

/-- The stop reason a state holds is not read by a run from it (R421). -/
theorem runSteps_stop (k : Nat) (s : State) (r : Option StopReason) :
    runSteps k { s with stop := r } = runSteps k s := by
  cases k with
  | zero => rfl
  | succ k => simp only [runSteps, hostStep_stop]

/-- Settles O58: the longer run takes the same rounds, and the stop reason the first one left is not read. -/
theorem runContinuesAfterTheLimit : Obligations.RunContinuesAfterTheLimit := by
  intro j k n s u h
  induction j generalizing s with
  | zero =>
    cases h
    rw [Nat.zero_add]
    exact (runSteps_stop k s _).symm
  | succ j ih =>
    rw [Nat.succ_add]
    obtain ⟨t, -, hgo | ⟨reason, hreason, hend⟩⟩ := runSteps_round s
    · rw [hgo] at h ⊢
      exact ih t h
    · rw [hend] at h
      exact absurd (congrArg RunEnd.reason (Option.some.inj h)) hreason

/-- A run keeps the parameters and the invariant, fatal errors included. -/
theorem runSteps_keeps {left : Nat} {s : State} {e : RunEnd} (h : runSteps left s = some e) :
    e.state.params = s.params ∧ (s.Inv → e.state.Inv) := by
  induction left generalizing s with
  | zero =>
    cases h
    exact ⟨rfl, id⟩
  | succ left ih =>
    obtain ⟨t, ⟨-, hparams, hinv⟩, hgo | ⟨reason, -, hend⟩⟩ := runSteps_round s
    · rw [hgo] at h
      obtain ⟨hp, hi⟩ := ih h
      exact ⟨hp.trans hparams, fun hs => hi (hinv hs)⟩
    · rw [hend] at h
      cases h
      exact ⟨hparams, hinv⟩

/-- Settles O60: Reset, a load that fits and the write of PC give every part its value and keep the invariant. -/
theorem launchAfterAnyStop : Obligations.LaunchAfterAnyStop := by
  intro limit o s e rom entry hrun hrom
  obtain ⟨hparams, hinv⟩ := runSteps_keeps hrun
  obtain ⟨t, hload, ht, hread, -⟩ := (loadCopiesExactlyItsRange e.state.hostReset rom 0x8000).2 (by omega)
  have hlaunch : e.state.launch rom entry = .ok (t.hostWrite (.pc entry)) := by
    rw [State.launch, State.loadRom, Config.romBase, hload]
  refine ⟨_, hlaunch, rfl, ?zeroSp, ?zeroA, ?zeroX, ?zeroY, ?zeroP, ?params, hread, fun hs => ?inv⟩
  case zeroSp | zeroA | zeroX | zeroY | zeroP => rw [ht]; rfl
  case params => rw [ht]; exact hparams
  case inv => exact hostWrite_inv _ (load_inv hload (hostReset_inv (hinv hs)))

end Sys2Proof.Machine
end

section
/-! Proofs for 10_state.md R43 and 42_alu.md R175: D has no effect on any computation. Two states that agree but for D answer
states that agree but for D: each update of the state keeps the relation, and each instruction is made of such updates. -/

namespace Sys2Proof.Machine

/-- Two states alike in everything but P, and in P alike in every named flag but D. -/
def AgreeButD (s u : State) : Prop :=
  ∃ q, u = { s with p := q } ∧ ∀ f, f ≠ .d → u.getFlag f = s.getFlag f

/-- The two outcomes are next states that agree but for D, wherever the first is a next state. -/
def AnswersAgree (o o' : Out) : Prop := ∀ t, o = .next t → ∃ u, o' = .next u ∧ AgreeButD t u

theorem agreeButD_setFlag_d (s : State) (b : Bool) : AgreeButD s (s.setFlag .d b) :=
  ⟨_, rfl, fun f hf => by simp [hf]⟩

section Updates

variable {s u : State} (h : AgreeButD s u)
include h

theorem AgreeButD.getFlag {f : Flag} (hf : f ≠ .d) : u.getFlag f = s.getFlag f := by
  obtain ⟨_, -, hflags⟩ := h
  exact hflags f hf

theorem AgreeButD.setFlag (f : Flag) (b : Bool) : AgreeButD (s.setFlag f b) (u.setFlag f b) := by
  obtain ⟨q, rfl, hflags⟩ := h
  exact ⟨_, rfl, fun g hg => by simp [hflags g hg]⟩

theorem AgreeButD.setZN (v : Byte) : AgreeButD (s.setZN v) (u.setZN v) := (h.setFlag .z _).setFlag .n _

theorem AgreeButD.setArith (r : AddResult) : AgreeButD (s.setArith r) (u.setArith r) :=
  ((h.setFlag .c _).setFlag .v _).setZN _

theorem AgreeButD.setCompare (r m : Byte) : AgreeButD (s.setCompare r m) (u.setCompare r m) :=
  ((h.setFlag .c _).setFlag .z _).setFlag .n _

theorem AgreeButD.writeP (v : Byte) : AgreeButD (s.writeP v) (u.writeP v) := by
  obtain ⟨q, rfl, -⟩ := h
  exact ⟨_, rfl, fun _ _ => rfl⟩

theorem AgreeButD.setA (v : Byte) : AgreeButD (s.setA v) (u.setA v) := by
  obtain ⟨q, rfl, hflags⟩ := h
  exact ⟨q, rfl, hflags⟩

theorem AgreeButD.setX (v : Byte) : AgreeButD (s.setX v) (u.setX v) := by
  obtain ⟨q, rfl, hflags⟩ := h
  exact ⟨q, rfl, hflags⟩

theorem AgreeButD.setY (v : Byte) : AgreeButD (s.setY v) (u.setY v) := by
  obtain ⟨q, rfl, hflags⟩ := h
  exact ⟨q, rfl, hflags⟩

theorem AgreeButD.setSp (v : Byte) : AgreeButD (s.setSp v) (u.setSp v) := by
  obtain ⟨q, rfl, hflags⟩ := h
  exact ⟨q, rfl, hflags⟩

theorem AgreeButD.setPc (w : Word) : AgreeButD (s.setPc w) (u.setPc w) := by
  obtain ⟨q, rfl, hflags⟩ := h
  exact ⟨q, rfl, hflags⟩

theorem AgreeButD.writeByte (a : Word) (v : Byte) : AgreeButD (s.writeByte a v) (u.writeByte a v) := by
  obtain ⟨q, rfl, hflags⟩ := h
  exact ⟨q, rfl, hflags⟩

theorem AgreeButD.writeLoc (l : Loc) (v : Byte) : AgreeButD (s.writeLoc l v) (u.writeLoc l v) := by
  cases l with
  | mem ea => exact h.writeByte ea v
  | acc => exact h.setA v

/-! What the resolvers and the stack read is no part of P. -/

theorem AgreeButD.a : u.a = s.a := by
  obtain ⟨q, rfl, -⟩ := h
  rfl

theorem AgreeButD.readLoc (l : Loc) : u.readLoc l = s.readLoc l := by
  obtain ⟨q, rfl, -⟩ := h
  cases l <;> rfl

theorem AgreeButD.effectiveAddress (m : MemMode) : effectiveAddress m u = effectiveAddress m s := by
  obtain ⟨q, rfl, -⟩ := h
  cases m <;> rfl

theorem AgreeButD.sourceValue (src : Source) : sourceValue src u = sourceValue src s := by
  obtain ⟨q, rfl, hflags⟩ := h
  cases src with
  | imm v => rfl
  | mem m =>
    simp only [Machine.sourceValue, AgreeButD.effectiveAddress ⟨q, rfl, hflags⟩]
    rfl

theorem AgreeButD.resolveLoc (tgt : Target) : resolveLoc tgt u = resolveLoc tgt s := by
  cases tgt with
  | acc => rfl
  | mem m => simp only [Machine.resolveLoc, h.effectiveAddress m]

theorem AgreeButD.withSource (src : Source) {g g' : Byte → State} (hg : ∀ v, AgreeButD (g v) (g' v)) :
    AnswersAgree (withSource src s g) (withSource src u g') := by
  intro t ht
  obtain ⟨v, hv, rfl⟩ := withSource_next ht
  exact ⟨g' v, by rw [Machine.withSource, h.sourceValue, hv, orFault_ok], hg v⟩

theorem AgreeButD.withLoc (tgt : Target) {g g' : Loc → State} (hg : ∀ l, AgreeButD (g l) (g' l)) :
    AnswersAgree (withLoc tgt s g) (withLoc tgt u g') := by
  intro t ht
  obtain ⟨l, hl, rfl⟩ := withLoc_next ht
  exact ⟨g' l, by rw [Machine.withLoc, h.resolveLoc, hl, orFault_ok], hg l⟩

theorem AgreeButD.answer : AnswersAgree (.next s) (.next u) := by
  rintro t ⟨⟩
  exact ⟨u, rfl, h⟩

end Updates

section Answers

variable {s u : State}

/-- ADC and SBC take C from P, and nothing else. -/
theorem readOp_agree {mn : Mnemonic} {f : Source → State → Out} (hf : readOp mn = some f) (h : AgreeButD s u)
    (src : Source) : AnswersAgree (f src s) (f src u) := by
  have hc : u.getFlag .c = s.getFlag .c := h.getFlag nofun
  obtain ⟨q, rfl, hflags⟩ := id h
  cases mn <;> cases hf
  case lda => exact h.withSource src fun v => (h.setA v).setZN v
  case ldx => exact h.withSource src fun v => (h.setX v).setZN v
  case ldy => exact h.withSource src fun v => (h.setY v).setZN v
  case and => exact h.withSource src fun v => (h.setA (s.a &&& v)).setZN (s.a &&& v)
  case eor => exact h.withSource src fun v => (h.setA (s.a ^^^ v)).setZN (s.a ^^^ v)
  case ora => exact h.withSource src fun v => (h.setA (s.a ||| v)).setZN (s.a ||| v)
  case cmp => exact h.withSource src fun v => h.setCompare s.a v
  case cpx => exact h.withSource src fun v => h.setCompare s.x v
  case cpy => exact h.withSource src fun v => h.setCompare s.y v
  case bit => exact h.withSource src fun v => ((h.setFlag .z (s.a &&& v == 0)).setFlag .n _).setFlag .v _
  case adc =>
    refine h.withSource src fun v => ?_
    rw [hc]
    exact (h.setA (addByte s.a v (s.getFlag .c)).result).setArith (addByte s.a v (s.getFlag .c))
  case sbc =>
    refine h.withSource src fun v => ?_
    rw [hc]
    exact (h.setA (subtractByte s.a v (s.getFlag .c)).result).setArith (subtractByte s.a v (s.getFlag .c))

/-- A shift takes C from P, and nothing else. -/
theorem shiftInPlace_agree (f : Byte → Bool → ShiftResult) (h : AgreeButD s u) (tgt : Target) :
    AnswersAgree (shiftInPlace f tgt s) (shiftInPlace f tgt u) := by
  refine h.withLoc tgt fun l => ?_
  rw [h.readLoc, h.getFlag (f := .c) nofun]
  exact ((h.setFlag .c _).writeLoc l _).setZN _

theorem modifyInPlace_agree (f : Byte → Byte) (h : AgreeButD s u) (tgt : Target) :
    AnswersAgree (modifyInPlace f tgt s) (modifyInPlace f tgt u) := by
  refine h.withLoc tgt fun l => ?_
  rw [h.readLoc]
  exact (h.writeLoc l _).setZN _

theorem modifyOp_agree {mn : Mnemonic} {f : Target → State → Out} (hf : modifyOp mn = some f) (h : AgreeButD s u)
    (tgt : Target) : AnswersAgree (f tgt s) (f tgt u) := by
  cases mn <;> cases hf
  case asl | lsr | rol | ror => exact shiftInPlace_agree _ h tgt
  case inc | dec => exact modifyInPlace_agree _ h tgt

theorem storeAt_agree (h : AgreeButD s u) (m : MemMode) (v : Byte) : AnswersAgree (storeAt m v s) (storeAt m v u) := by
  intro t ht
  obtain ⟨ea, hea, rfl⟩ := storeAt_next ht
  exact ⟨_, by rw [storeAt, h.effectiveAddress, hea, orFault_ok], h.writeByte ea v⟩

theorem storeOp_agree {mn : Mnemonic} {r : State → Byte} (hr : storeOp mn = some r) (h : AgreeButD s u) : r u = r s := by
  obtain ⟨q, rfl, -⟩ := h
  cases mn <;> cases hr <;> rfl

theorem branchIf_agree (h : AgreeButD s u) (cond : Bool) (d : Byte) :
    AnswersAgree (branchIf cond d s) (branchIf cond d u) := by
  intro t ht
  rcases branchIf_next ht with ⟨rfl, rfl⟩ | ⟨rfl, target, ha, rfl⟩
  · exact ⟨u, rfl, h⟩
  · refine ⟨u.setPc target, ?_, h.setPc target⟩
    obtain ⟨q, rfl, -⟩ := h
    rw [branchIf, if_pos rfl]
    exact congrArg (orFault · _) ha

/-- No branch tests D. -/
theorem branchTest_ne_d {mn : Mnemonic} {f : Flag} {b : Bool} (hb : branchTest mn = some (f, b)) : f ≠ .d := by
  cases mn <;> cases hb <;> decide

theorem registerOp_agree {mn : Mnemonic} {g : State → State} (hg : registerOp mn = some g) (h : AgreeButD s u) :
    AgreeButD (g s) (g u) := by
  obtain ⟨q, rfl, hflags⟩ := id h
  cases mn <;> cases hg
  case inx => exact (h.setX (inc8 s.x)).setZN (inc8 s.x)
  case iny => exact (h.setY (inc8 s.y)).setZN (inc8 s.y)
  case dex => exact (h.setX (dec8 s.x)).setZN (dec8 s.x)
  case dey => exact (h.setY (dec8 s.y)).setZN (dec8 s.y)
  case tax => exact (h.setX s.a).setZN s.a
  case tay => exact (h.setY s.a).setZN s.a
  case txa => exact (h.setA s.x).setZN s.x
  case tya => exact (h.setA s.y).setZN s.y
  case tsx => exact (h.setX s.sp).setZN s.sp
  case txs => exact h.setSp s.x
  case nop => exact h
  case clc | cld | cli | clv | sec | sed | sei => exact h.setFlag _ _

/-- An instruction that completes exactly under a condition that does not read P, with states that agree. -/
theorem answersAgree_of_cases {i : Instr} {s u t' u' : State} {P : Prop} (hs : P → exec i s = .next t')
    (hu : P → exec i u = .next u') (herr : ¬ P → ∃ e, exec i s = .fault e) (h : AgreeButD t' u') :
    AnswersAgree (exec i s) (exec i u) := by
  intro t ht
  by_cases hp : P
  · cases (hs hp).symm.trans ht
    exact ⟨u', hu hp, h⟩
  · obtain ⟨e, he⟩ := herr hp
    cases he.symm.trans ht

theorem exec_jmpInd_agree (h : AgreeButD s u) (w : Word) : AnswersAgree (exec (.jmpInd w) s) (exec (.jmpInd w) u) := by
  intro t ht
  obtain ⟨target, hw, rfl⟩ := execJmpInd_next ht
  refine ⟨u.setPc target, ?_, h.setPc target⟩
  obtain ⟨q, rfl, -⟩ := h
  rw [exec_jmpInd, execJmpInd]
  exact congrArg (orFault · _) hw

/-- JSR pushes PC, not P. -/
theorem exec_jsr_agree (h : AgreeButD s u) (w : Word) : AnswersAgree (exec (.jsr w) s) (exec (.jsr w) u) := by
  intro t ht
  obtain ⟨ha, hp, rfl⟩ := execJsr_next ht
  obtain ⟨q, rfl, -⟩ := id h
  exact ⟨_, exec_jsr_ok ha hp, (((h.setSp _).writeByte _ _).writeByte _ _).setPc w⟩

theorem exec_rts_agree (h : AgreeButD s u) : AnswersAgree (exec .rts s) (exec .rts u) := by
  obtain ⟨-, -, -, -, -, hstack, -⟩ := stackErrorsAreRaisedInOrder s 0
  obtain ⟨q, rfl, -⟩ := id h
  refine answersAgree_of_cases (P := PullOk s 2 ∧ AddressOk s ((pulledWord s).toNat + 1 : Nat))
    (fun hp => exec_rts_ok hp.1 hp.2) (fun hp => exec_rts_ok hp.1 hp.2) (fun hn => ?_)
    ((h.setSp (s.sp + 2)).setPc (pulledWord s + 1))
  by_cases hp : PullOk s 2
  · exact ⟨_, exec_rts_outOfBounds hp fun ha => hn ⟨hp, ha⟩⟩
  · exact ⟨_, hstack hp⟩

/-- The pushes and pulls of one instruction but PHP: none of them pushes P. -/
theorem exec_pushPull_agree (h : AgreeButD s u) : ∀ i ∈ [Instr.pha, .pla, .plp, .rti],
    AnswersAgree (exec i s) (exec i u) := by
  obtain ⟨-, -, hpush, -, hpull, -, hrti⟩ := stackErrorsAreRaisedInOrder s 0
  obtain ⟨q, rfl, -⟩ := id h
  simp only [List.forall_mem_cons]
  refine ⟨?pha, ?pla, ?plp, ?rti, nofun⟩
  case pha =>
    exact answersAgree_of_cases exec_pha_ok (exec_pha_ok (s := { s with p := q })) (fun hn => ⟨_, (hpush hn).1⟩)
      ((h.setSp (s.sp - 1)).writeByte (stackSlot s.sp) s.a)
  case pla =>
    exact answersAgree_of_cases exec_pla_ok (exec_pla_ok (s := { s with p := q })) (fun hn => ⟨_, (hpull hn).1⟩)
      (((h.setSp (s.sp + 1)).setA (s.readByte (stackSlot (s.sp + 1)))).setZN (s.readByte (stackSlot (s.sp + 1))))
  case plp =>
    exact answersAgree_of_cases exec_plp_ok (exec_plp_ok (s := { s with p := q })) (fun hn => ⟨_, (hpull hn).2⟩)
      ((h.setSp (s.sp + 1)).writeP (s.readByte (stackSlot (s.sp + 1))))
  case rti =>
    exact answersAgree_of_cases (i := .rti) returnFromTrap_ok (returnFromTrap_ok (s := { s with p := q }))
      (fun hn => ⟨_, hrti hn⟩)
      (((h.setSp (s.sp + 3)).writeP (s.readByte (stackSlot (s.sp + 1)))).setPc
        (word (s.readByte (stackSlot (s.sp + 2))) (s.readByte (stackSlot (s.sp + 3)))))

/-- Every instruction but the two that push P answers alike from states that agree but for D. -/
theorem exec_agree {i : Instr} (hi : i.mnemonic ∉ [.php, .brk]) (h : AgreeButD s u) :
    AnswersAgree (exec i s) (exec i u) := by
  rcases instr_shape i with ⟨f, hf⟩ | ⟨f, hf⟩ | ⟨r, hr⟩ | ⟨f, b, hb⟩ | hp
  case inl =>
    obtain ⟨src, -, he⟩ := exec_read hf
    rw [he, he]
    exact readOp_agree hf h src
  case inr.inl =>
    obtain ⟨tgt, -, he⟩ := exec_modify hf
    rw [he, he]
    exact modifyOp_agree hf h tgt
  case inr.inr.inl =>
    obtain ⟨m, -, he⟩ := exec_store hr
    rw [he, he, storeOp_agree hr h]
    exact storeAt_agree h m _
  case inr.inr.inr.inl =>
    obtain ⟨d, -, he⟩ := exec_branch hb
    rw [he, he, h.getFlag (branchTest_ne_d hb)]
    exact branchIf_agree h _ d
  case inr.inr.inr.inr =>
    rcases plain_cases hp with ⟨g, hg⟩ | ⟨w, rfl⟩ | ⟨w, rfl⟩ | ⟨w, rfl⟩ | hstack
    · rw [exec_register hg, exec_register hg]
      exact (registerOp_agree hg h).answer
    · exact (h.setPc w).answer
    · exact exec_jmpInd_agree h w
    · exact exec_jsr_agree h w
    · simp only [List.mem_cons, List.not_mem_nil, or_false] at hstack
      rcases hstack with rfl | rfl | rfl | rfl | rfl | rfl | rfl
      · exact absurd (by decide) hi
      · exact exec_pushPull_agree h _ (by decide)
      · exact absurd (by decide) hi
      · exact exec_pushPull_agree h _ (by decide)
      · exact exec_pushPull_agree h _ (by decide)
      · exact exec_rts_agree h
      · exact exec_pushPull_agree h _ (by decide)

end Answers

/-- Settles O48: a state and itself with D written agree but for D, and so do their answers. -/
theorem decimalFlagHasNoEffect : Obligations.DecimalFlagHasNoEffect := by
  intro i s t b hi ht
  obtain ⟨u, hu, q, rfl, hflags⟩ := exec_agree hi (agreeButD_setFlag_d s b) t ht
  exact ⟨_, hu, rfl, hflags⟩

end Sys2Proof.Machine
end
